-- ==== Sys2Proof/Word.lean ====
section
/-! DEFINITION. The fixed-width words of the command interface. Registers whose width is a build
parameter are natural numbers with a width invariant (notes/assumptions/2.md). -/

namespace Sys2Proof

/-- One BUF byte, or the DATA field of a command (20_memory.md R50, 30_encoding.md R76). -/
abbrev Byte := BitVec 8

/-- A command word (30_encoding.md R70). -/
abbrev CmdWord := BitVec 64

/-- The SLOT field, w[7:4] (30_encoding.md R73). -/
abbrev SlotField := BitVec 4

/-- The KIND field of a CONFIG word, w[9:8] (30_encoding.md R74). -/
abbrev KindField := BitVec 2

/-- A 16-bit TAP, LEN, SRC, DST or ADDR field (30_encoding.md R77 to R79). -/
abbrev Field16 := BitVec 16

end Sys2Proof
end

