-- ==== Sys2Proof/Syntax.lean ====
section
/-! DEFINITION. The commands of the CORE, one constructor per row of spec/opcode_table.json
(30_encoding.md R71, R80). Operands stand in the order of the assembly syntax (R97). -/

namespace Sys2Proof

inductive Instr where
  /-- NOP (47_buffer_ops.md R227). -/
  | nop
  /-- TAPCLR (41_tap_config.md R100). -/
  | tapclr
  /-- TAPADD tap (41_tap_config.md R101). -/
  | tapadd (tap : Field16)
  /-- CONFIG slot, kind (41_tap_config.md R104). -/
  | config (slot : SlotField) (kind : KindField)
  /-- SCRB slot, bit (45_stream_ops.md R190). -/
  | scrb (slot : SlotField) (dbit : Bool)
  /-- DSCB slot, bit (45_stream_ops.md R191). -/
  | dscb (slot : SlotField) (dbit : Bool)
  /-- SCRY slot, byte (45_stream_ops.md R192). -/
  | scry (slot : SlotField) (data : Byte)
  /-- DSCY slot, byte (45_stream_ops.md R193). -/
  | dscy (slot : SlotField) (data : Byte)
  /-- STATE slot (45_stream_ops.md R194). -/
  | state (slot : SlotField)
  /-- SCRR slot, src, dst, len (46_range_ops.md R210). -/
  | scrr (slot : SlotField) (src dst len : Field16)
  /-- DSCR slot, src, dst, len (46_range_ops.md R213). -/
  | dscr (slot : SlotField) (src dst len : Field16)
  /-- BUFWR addr, byte (47_buffer_ops.md R225). -/
  | bufwr (addr : Field16) (data : Byte)
  /-- BUFRD addr (47_buffer_ops.md R226). -/
  | bufrd (addr : Field16)
  deriving DecidableEq, Repr

end Sys2Proof
end

