-- ==== Sys2Proof/WellFormed.lean ====
section
/-! DEFINITION. Which instruction terms a legal command word can stand for. The operand widths are
in the types of Syntax.lean; what is left is the one reserved field value, KIND = 3. -/

namespace Sys2Proof

/-- A CONFIG with KIND = 3 is no legal command (30_encoding.md R92). -/
def Instr.wellFormed : Instr → Bool
  | .nop => true
  | .tapclr => true
  | .tapadd _ => true
  | .config _ kind => kind != 3#2
  | .scrb _ _ => true
  | .dscb _ _ => true
  | .scry _ _ => true
  | .dscy _ _ => true
  | .state _ => true
  | .scrr _ _ _ _ => true
  | .dscr _ _ _ _ => true
  | .bufwr _ _ => true
  | .bufrd _ => true

end Sys2Proof
end

