-- ==== Sys2Proof/Decode.lean ====
section
/-! DEFINITION. The decoder of 30_encoding.md R94, total on every 64-bit word and, through the
little-endian byte order of 20_memory.md R55, on every list of bytes; then the encoder, written
from the format table of R71. -/

namespace Sys2Proof

/-- Why a word is ILLEGAL (30_encoding.md R94), or a list of bytes holds no word. -/
inductive DecodeError where
  /-- Opcode 0xD, 0xE or 0xF (R90). -/
  | reservedOpcode
  /-- A 1 in a reserved-zero bit of the word's format (R91). -/
  | reservedBits
  /-- CONFIG with KIND = 3 (R92). -/
  | reservedKind
  /-- Fewer than the 8 bytes of a command word (R70, R95). -/
  | shortWord
  deriving DecidableEq, Repr

/-- OP = w[3:0] (R70). -/
def opField (w : CmdWord) : BitVec 4 := w.extractLsb' 0 4
/-- SLOT = w[7:4] (R73). -/
def slotField (w : CmdWord) : SlotField := w.extractLsb' 4 4
/-- KIND = w[9:8] (R74). -/
def kindField (w : CmdWord) : KindField := w.extractLsb' 8 2
/-- DBIT = w[8] (R75). -/
def dbitField (w : CmdWord) : Bool := w.getLsbD 8
/-- DATA = w[15:8] (R76). -/
def dataField (w : CmdWord) : Byte := w.extractLsb' 8 8
/-- TAP = w[31:16] (R77). -/
def tapField (w : CmdWord) : Field16 := w.extractLsb' 16 16
/-- LEN = w[31:16] (R78). -/
def lenField (w : CmdWord) : Field16 := w.extractLsb' 16 16
/-- SRC = w[47:32] (R78). -/
def srcField (w : CmdWord) : Field16 := w.extractLsb' 32 16
/-- DST = w[63:48] (R78). -/
def dstField (w : CmdWord) : Field16 := w.extractLsb' 48 16
/-- ADDR = w[47:32] (R79). -/
def addrField (w : CmdWord) : Field16 := w.extractLsb' 32 16

/-- The (match, mask) pair of each assigned opcode; none for 0xD to 0xF (R80, R90). -/
def opcodeRow (op : Nat) : Option (CmdWord × CmdWord) :=
  match op with
  | 0x0 => some (0x0000000000000000, 0xFFFFFFFFFFFFFFFF)
  | 0x1 => some (0x0000000000000001, 0xFFFFFFFFFFFFFFFF)
  | 0x2 => some (0x0000000000000002, 0xFFFFFFFF0000FFFF)
  | 0x3 => some (0x0000000000000003, 0xFFFFFFFFFFFFFC0F)
  | 0x4 => some (0x0000000000000004, 0xFFFFFFFFFFFFFE0F)
  | 0x5 => some (0x0000000000000005, 0xFFFFFFFFFFFFFE0F)
  | 0x6 => some (0x0000000000000006, 0xFFFFFFFFFFFF000F)
  | 0x7 => some (0x0000000000000007, 0xFFFFFFFFFFFF000F)
  | 0x8 => some (0x0000000000000008, 0xFFFFFFFFFFFFFF0F)
  | 0x9 => some (0x0000000000000009, 0x000000000000FF0F)
  | 0xA => some (0x000000000000000A, 0x000000000000FF0F)
  | 0xB => some (0x000000000000000B, 0xFFFF0000FFFF00FF)
  | 0xC => some (0x000000000000000C, 0xFFFF0000FFFFFFFF)
  | _ => none

/-- The instruction of an assigned opcode, with the fields of its own format (R71, R94). -/
def buildInstr (op : Nat) (w : CmdWord) : Instr :=
  match op with
  | 0x0 => .nop
  | 0x1 => .tapclr
  | 0x2 => .tapadd (tapField w)
  | 0x3 => .config (slotField w) (kindField w)
  | 0x4 => .scrb (slotField w) (dbitField w)
  | 0x5 => .dscb (slotField w) (dbitField w)
  | 0x6 => .scry (slotField w) (dataField w)
  | 0x7 => .dscy (slotField w) (dataField w)
  | 0x8 => .state (slotField w)
  | 0x9 => .scrr (slotField w) (srcField w) (dstField w) (lenField w)
  | 0xA => .dscr (slotField w) (srcField w) (dstField w) (lenField w)
  | 0xB => .bufwr (addrField w) (dataField w)
  | _ => .bufrd (addrField w)

/-- `decode(w)` of 30_encoding.md R94. -/
def decodeWord (w : CmdWord) : Except DecodeError Instr :=
  match opcodeRow (opField w).toNat with
  | none => .error .reservedOpcode
  | some (matchBits, maskBits) =>
    if w &&& maskBits ≠ matchBits then .error .reservedBits
    else if (opField w).toNat = 3 ∧ kindField w = 3#2 then .error .reservedKind
    else .ok (buildInstr (opField w).toNat w)

/-- Byte k of a word carried as bytes holds bits [8k+7:8k] (20_memory.md R55). -/
def wordBytes (w : CmdWord) : List Byte :=
  (List.range 8).map fun k => w.extractLsb' (8 * k) 8

/-- The value of a list of bytes, byte 0 least significant (20_memory.md R55). -/
def littleEndian : List Byte → Nat
  | [] => 0
  | b :: bs => b.toNat + 256 * littleEndian bs

/-- Decoding a command word carried as bytes: the instruction and the bytes after it. -/
def decodeBytes (bs : List Byte) : Except DecodeError (Instr × List Byte) :=
  if bs.length < 8 then .error .shortWord
  else match decodeWord (BitVec.ofNat 64 (littleEndian (bs.take 8))) with
    | .error err => .error err
    | .ok i => .ok (i, bs.drop 8)

/-- The 64-bit word whose low `nbits` bits are those of `w`, every other bit 0. -/
def tableWord (nbits w : Nat) : CmdWord := BitVec.ofNat 64 (w % 2 ^ nbits)

/-- The instruction that the decoder reads from an opcode-table word laid out as bytes. -/
def decodeTableWord (nbits w : Nat) : Option Instr :=
  match decodeBytes (wordBytes (tableWord nbits w)) with
  | .ok (i, _) => some i
  | .error _ => none

/-- The opcode number of an instruction (R80). -/
def opcode : Instr → BitVec 4
  | .nop => 0x0
  | .tapclr => 0x1
  | .tapadd _ => 0x2
  | .config _ _ => 0x3
  | .scrb _ _ => 0x4
  | .dscb _ _ => 0x5
  | .scry _ _ => 0x6
  | .dscy _ _ => 0x7
  | .state _ => 0x8
  | .scrr _ _ _ _ => 0x9
  | .dscr _ _ _ _ => 0xA
  | .bufwr _ _ => 0xB
  | .bufrd _ => 0xC

/-- A word from the columns of the format table, most significant column first:
w[63:48], w[47:32], w[31:16], w[15:8], w[7:4] and w[3:0] (R71). -/
def columns (hi mid lo : Field16) (data : Byte) (slot op : BitVec 4) : CmdWord :=
  hi ++ mid ++ lo ++ data ++ slot ++ op

/-- The command word of an instruction: its format's fields, every reserved-zero bit 0 (R71). -/
def encode (i : Instr) : CmdWord :=
  match i with
  | .nop => columns 0 0 0 0 0 (opcode i)
  | .tapclr => columns 0 0 0 0 0 (opcode i)
  | .tapadd tap => columns 0 0 tap 0 0 (opcode i)
  | .config slot kind => columns 0 0 0 (kind.setWidth 8) slot (opcode i)
  | .scrb slot dbit => columns 0 0 0 ((BitVec.ofBool dbit).setWidth 8) slot (opcode i)
  | .dscb slot dbit => columns 0 0 0 ((BitVec.ofBool dbit).setWidth 8) slot (opcode i)
  | .scry slot data => columns 0 0 0 data slot (opcode i)
  | .dscy slot data => columns 0 0 0 data slot (opcode i)
  | .state slot => columns 0 0 0 0 slot (opcode i)
  | .scrr slot src dst len => columns dst src len 0 slot (opcode i)
  | .dscr slot src dst len => columns dst src len 0 slot (opcode i)
  | .bufwr addr data => columns 0 addr 0 data 0 (opcode i)
  | .bufrd addr => columns 0 addr 0 0 0 (opcode i)

end Sys2Proof
end

