-- ==== Sys2Proof/Config.lean ====
section
/-! DEFINITION. The build parameters of 00_scope.md R6 with their legal ranges and defaults, and the
free values that the spec leaves open. -/

namespace Sys2Proof.Config

/-- The build parameters of 00_scope.md R6. -/
structure Params where
  /-- Largest tap position a slot can be configured with. -/
  dmax : Nat
  /-- Number of engine slots. -/
  nslot : Nat
  /-- Bytes in BUF. -/
  bufSize : Nat
  deriving DecidableEq, Repr

/-- The defaults of 00_scope.md R6: DMAX = 128, NSLOT = 4, BUF_SIZE = 65536. -/
def default : Params := { dmax := 128, nslot := 4, bufSize := 65536 }

/-- The legal ranges of 00_scope.md R6 (92_eei_decisions.md D34). -/
structure Params.Legal (p : Params) : Prop where
  dmax_pos : 1 ≤ p.dmax
  dmax_le : p.dmax ≤ 65535
  nslot_pos : 1 ≤ p.nslot
  nslot_le : p.nslot ≤ 16
  bufSize_pos : 1 ≤ p.bufSize
  bufSize_le : p.bufSize ≤ 65536

/-- RW, the width of RESULT: max(DMAX, 8) (00_scope.md R6). -/
def resultWidth (dmax : Nat) : Nat := max dmax 8

/-- BULK_STATE_MAX, fixed at 64: the largest degree for which STATE on a BULK slot succeeds
(00_scope.md R6). -/
def bulkStateMax : Nat := 64

/-- FREE VALUE. What the n-th read of a BUF byte not written since reset returns
(20_memory.md R53, 93_implementation_defined.md U1; notes/assumptions/6.md). -/
opaque freeByte : Nat → Byte

/-- FREE VALUE. What the n-th CONFIG leaves in an unused mask register of the slot it builds
(10_state.md R33, R34, 93_implementation_defined.md U3; notes/assumptions/7.md). The second
argument numbers the register: 0 is GMASK, 1 to 8 are SDEPS[0..7], 9 to 16 are DDEPS[0..7]. -/
opaque freeMask : Nat → Nat → Nat

end Sys2Proof.Config
end

