-- ==== Sys2Proof/Machine/Bits.lean ====
section
/-! DEFINITION. The operators of the spec on unbounded non-negative integers (00_scope.md R7 to R10):
masks, single bits, parity, XOR over a tap set, tap masks, and the packing of eight bits in a byte. -/

namespace Sys2Proof.Machine

/-- `mask(n) = 2^n - 1` (00_scope.md R8). -/
def mask (n : Nat) : Nat := 2 ^ n - 1

/-- `e(p) = 1 << p`, the value with only bit p set (00_scope.md R8). -/
def e (p : Nat) : Nat := 1 <<< p

/-- The positions of the set bits of `v`, ascending. -/
def setBits (v : Nat) : List Nat := (List.range (v.log2 + 1)).filter v.testBit

/-- `parity(v)`: the number of set bits of `v`, modulo 2 (00_scope.md R9). -/
def parity (v : Nat) : Bool := (setBits v).length % 2 == 1

/-- `XOR_{t in T} f(t)` on single bits; false when T is empty (00_scope.md R9). -/
def xorOver (T : List Nat) (f : Nat → Bool) : Bool := T.foldr (fun t acc => f t ^^ acc) false

/-- `tapmask(T) = XOR_{t in T} e(t - 1)` (00_scope.md R10). -/
def tapmask (T : List Nat) : Nat := T.foldr (fun t acc => e (t - 1) ^^^ acc) 0

/-- The tap set held by a TAPS register: t is in T exactly when bit t-1 is set (10_state.md R28).
The list is ascending (41_tap_config.md R109). -/
def tapSet (taps : Nat) : List Nat := (setBits taps).map (· + 1)

/-- The byte whose bit b is `f b`: `r <- r | (f(b) << b)` for b in 0 .. 7 (44_bulk.md R166). -/
def packByte (f : Nat → Bool) : Byte :=
  (List.range 8).foldl (fun r b => r ||| ((BitVec.ofBool (f b)).setWidth 8 <<< b)) 0#8

/-- Eight registers numbered 0 to 7. -/
def vec8 (f : Nat → Nat) : Vector Nat 8 := ⟨((List.range 8).map f).toArray, by simp⟩

/-- `n` bytes of a value, byte 0 least significant (20_memory.md R55). -/
def valueBytes (n v : Nat) : List Byte := (List.range n).map fun k => BitVec.ofNat 8 (v >>> (8 * k))

end Sys2Proof.Machine
end

