-- ==== Sys2Proof/Machine/State.lean ====
section
/-! DEFINITION. The state of the CORE (10_state.md), the port it shares with the host, and the state
after reset (R38). Registers whose width is a build parameter are natural numbers, as in
00_scope.md R7 and R8; `State.Inv` in Safety.lean gives their widths. -/

namespace Sys2Proof.Machine

/-- The engine kinds, `SLOT[s].KIND`; the value 3 is never stored (10_state.md R27). -/
inductive Kind where
  /-- 0: Fibonacci engine. -/
  | fib
  /-- 1: Galois engine. -/
  | gal
  /-- 2: Bulk engine. -/
  | bulk
  deriving DecidableEq, Repr

/-- The fields of one engine slot (10_state.md R26 to R34). -/
structure Slot where
  /-- VALID, 1 bit (R26). -/
  valid : Bool
  /-- KIND, 2 bits (R27). -/
  kind : Kind
  /-- TAPS, DMAX bits: bit t-1 set for each tap t (R28). -/
  taps : Nat
  /-- DEG, 16 bits: the degree d (R29). -/
  deg : Nat
  /-- REG, DMAX+8 bits: the engine register (R30). -/
  reg : Nat
  /-- GMASK, DMAX bits: the Galois tap mask (R33). -/
  gmask : Nat
  /-- SDEPS[0..7], DMAX+8 bits each: the scramble dependency masks (R34). -/
  sdeps : Vector Nat 8
  /-- DDEPS[0..7], DMAX+8 bits each: the descramble dependency masks (R34). -/
  ddeps : Vector Nat 8
  deriving DecidableEq, Repr

/-- A slot after reset: VALID = 0 (10_state.md R38). The other fields are unspecified and not
observable while VALID = 0; the values here are the model's. DESIGN CHOICE
(notes/assumptions/8.md). -/
def Slot.reset : Slot :=
  { valid := false, kind := .fib, taps := 0, deg := 0, reg := 0, gmask := 0,
    sdeps := Vector.replicate 8 0, ddeps := Vector.replicate 8 0 }

/-- The STATUS of a response (60_exceptions.md R261). -/
inductive Status where
  /-- The command completed. -/
  | ok
  /-- Reserved opcode, reserved-zero bit set, or CONFIG with KIND = 3 (R264). -/
  | eIllegal
  /-- SLOT ≥ NSLOT (R265). -/
  | eSlot
  /-- The named slot has VALID = 0 (R266). -/
  | eUnconf
  /-- CONFIG with no effective tap staged (R267). -/
  | eEmpty
  /-- TAPADD with a tap above DMAX (R268). -/
  | eRange
  /-- STATE on a BULK slot with d > 64 (R269). -/
  | eWide
  /-- A BUF range or address outside 0 .. BUF_SIZE-1 (R270). -/
  | eBounds
  deriving DecidableEq, Repr

/-- The response {STATUS, RESULT} (60_exceptions.md R260). -/
structure Response where
  status : Status
  /-- RESULT, RW bits. -/
  result : Nat
  deriving DecidableEq, Repr

/-- What reaches the CORE from outside (10_state.md R20, 70_reset_and_hazards.md R280, R282, R285). -/
inductive HostEvent where
  /-- The host presents a command word. -/
  | command (w : CmdWord)
  /-- The platform asserts reset between commands. -/
  | reset
  /-- The platform asserts reset while the command `w` is executing. -/
  | resetDuring (w : CmdWord)
  deriving DecidableEq, Repr

/-- BUF: the bytes written since reset, addresses strictly rising. An address that is not listed has
not been written (20_memory.md R53). -/
abbrev Memory := List Host.Cell

/-- The state of the machine: the CORE's own state (10_state.md R21), the build parameters it was
made with (notes/assumptions/1.md), and the command port (notes/assumptions/3.md and 4.md). -/
structure State where
  /-- Build parameter DMAX; no step writes it. -/
  dmax : Nat
  /-- Build parameter BUF_SIZE; no step writes it. -/
  bufSize : Nat
  /-- TAPSTAGE, DMAX+1 bits, bit 0 hardwired to 0 (R23). -/
  tapstage : Nat
  /-- SLOT[0 .. NSLOT-1]; NSLOT is the number of slots (R21). -/
  slots : List Slot
  /-- BUF (20_memory.md R50). -/
  buf : Memory
  /-- The model's own counter: how many free values have been drawn. -/
  draws : Nat
  /-- What the host and the platform have yet to present, in order. -/
  pending : List HostEvent
  /-- The response that the last step returned, if it returned one. -/
  response : Option Response
  deriving DecidableEq, Repr

/-- NSLOT (00_scope.md R6). -/
def State.nslot (s : State) : Nat := s.slots.length

/-- The build parameters of the machine in state `s` (00_scope.md R6). -/
def State.params (s : State) : Config.Params :=
  { dmax := s.dmax, nslot := s.nslot, bufSize := s.bufSize }

/-- The state after reset of a CORE built with the parameters `p` (10_state.md R38,
70_reset_and_hazards.md R281). -/
def State.resetWith (p : Config.Params) : State :=
  { dmax := p.dmax, bufSize := p.bufSize, tapstage := 0, slots := List.replicate p.nslot Slot.reset,
    buf := [], draws := 0, pending := [], response := none }

/-- The state after reset of a CORE built with the default parameters. -/
def State.reset : State := State.resetWith Config.default

/-- No behaviour of the CORE stops it from accepting commands (93_implementation_defined.md, "stuck":
not used), so there is no fault: every error is a STATUS in a response (60_exceptions.md R274). -/
inductive Fault where
  deriving DecidableEq, Repr

/-- Why the model gives no meaning. -/
inductive Refusal where
  /-- Raised by exec for an instruction that has no meaning yet. Safe: nothing can be proved of a
  refused step. Every instruction of this model has its meaning, so nothing raises it. -/
  | notModelled (mnemonic : String)
  deriving DecidableEq, Repr

/-- What one command or one step answers. -/
abbrev Answer := Host.Outcome State Fault Refusal

end Sys2Proof.Machine
end

