-- ==== Sys2Proof/Machine/Ops.lean ====
section
/-! DEFINITION. The named operations over BUF, the registers and the command port: reading and
writing a byte, reading and writing a slot and TAPSTAGE, responding, raising an error (the CORE's
one form of exception, 60_exceptions.md R262 and R274), and platform reset. -/

namespace Sys2Proof.Machine

/-! ### BUF -/

/-- What an address that is not listed reads as: no value. A read of it is a free draw
(20_memory.md R53). -/
def Memory.unlisted : Option Byte := none

/-- The byte last written at address `a`, or `Memory.unlisted`. -/
def Memory.read : Memory → Nat → Option Byte
  | [], _ => Memory.unlisted
  | (b, v) :: m, a => if a = b then some v else Memory.read m a

/-- Write byte `v` at address `a`, keeping the addresses strictly rising. -/
def Memory.write : Memory → Nat → Byte → Memory
  | [], a, v => [(a, v)]
  | (b, x) :: m, a, v =>
    if a < b then (a, v) :: (b, x) :: m
    else if a = b then (a, v) :: m
    else (b, x) :: Memory.write m a v

/-- The canonical form: addresses strictly rising, no entry equal to what an unlisted address reads
as. -/
abbrev Memory.wf (m : Memory) : Prop :=
  (m.map Prod.fst).Pairwise (· < ·) ∧ ∀ c ∈ m, some c.2 ≠ Memory.unlisted

/-- `MemRead(a, 1)`: the byte and the state after the read. A byte not written since reset is a
fresh free value (00_scope.md R11, 20_memory.md R53; notes/assumptions/6.md). -/
def State.memRead (s : State) (a : Nat) : Byte × State :=
  match s.buf.read a with
  | some v => (v, s)
  | none => (Config.freeByte s.draws, { s with draws := s.draws + 1 })

/-- `MemWrite(a, 1, v)` (00_scope.md R11, 20_memory.md R54). -/
def State.memWrite (s : State) (a : Nat) (v : Byte) : State := { s with buf := s.buf.write a v }

/-! ### Registers -/

/-- `SLOT[n]`. -/
def State.slot (s : State) (n : SlotField) : Slot := (s.slots[n.toNat]?).getD Slot.reset

/-- Replace every field of `SLOT[n]` (41_tap_config.md R107). -/
def State.setSlot (s : State) (n : SlotField) (sl : Slot) : State :=
  { s with slots := s.slots.set n.toNat sl }

/-- `SLOT[n].REG <- r`. -/
def State.setReg (s : State) (n : SlotField) (r : Nat) : State :=
  { s with slots := s.slots.modify n.toNat fun sl => { sl with reg := r } }

/-- `TAPSTAGE <- v`; bit 0 is hardwired to 0 (10_state.md R23). -/
def State.writeTapstage (s : State) (v : Nat) : State := { s with tapstage := (v >>> 1) <<< 1 }

/-! ### Responses and errors -/

/-- `respond(v)`: the command ends with STATUS = OK and RESULT = v (00_scope.md R11). -/
def respond (v : Nat) (s : State) : Answer :=
  .next { s with response := some { status := .ok, result := v } }

/-- `raise Error(code)`: the command ends with STATUS = code and RESULT = 0 and leaves no state
change. This is the CORE's only exception; no control is transferred and nothing is saved
(00_scope.md R11, 60_exceptions.md R262, R274). -/
def raiseError (code : Status) (s : State) : Answer :=
  .next { s with response := some { status := code, result := 0 } }

/-! ### The command port and reset -/

/-- The state once the first pending event has been presented. -/
def accept (rest : List HostEvent) (s : State) : State := { s with pending := rest }

/-- A word that does not decode raises E_ILLEGAL with no effect (30_encoding.md R94,
60_exceptions.md R264). -/
def takeIllegal (s : State) : Answer := raiseError .eIllegal s

/-- No event is presented: the CORE waits (70_reset_and_hazards.md R283) and returns no response
(notes/assumptions/5.md). -/
def idle (s : State) : State := { s with response := none }

/-- Reset: TAPSTAGE and every VALID cleared, everything else unspecified, no response
(70_reset_and_hazards.md R281, R282; notes/assumptions/8.md and 9.md). The build parameters, the
events still to come and the draw counter are not state of the CORE and stay. -/
def platformReset (s : State) : State :=
  { State.resetWith s.params with draws := s.draws, pending := s.pending }

end Sys2Proof.Machine
end

