-- ==== Sys2Proof/Machine/Operands.lean ====
section
/-! DEFINITION. The operand forms. Every operand is in the command word (30_encoding.md R72); here are
the checks and readings that several commands share: the slot check, the KIND field, and the bounds
of BUF addresses and ranges. -/

namespace Sys2Proof.Machine

/-- The engine kind a KIND field selects; none for the reserved value 3 (30_encoding.md R74, R92). -/
def Kind.ofField (k : KindField) : Option Kind :=
  match k.toNat with
  | 0 => some .fib
  | 1 => some .gal
  | 2 => some .bulk
  | _ => none

/-- `slotcheck` of 45_stream_ops.md R195: the named slot, or E_SLOT, or E_UNCONF. -/
def slotCheck (n : SlotField) (s : State) : Except Status Slot :=
  if n.toNat ≥ s.nslot then .error .eSlot
  else if (s.slot n).valid = false then .error .eUnconf
  else .ok (s.slot n)

/-- An address is addressable exactly when it is below BUF_SIZE (20_memory.md R52). -/
def addressable (s : State) (a : Field16) : Bool := a.toNat < s.bufSize

/-- The `len` bytes from `a` on lie inside BUF, computed without wrap-around (46_range_ops.md R211). -/
def rangeInside (s : State) (a len : Field16) : Bool := a.toNat + len.toNat ≤ s.bufSize

end Sys2Proof.Machine
end

