-- ==== Sys2Proof/Machine/BufferOps.lean ====
section
/-! DEFINITION. BUFWR, BUFRD and NOP (47_buffer_ops.md). -/

namespace Sys2Proof.Machine

/-- NOP (47_buffer_ops.md R227). -/
def execNop (s : State) : Answer := respond 0 s

/-- BUFWR (47_buffer_ops.md R225). -/
def execBufwr (addr : Field16) (v : Byte) (s : State) : Answer :=
  if addressable s addr then respond 0 (s.memWrite addr.toNat v) else raiseError .eBounds s

/-- BUFRD (47_buffer_ops.md R226). -/
def execBufrd (addr : Field16) (s : State) : Answer :=
  if addressable s addr then
    let read := s.memRead addr.toNat
    respond read.1.toNat read.2
  else raiseError .eBounds s

end Sys2Proof.Machine
end

