-- ==== Sys2Proof/Machine/Bulk.lean ====
section
/-! DEFINITION. The Bulk engine (44_bulk.md): its dependency matrices and its operations as pure
functions of the extended buffer. -/

namespace Sys2Proof.Machine

/-! ### Dependency matrices -/

/-- The scramble mask of pending bit `i`, from the masks of the pending bits before it
(44_bulk.md R161). -/
def sdepMask (T : List Nat) (d i : Nat) (earlier : List Nat) : Nat :=
  let m := T.foldl
    (fun m t =>
      let p := d + i - t
      if p ≥ d then m ^^^ earlier.getD (p - d) 0 else m ^^^ e p)
    0
  m ^^^ e (d + i)

/-- The eight scramble masks, built strictly from b = 0 to b = 7 (44_bulk.md R161, R165). -/
def sdepsList (T : List Nat) (d : Nat) : List Nat :=
  (List.range 8).foldl (fun earlier i => earlier ++ [sdepMask T d i earlier]) []

/-- `sdeps(T, d, b)` for b = 0 .. 7 (44_bulk.md R161). -/
def sdeps (T : List Nat) (d : Nat) : Vector Nat 8 :=
  let masks := sdepsList T d
  vec8 fun b => masks.getD b 0

/-- `ddeps(T, d, i)` (44_bulk.md R163). -/
def ddepMask (T : List Nat) (d i : Nat) : Nat := T.foldl (fun m t => m ^^^ e (d + i - t)) (e (d + i))

/-- `ddeps(T, d, b)` for b = 0 .. 7 (44_bulk.md R163). -/
def ddeps (T : List Nat) (d : Nat) : Vector Nat 8 := vec8 (ddepMask T d)

/-! ### Byte operations -/

/-- Steps 1 and 2 of a byte operation: discard the 8 oldest bits, place the input byte in positions
[d, d+8) (44_bulk.md R166). -/
def Bulk.load (d buf : Nat) (v : Byte) : Nat := (buf >>> 8) ||| (v.toNat <<< d)

/-- The 8 parity lanes over one buffer, lane b at result bit b (44_bulk.md R172). -/
def Bulk.lanes (M : Vector Nat 8) (buf : Nat) : Byte := packByte fun b => parity (buf &&& M.getD b 0)

/-- BULK.sbyte: the result byte is committed over the input byte (44_bulk.md R166). -/
def Bulk.sbyte (SD : Vector Nat 8) (d buf : Nat) (v : Byte) : Nat × Byte :=
  let loaded := Bulk.load d buf v
  let r := Bulk.lanes SD loaded
  ((loaded &&& mask d) ||| (r.toNat <<< d), r)

/-- BULK.dbyte: the received byte stays in the buffer (44_bulk.md R167). -/
def Bulk.dbyte (DD : Vector Nat 8) (d buf : Nat) (v : Byte) : Nat × Byte :=
  let loaded := Bulk.load d buf v
  (loaded, Bulk.lanes DD loaded)

/-! ### Bit operations and the state accessor -/

/-- The XOR of the bits t steps back from the newest, position d+7 (44_bulk.md R169). -/
def Bulk.feedback (T : List Nat) (d buf : Nat) : Bool := xorOver T fun t => buf.testBit (d + 8 - t)

/-- Shift toward position 0 and insert `x` at position d+7 (44_bulk.md R169, R170). -/
def Bulk.shiftIn (d buf : Nat) (x : Bool) : Nat := (buf >>> 1) ||| (x.toNat <<< (d + 7))

/-- BULK.sbit (44_bulk.md R169). -/
def Bulk.sbit (T : List Nat) (d buf : Nat) (x : Bool) : Nat × Bool :=
  let y := x ^^ Bulk.feedback T d buf
  (Bulk.shiftIn d buf y, y)

/-- BULK.dbit (44_bulk.md R170). -/
def Bulk.dbit (T : List Nat) (d buf : Nat) (x : Bool) : Nat × Bool :=
  let o := x ^^ Bulk.feedback T d buf
  (Bulk.shiftIn d buf x, o)

/-- BULK.state: `buf[d-1:0]` (44_bulk.md R171). -/
def Bulk.state (d buf : Nat) : Nat := buf &&& mask d

end Sys2Proof.Machine
end

