-- ==== Sys2Proof/Machine/Fibonacci.lean ====
section
/-! DEFINITION. The Fibonacci engine (42_fibonacci.md) as pure functions of the register, and the
byte operation that the two bit-serial engines share (R125, 43_galois.md R145). -/

namespace Sys2Proof.Machine

/-- The eight bits of `v` through a bit operation, bit 0 first, output bit b at position b
(42_fibonacci.md R125, R126, 43_galois.md R145, R146). -/
def serialByte (op : Nat → Bool → Nat × Bool) (reg : Nat) (v : Byte) : Nat × Byte :=
  (List.range 8).foldl
    (fun acc b =>
      let step := op acc.1 (v.getLsbD b)
      (step.1, acc.2 ||| ((BitVec.ofBool step.2).setWidth 8 <<< b)))
    (reg, 0#8)

/-- The XOR of the register bits at the tap positions: tap t reads bit t-1 (42_fibonacci.md R121). -/
def Fib.feedback (T : List Nat) (reg : Nat) : Bool := xorOver T fun t => reg.testBit (t - 1)

/-- Shift toward bit d-1 and insert `x` at bit 0 (42_fibonacci.md R120). -/
def Fib.shiftIn (d reg : Nat) (x : Bool) : Nat := ((reg <<< 1) ||| x.toNat) &&& mask d

/-- FIB.sbit (42_fibonacci.md R122). -/
def Fib.sbit (T : List Nat) (d reg : Nat) (x : Bool) : Nat × Bool :=
  let fb := x ^^ Fib.feedback T reg
  (Fib.shiftIn d reg fb, fb)

/-- FIB.dbit (42_fibonacci.md R124). -/
def Fib.dbit (T : List Nat) (d reg : Nat) (x : Bool) : Nat × Bool :=
  let orig := x ^^ Fib.feedback T reg
  (Fib.shiftIn d reg x, orig)

/-- FIB.sbyte (42_fibonacci.md R125). -/
def Fib.sbyte (T : List Nat) (d reg : Nat) (v : Byte) : Nat × Byte := serialByte (Fib.sbit T d) reg v

/-- FIB.dbyte (42_fibonacci.md R126). -/
def Fib.dbyte (T : List Nat) (d reg : Nat) (v : Byte) : Nat × Byte := serialByte (Fib.dbit T d) reg v

/-- FIB.state: `reg[d-1:0]` (42_fibonacci.md R127). -/
def Fib.state (d reg : Nat) : Nat := reg &&& mask d

end Sys2Proof.Machine
end

