-- ==== Sys2Proof/Machine/Galois.lean ====
section
/-! DEFINITION. The Galois engine (43_galois.md) as pure functions of the register and the tap mask. -/

namespace Sys2Proof.Machine

/-- Shift toward bit 0, XOR the tap mask when `f` is set, and set the top bit to `f`
(43_galois.md R142, R144). -/
def Gal.advance (M d reg : Nat) (f : Bool) : Nat :=
  let shifted := reg >>> 1
  let mixed := if f then shifted ^^^ M else shifted
  (mixed &&& mask (d - 1)) ||| (f.toNat <<< (d - 1))

/-- GAL.sbit (43_galois.md R142). -/
def Gal.sbit (M d reg : Nat) (x : Bool) : Nat × Bool :=
  let out := reg.testBit 0 ^^ x
  (Gal.advance M d reg out, out)

/-- GAL.dbit (43_galois.md R144). -/
def Gal.dbit (M d reg : Nat) (x : Bool) : Nat × Bool :=
  let out := reg.testBit 0 ^^ x
  (Gal.advance M d reg x, out)

/-- GAL.sbyte (43_galois.md R145). -/
def Gal.sbyte (M d reg : Nat) (v : Byte) : Nat × Byte := serialByte (Gal.sbit M d) reg v

/-- GAL.dbyte (43_galois.md R146). -/
def Gal.dbyte (M d reg : Nat) (v : Byte) : Nat × Byte := serialByte (Gal.dbit M d) reg v

/-- GAL.state: `reg[d-1:0]` (43_galois.md R147). -/
def Gal.state (d reg : Nat) : Nat := reg &&& mask d

end Sys2Proof.Machine
end

