-- ==== Sys2Proof/Machine/Engine.lean ====
section
/-! DEFINITION. The engine functions E.sbit, E.dbit, E.sbyte, E.dbyte and E.state of the engine a slot
holds (00_scope.md R13, 45_stream_ops.md R195): each reads the slot's configuration and register and
gives the new register and the output. -/

namespace Sys2Proof.Machine

/-- The tap set T of a slot (10_state.md R28). -/
def Slot.tapList (sl : Slot) : List Nat := tapSet sl.taps

/-- W(s), the used width of REG (10_state.md R30). -/
def Slot.width (sl : Slot) : Nat :=
  match sl.kind with
  | .fib => sl.deg
  | .gal => sl.deg
  | .bulk => sl.deg + 8

/-- E.sbit (45_stream_ops.md R190). -/
def Slot.sbit (sl : Slot) (x : Bool) : Nat × Bool :=
  match sl.kind with
  | .fib => Fib.sbit sl.tapList sl.deg sl.reg x
  | .gal => Gal.sbit sl.gmask sl.deg sl.reg x
  | .bulk => Bulk.sbit sl.tapList sl.deg sl.reg x

/-- E.dbit (45_stream_ops.md R191). -/
def Slot.dbit (sl : Slot) (x : Bool) : Nat × Bool :=
  match sl.kind with
  | .fib => Fib.dbit sl.tapList sl.deg sl.reg x
  | .gal => Gal.dbit sl.gmask sl.deg sl.reg x
  | .bulk => Bulk.dbit sl.tapList sl.deg sl.reg x

/-- E.sbyte (45_stream_ops.md R192). -/
def Slot.sbyte (sl : Slot) (v : Byte) : Nat × Byte :=
  match sl.kind with
  | .fib => Fib.sbyte sl.tapList sl.deg sl.reg v
  | .gal => Gal.sbyte sl.gmask sl.deg sl.reg v
  | .bulk => Bulk.sbyte sl.sdeps sl.deg sl.reg v

/-- E.dbyte (45_stream_ops.md R193). -/
def Slot.dbyte (sl : Slot) (v : Byte) : Nat × Byte :=
  match sl.kind with
  | .fib => Fib.dbyte sl.tapList sl.deg sl.reg v
  | .gal => Gal.dbyte sl.gmask sl.deg sl.reg v
  | .bulk => Bulk.dbyte sl.ddeps sl.deg sl.reg v

/-- E.state (45_stream_ops.md R194). -/
def Slot.stateValue (sl : Slot) : Nat :=
  match sl.kind with
  | .fib => Fib.state sl.deg sl.reg
  | .gal => Gal.state sl.deg sl.reg
  | .bulk => Bulk.state sl.deg sl.reg

end Sys2Proof.Machine
end

