-- ==== Sys2Proof/Machine/RangeOps.lean ====
section
/-! DEFINITION. SCRR and DSCR (46_range_ops.md): an engine's byte operation over a range of BUF, one
byte at a time, ascending. -/

namespace Sys2Proof.Machine

/-- One byte of a range: read the source byte, step the engine, write the destination byte
(46_range_ops.md R212). -/
def rangeByte (op : Slot → Byte → Nat × Byte) (slot : SlotField) (src dst : Nat) (s : State) : State :=
  let read := s.memRead src
  let out := op (read.2.slot slot) read.1
  (read.2.setReg slot out.1).memWrite dst out.2

/-- `len` bytes in ascending order (46_range_ops.md R212). -/
def rangeLoop (op : Slot → Byte → Nat × Byte) (slot : SlotField) : Nat → Nat → Nat → State → State
  | 0, _, _, s => s
  | len + 1, src, dst, s => rangeLoop op slot len (src + 1) (dst + 1) (rangeByte op slot src dst s)

/-- A range command: slot check, bounds check, then the bytes (46_range_ops.md R210, R211, R213). -/
def rangeCommand (op : Slot → Byte → Nat × Byte) (slot : SlotField) (src dst len : Field16) (s : State) :
    Answer :=
  match slotCheck slot s with
  | .error code => raiseError code s
  | .ok _ =>
    if rangeInside s src len && rangeInside s dst len then
      respond 0 (rangeLoop op slot len.toNat src.toNat dst.toNat s)
    else raiseError .eBounds s

/-- SCRR (46_range_ops.md R210). -/
def execScrr (slot : SlotField) (src dst len : Field16) (s : State) : Answer :=
  rangeCommand Slot.sbyte slot src dst len s

/-- DSCR (46_range_ops.md R213). -/
def execDscr (slot : SlotField) (src dst len : Field16) (s : State) : Answer :=
  rangeCommand Slot.dbyte slot src dst len s

end Sys2Proof.Machine
end

