-- ==== Sys2Proof/Machine/StreamOps.lean ====
section
/-! DEFINITION. SCRB, DSCB, SCRY, DSCY and STATE (45_stream_ops.md): each applies one engine function
to the register of the slot it names. -/

namespace Sys2Proof.Machine

/-- A bit command: slot check, engine step, new REG, RESULT the output bit (45_stream_ops.md R190,
R191). -/
def bitCommand (op : Slot → Bool → Nat × Bool) (slot : SlotField) (x : Bool) (s : State) : Answer :=
  match slotCheck slot s with
  | .error code => raiseError code s
  | .ok sl => respond (op sl x).2.toNat (s.setReg slot (op sl x).1)

/-- A byte command: slot check, engine step, new REG, RESULT the output byte (45_stream_ops.md R192,
R193). -/
def byteCommand (op : Slot → Byte → Nat × Byte) (slot : SlotField) (v : Byte) (s : State) : Answer :=
  match slotCheck slot s with
  | .error code => raiseError code s
  | .ok sl => respond (op sl v).2.toNat (s.setReg slot (op sl v).1)

/-- SCRB (45_stream_ops.md R190). -/
def execScrb (slot : SlotField) (x : Bool) (s : State) : Answer := bitCommand Slot.sbit slot x s

/-- DSCB (45_stream_ops.md R191). -/
def execDscb (slot : SlotField) (x : Bool) (s : State) : Answer := bitCommand Slot.dbit slot x s

/-- SCRY (45_stream_ops.md R192). -/
def execScry (slot : SlotField) (v : Byte) (s : State) : Answer := byteCommand Slot.sbyte slot v s

/-- DSCY (45_stream_ops.md R193). -/
def execDscy (slot : SlotField) (v : Byte) (s : State) : Answer := byteCommand Slot.dbyte slot v s

/-- STATE: E_WIDE on a BULK slot with d > 64, else the low d bits of REG (45_stream_ops.md R194). -/
def execState (slot : SlotField) (s : State) : Answer :=
  match slotCheck slot s with
  | .error code => raiseError code s
  | .ok sl =>
    if sl.kind = .bulk ∧ sl.deg > Config.bulkStateMax then raiseError .eWide s
    else respond sl.stateValue s

end Sys2Proof.Machine
end

