-- ==== Sys2Proof/Machine/TapConfig.lean ====
section
/-! DEFINITION. TAPCLR, TAPADD and CONFIG with the validator and engine construction they share
(41_tap_config.md). -/

namespace Sys2Proof.Machine

/-- The staged tap set: `{ t : 1 <= t <= DMAX and stage[t] = 1 }`, ascending (41_tap_config.md R103). -/
def stagedTaps (dmax stage : Nat) : List Nat := (List.range' 1 dmax).filter stage.testBit

/-- `validate(stage)`: the tap set and its degree max(T), or none for EMPTY (41_tap_config.md R103). -/
def validate (dmax stage : Nat) : Option (List Nat × Nat) :=
  let T := stagedTaps dmax stage
  if T.isEmpty then none else some (T, T.foldl max 0)

/-- An unspecified value of a `width`-bit register: a free value cut to the width
(notes/assumptions/7.md). -/
def freeRegister (draw index width : Nat) : Nat := Config.freeMask draw index &&& mask width

/-- The engine instance CONFIG builds: REG all ones over its used width, the derived masks computed
once, the masks its kind does not use unspecified (41_tap_config.md R104, R105, R107; 10_state.md
R31, R33, R34). -/
def construct (kind : Kind) (T : List Nat) (d dmax draw : Nat) : Slot :=
  { valid := true
    kind := kind
    taps := tapmask T
    deg := d
    reg := match kind with
      | .fib => mask d
      | .gal => mask d
      | .bulk => mask (d + 8)
    gmask := match kind with
      | .fib => freeRegister draw 0 dmax
      | .gal => tapmask T
      | .bulk => freeRegister draw 0 dmax
    sdeps := match kind with
      | .fib => vec8 fun b => freeRegister draw (1 + b) (dmax + 8)
      | .gal => vec8 fun b => freeRegister draw (1 + b) (dmax + 8)
      | .bulk => sdeps T d
    ddeps := match kind with
      | .fib => vec8 fun b => freeRegister draw (9 + b) (dmax + 8)
      | .gal => vec8 fun b => freeRegister draw (9 + b) (dmax + 8)
      | .bulk => ddeps T d }

/-- Put a newly built engine in slot `n`; its unspecified masks used one draw (41_tap_config.md R107). -/
def State.install (s : State) (n : SlotField) (kind : Kind) (T : List Nat) (d : Nat) : State :=
  { s.setSlot n (construct kind T d s.dmax s.draws) with draws := s.draws + 1 }

/-- Stage tap `t`; the input marker 0 stores nothing (41_tap_config.md R101, R102). -/
def State.stageTap (s : State) (t : Nat) : State :=
  if t ≠ 0 then s.writeTapstage (s.tapstage ||| e t) else s

/-- TAPCLR (41_tap_config.md R100). -/
def execTapclr (s : State) : Answer := respond 0 (s.writeTapstage 0)

/-- TAPADD (41_tap_config.md R101). -/
def execTapadd (tap : Field16) (s : State) : Answer :=
  if tap.toNat > s.dmax then raiseError .eRange s else respond 0 (s.stageTap tap.toNat)

/-- CONFIG (41_tap_config.md R104). -/
def execConfig (slot : SlotField) (kind : KindField) (s : State) : Answer :=
  match Kind.ofField kind with
  | none => raiseError .eIllegal s
  | some k =>
    if slot.toNat ≥ s.nslot then raiseError .eSlot s
    else match validate s.dmax s.tapstage with
      | none => raiseError .eEmpty s
      | some (T, d) => respond d (s.install slot k T d)

end Sys2Proof.Machine
end

