-- ==== Sys2Proof/Machine/Dispatch.lean ====
section
/-! DEFINITION. Which meaning each command has. -/

namespace Sys2Proof.Machine

def exec (i : Instr) (s : State) : Host.Outcome State Fault Refusal :=
  match i with
  | .nop => Sys2Proof.Machine.execNop s
  | .tapclr => Sys2Proof.Machine.execTapclr s
  | .tapadd tap => Sys2Proof.Machine.execTapadd tap s
  | .config slot kind => Sys2Proof.Machine.execConfig slot kind s
  | .scrb slot dbit => Sys2Proof.Machine.execScrb slot dbit s
  | .dscb slot dbit => Sys2Proof.Machine.execDscb slot dbit s
  | .scry slot data => Sys2Proof.Machine.execScry slot data s
  | .dscy slot data => Sys2Proof.Machine.execDscy slot data s
  | .state slot => Sys2Proof.Machine.execState slot s
  | .scrr slot src dst len => Sys2Proof.Machine.execScrr slot src dst len s
  | .dscr slot src dst len => Sys2Proof.Machine.execDscr slot src dst len s
  | .bufwr addr data => Sys2Proof.Machine.execBufwr addr data s
  | .bufrd addr => Sys2Proof.Machine.execBufrd addr s

end Sys2Proof.Machine
end

