-- ==== Sys2Proof/Machine/Step.lean ====
section
/-! DEFINITION. One step: the CORE takes the next event from the port (10_state.md R20,
70_reset_and_hazards.md R285, R291). -/

namespace Sys2Proof.Machine

/-- One command, one reset, or one wait. -/
def step (s : State) : Host.Outcome State Fault Refusal :=
  match s.pending with
  | [] => .next (idle s)
  | .command w :: rest =>
    match decodeWord w with
    | .ok i => exec i (accept rest s)
    | .error _ => takeIllegal (accept rest s)
  | .reset :: rest => .next (platformReset (accept rest s))
  | .resetDuring _ :: rest => .next (platformReset (accept rest s))

/-- `s` with the command word of the low `nbits` bits of `w` presented next
(notes/assumptions/10.md). -/
def State.withFetchWord (s : State) (nbits w : Nat) : State :=
  { s with pending := .command (tableWord nbits w) :: s.pending }

end Sys2Proof.Machine
end

