-- ==== Sys2Proof/Machine/Assembler.lean ====
section
/-! DEFINITION. The assembler of 30_encoding.md R97 and R98: one line of text to the instructions it
stands for, with the pseudo-instructions TAPSET and BUFSTR. What the rules leave open of the text
format is in notes/assumptions/14.md. -/

namespace Sys2Proof.Machine

/-! ### Text -/

/-- A space, a tab or a carriage return. -/
def isBlank (c : Char) : Bool := c == ' ' || c == '\t' || c == '\r'

/-- A text without the blanks at its two ends. -/
def trim (cs : List Char) : List Char := ((cs.dropWhile isBlank).reverse.dropWhile isBlank).reverse

/-- `;` starts a comment (R97). -/
def stripComment (cs : List Char) : List Char := cs.takeWhile (· != ';')

/-- The pieces of a text between its commas. -/
def splitCommas : List Char → List (List Char)
  | [] => [[]]
  | c :: cs =>
    if c = ',' then [] :: splitCommas cs
    else match splitCommas cs with
      | [] => [[c]]
      | w :: ws => (c :: w) :: ws

/-- The operands of a line, after its mnemonic. -/
def operandTexts (cs : List Char) : List (List Char) :=
  if (trim cs).isEmpty then [] else (splitCommas cs).map trim

/-! ### Numbers and fields -/

/-- The value of a digit in base 10 or 16. -/
def digitValue (base : Nat) (c : Char) : Option Nat :=
  let v := if '0' ≤ c ∧ c ≤ '9' then c.toNat - 48
    else if 'a' ≤ c ∧ c ≤ 'f' then c.toNat - 87
    else if 'A' ≤ c ∧ c ≤ 'F' then c.toNat - 55
    else base
  if v < base then some v else none

/-- The number that digits stand for, most significant first. -/
def digitsValue (base : Nat) : Nat → List Char → Option Nat
  | acc, [] => some acc
  | acc, c :: cs => (digitValue base c).bind fun v => digitsValue base (acc * base + v) cs

/-- A decimal or `0x` hexadecimal number (R97). -/
def number : List Char → Option Nat
  | '0' :: 'x' :: c :: cs => digitsValue 16 0 (c :: cs)
  | c :: cs => digitsValue 10 0 (c :: cs)
  | [] => none

/-- A number that fits its field; an assembler rejects one that does not (R97). -/
def fits (width n : Nat) : Option (BitVec width) :=
  if n < 2 ^ width then some (BitVec.ofNat width n) else none

/-- A numeric operand of a field. -/
def fieldOperand (width : Nat) (cs : List Char) : Option (BitVec width) := (number cs).bind (fits width)

/-- A KIND name: FIB, GAL or BULK and no other (R97). -/
def kindOperand (cs : List Char) : Option KindField :=
  if cs = "FIB".toList then some 0#2
  else if cs = "GAL".toList then some 1#2
  else if cs = "BULK".toList then some 2#2
  else none

/-! ### Commands -/

/-- A command without operands. -/
def asmN (i : Instr) : List (List Char) → Option (List Instr)
  | [] => some [i]
  | _ => none

/-- A command with a bit operand. -/
def asmB (mk : SlotField → Bool → Instr) : List (List Char) → Option (List Instr)
  | [slot, bit] =>
    (fieldOperand 4 slot).bind fun s => (fieldOperand 1 bit).map fun b => [mk s (b.getLsbD 0)]
  | _ => none

/-- A command with a byte operand. -/
def asmY (mk : SlotField → Byte → Instr) : List (List Char) → Option (List Instr)
  | [slot, byte] => (fieldOperand 4 slot).bind fun s => (fieldOperand 8 byte).map fun b => [mk s b]
  | _ => none

/-- A range command: slot, src, dst, len. -/
def asmR (mk : SlotField → Field16 → Field16 → Field16 → Instr) :
    List (List Char) → Option (List Instr)
  | [slot, src, dst, len] =>
    (fieldOperand 4 slot).bind fun s => (fieldOperand 16 src).bind fun a =>
      (fieldOperand 16 dst).bind fun b => (fieldOperand 16 len).map fun n => [mk s a b n]
  | _ => none

/-- TAPADD. -/
def asmTapadd : List (List Char) → Option (List Instr)
  | [tap] => (fieldOperand 16 tap).map fun t => [.tapadd t]
  | _ => none

/-- CONFIG. -/
def asmConfig : List (List Char) → Option (List Instr)
  | [slot, kind] => (fieldOperand 4 slot).bind fun s => (kindOperand kind).map fun k => [.config s k]
  | _ => none

/-- STATE. -/
def asmState : List (List Char) → Option (List Instr)
  | [slot] => (fieldOperand 4 slot).map fun s => [.state s]
  | _ => none

/-- BUFWR. -/
def asmBufwr : List (List Char) → Option (List Instr)
  | [addr, byte] => (fieldOperand 16 addr).bind fun a => (fieldOperand 8 byte).map fun v => [.bufwr a v]
  | _ => none

/-- BUFRD. -/
def asmBufrd : List (List Char) → Option (List Instr)
  | [addr] => (fieldOperand 16 addr).map fun a => [.bufrd a]
  | _ => none

/-- `TAPADD t1`, ..., `TAPADD tk`. -/
def asmTaps : List (List Char) → Option (List Instr)
  | [] => some []
  | tap :: taps => (fieldOperand 16 tap).bind fun t => (asmTaps taps).map fun is => .tapadd t :: is

/-- `TAPSET t1, ..., tk`: TAPCLR, then the TAPADDs in order (R98). -/
def asmTapset : List (List Char) → Option (List Instr)
  | [] => none
  | tap :: taps => (asmTaps (tap :: taps)).map fun is => .tapclr :: is

/-- `BUFWR addr, b0`, `BUFWR addr+1, b1`, ... -/
def asmBytes (addr : Nat) : List (List Char) → Option (List Instr)
  | [] => some []
  | byte :: bytes =>
    (fits 16 addr).bind fun a => (fieldOperand 8 byte).bind fun v =>
      (asmBytes (addr + 1) bytes).map fun is => .bufwr a v :: is

/-- `BUFSTR addr, b0, ..., bn` (R98). -/
def asmBufstr : List (List Char) → Option (List Instr)
  | addr :: byte :: bytes => (number addr).bind fun a => asmBytes a (byte :: bytes)
  | _ => none

/-- The mnemonics of R97 and the pseudo-instructions of R98, with the form each takes. -/
def mnemonicForms : List (List Char × (List (List Char) → Option (List Instr))) :=
  [("NOP".toList, asmN .nop), ("TAPCLR".toList, asmN .tapclr), ("TAPADD".toList, asmTapadd),
    ("CONFIG".toList, asmConfig), ("SCRB".toList, asmB .scrb), ("DSCB".toList, asmB .dscb),
    ("SCRY".toList, asmY .scry), ("DSCY".toList, asmY .dscy), ("STATE".toList, asmState),
    ("SCRR".toList, asmR .scrr), ("DSCR".toList, asmR .dscr), ("BUFWR".toList, asmBufwr),
    ("BUFRD".toList, asmBufrd), ("TAPSET".toList, asmTapset), ("BUFSTR".toList, asmBufstr)]

/-- The instructions of a mnemonic with its operands (R97, R98). -/
def asmCommand (mnemonic : List Char) (ops : List (List Char)) : Option (List Instr) :=
  (mnemonicForms.lookup mnemonic).bind fun form => form ops

/-- The instructions of one line: none where the assembler rejects it, no instruction for a line that
holds only blanks or a comment. -/
def asmLine (line : List Char) : Option (List Instr) :=
  let body := trim (stripComment line)
  if body.isEmpty then some []
  else asmCommand (body.takeWhile (!isBlank ·)) (operandTexts (body.dropWhile (!isBlank ·)))

/-- The command words of one line (R97). -/
def assemble (line : List Char) : Option (List CmdWord) := (asmLine line).map fun is => is.map encode

/-- The command words of a program, line by line; none where a line is rejected. -/
def assembleAll : List (List Char) → Option (List CmdWord)
  | [] => some []
  | line :: lines => (assemble line).bind fun ws => (assembleAll lines).map fun rest => ws ++ rest

end Sys2Proof.Machine
end

