-- ==== Sys2Proof/Machine/Flags.lean ====
section
/-! DEFINITION. The CORE has no flags, condition codes or predicates (10_state.md R25). The only
status a command produces is the STATUS of its response: here are its codes and which command may
raise which (60_exceptions.md R261, R272). -/

namespace Sys2Proof.Machine

/-- The 4-bit STATUS codes (60_exceptions.md R261). -/
def Status.code : Status → BitVec 4
  | .ok => 0
  | .eIllegal => 1
  | .eSlot => 2
  | .eUnconf => 3
  | .eEmpty => 4
  | .eRange => 5
  | .eWide => 6
  | .eBounds => 7

/-- The error codes a legal word of each command may raise, in the order of their priority, and
E_ILLEGAL first where the command's own rule names it (60_exceptions.md R263, R272). -/
def mayRaise : Instr → List Status
  | .nop => []
  | .tapclr => []
  | .tapadd _ => [.eRange]
  | .config _ _ => [.eIllegal, .eSlot, .eEmpty]
  | .scrb _ _ => [.eSlot, .eUnconf]
  | .dscb _ _ => [.eSlot, .eUnconf]
  | .scry _ _ => [.eSlot, .eUnconf]
  | .dscy _ _ => [.eSlot, .eUnconf]
  | .state _ => [.eSlot, .eUnconf, .eWide]
  | .scrr _ _ _ _ => [.eSlot, .eUnconf, .eBounds]
  | .dscr _ _ _ _ => [.eSlot, .eUnconf, .eBounds]
  | .bufwr _ _ => [.eBounds]
  | .bufrd _ => [.eBounds]

/-- RESULT carried as bytes: as many as hold RW bits, byte 0 least significant (20_memory.md R55). -/
def Response.resultBytes (r : Response) (dmax : Nat) : List Byte :=
  valueBytes ((Config.resultWidth dmax + 7) / 8) r.result

end Sys2Proof.Machine
end

