-- ==== Sys2Proof/Safety.lean ====
section
/-! DEFINITION. The terms that claims are stated in: the invariant of the machine, safe runs, what the
host can observe, and streams of scramble and descramble operations on slots (48_laws.md). -/

namespace Sys2Proof.Machine

/-! ### The invariant -/

/-- Every field of a slot fits its width (10_state.md R22). -/
structure Slot.Widths (dmax : Nat) (sl : Slot) : Prop where
  taps_lt : sl.taps < 2 ^ dmax
  deg_lt : sl.deg < 2 ^ 16
  reg_lt : sl.reg < 2 ^ (dmax + 8)
  gmask_lt : sl.gmask < 2 ^ dmax
  sdeps_lt : ∀ b < 8, sl.sdeps.getD b 0 < 2 ^ (dmax + 8)
  ddeps_lt : ∀ b < 8, sl.ddeps.getD b 0 < 2 ^ (dmax + 8)

/-- A configured slot holds a constructed engine: its degree is the highest tap and within DMAX, REG
is within its used width, and the derived configuration is what its taps give (10_state.md R28 to
R34, 41_tap_config.md R105). -/
structure Slot.Engine (dmax : Nat) (sl : Slot) : Prop where
  deg_pos : 1 ≤ sl.deg
  deg_le : sl.deg ≤ dmax
  top_tap : sl.taps.testBit (sl.deg - 1) = true
  taps_lt : sl.taps < 2 ^ sl.deg
  reg_lt : sl.reg < 2 ^ sl.width
  gmask_eq : sl.kind = .gal → sl.gmask = sl.taps
  sdeps_eq : sl.kind = .bulk → sl.sdeps = Machine.sdeps sl.tapList sl.deg
  ddeps_eq : sl.kind = .bulk → sl.ddeps = Machine.ddeps sl.tapList sl.deg

/-- The invariant of the machine. -/
structure State.Inv (s : State) : Prop where
  params : s.params.Legal
  tapstage_lt : s.tapstage < 2 ^ (s.dmax + 1)
  tapstage_zero : s.tapstage.testBit 0 = false
  widths : ∀ sl ∈ s.slots, sl.Widths s.dmax
  engine : ∀ sl ∈ s.slots, sl.valid = true → sl.Engine s.dmax
  buf_wf : s.buf.wf
  buf_lt : ∀ c ∈ s.buf, c.1 < s.bufSize
  result_lt : ∀ r ∈ s.response, r.result < 2 ^ Config.resultWidth s.dmax
  error_zero : ∀ r ∈ s.response, r.status ≠ .ok → r.result = 0

/-- A run of `k` steps from `s` meets no fault and no refusal. -/
def SafeRun (k : Nat) (s : State) : Prop := ∃ t, Sys2Proof.core.run k s = .next t

/-! ### Command words -/

/-- The reserved-zero bits of each opcode's format, from the format table (30_encoding.md R71). -/
def reservedZero (op p : Nat) : Bool :=
  match op with
  | 0 => 4 ≤ p
  | 1 => 4 ≤ p
  | 2 => (4 ≤ p && p < 16) || 32 ≤ p
  | 3 => 10 ≤ p
  | 4 => 9 ≤ p
  | 5 => 9 ≤ p
  | 6 => 16 ≤ p
  | 7 => 16 ≤ p
  | 8 => 8 ≤ p
  | 9 => 8 ≤ p && p < 16
  | 10 => 8 ≤ p && p < 16
  | 11 => (4 ≤ p && p < 8) || (16 ≤ p && p < 32) || 48 ≤ p
  | 12 => (4 ≤ p && p < 32) || 48 ≤ p
  | _ => false

/-- The words that are not legal commands: a reserved opcode, a 1 in a reserved-zero bit, or CONFIG
with KIND = 3 (30_encoding.md R90 to R92, 60_exceptions.md R264). -/
def IllegalWord (w : CmdWord) : Prop :=
  13 ≤ (opField w).toNat ∨
    (∃ p < 64, reservedZero (opField w).toNat p = true ∧ w.getLsbD p = true) ∨
    ((opField w).toNat = 3 ∧ kindField w = 3#2)

/-- The word matches the row of opcode `op` in the opcode map (30_encoding.md R80). -/
def MatchesRow (w : CmdWord) (op : Nat) : Prop :=
  ∃ m k, opcodeRow op = some (m, k) ∧ w &&& k = m ∧ (op = 3 → kindField w ≠ 3#2)

/-! ### What commands ask of the state -/

/-- The two directions of an engine (10_state.md R37). -/
inductive Direction where
  | scramble
  | descramble
  deriving DecidableEq, Repr

/-- `SLOT[n]` exists and holds an engine of kind `k`. -/
def State.Holds (s : State) (n : SlotField) (k : Kind) : Prop :=
  n.toNat < s.nslot ∧ (s.slot n).valid = true ∧ (s.slot n).kind = k

/-- `SLOT[n]` exists and is configured. -/
def State.Configured (s : State) (n : SlotField) : Prop :=
  n.toNat < s.nslot ∧ (s.slot n).valid = true

/-- An odd number of the taps in `T` satisfy `f`: the XOR over the taps (00_scope.md R9). -/
def oddTaps (T : List Nat) (f : Nat → Bool) : Bool := (T.filter f).length % 2 == 1

/-- The slot a command names, if its format has a SLOT field (30_encoding.md R73). -/
def namedSlot : Instr → Option SlotField
  | .nop => none
  | .tapclr => none
  | .tapadd _ => none
  | .config slot _ => some slot
  | .scrb slot _ => some slot
  | .dscb slot _ => some slot
  | .scry slot _ => some slot
  | .dscy slot _ => some slot
  | .state slot => some slot
  | .scrr slot _ _ _ => some slot
  | .dscr slot _ _ _ => some slot
  | .bufwr _ _ => none
  | .bufrd _ => none

/-- CONFIG. -/
def isConfig : Instr → Bool
  | .config _ _ => true
  | _ => false

/-- The range command of a direction (46_range_ops.md). -/
def rangeInstr (dir : Direction) (slot : SlotField) (src dst len : Field16) : Instr :=
  match dir with
  | .scramble => .scrr slot src dst len
  | .descramble => .dscr slot src dst len

/-- The state with the response {OK, v}. -/
def State.answered (s : State) (v : Nat) : State := { s with response := some ⟨.ok, v⟩ }

/-- The state with the response {code, 0}. -/
def State.failed (s : State) (code : Status) : State := { s with response := some ⟨code, 0⟩ }

/-! ### What the host can observe -/

/-- Two slots that differ at most in fields the spec calls unspecified: every field but VALID while
VALID = 0, GMASK of a slot that is not GAL, SDEPS and DDEPS of one that is not BULK
(93_implementation_defined.md U2, U3). -/
structure Slot.SameSpecified (a b : Slot) : Prop where
  valid : a.valid = b.valid
  kind : a.valid = true → a.kind = b.kind
  taps : a.valid = true → a.taps = b.taps
  deg : a.valid = true → a.deg = b.deg
  reg : a.valid = true → a.reg = b.reg
  gmask : a.valid = true → a.kind = .gal → a.gmask = b.gmask
  sdeps : a.valid = true → a.kind = .bulk → a.sdeps = b.sdeps
  ddeps : a.valid = true → a.kind = .bulk → a.ddeps = b.ddeps

/-- Two states that differ at most in unspecified slot fields. -/
structure State.SameSpecified (s t : State) : Prop where
  dmax : s.dmax = t.dmax
  bufSize : s.bufSize = t.bufSize
  tapstage : s.tapstage = t.tapstage
  slots : List.Forall₂ Slot.SameSpecified s.slots t.slots
  buf : s.buf = t.buf
  draws : s.draws = t.draws
  pending : s.pending = t.pending
  response : s.response = t.response

/-! ### Streams (48_laws.md) -/

/-- One operation of a stream: a bit or a byte. -/
inductive StreamOp where
  | bit (x : Bool)
  | byte (v : Byte)
  deriving DecidableEq, Repr

/-- The command that gives `op` to slot `n`. -/
def StreamOp.command (dir : Direction) (n : SlotField) (op : StreamOp) : Instr :=
  match dir, op with
  | .scramble, .bit x => .scrb n x
  | .scramble, .byte v => .scry n v
  | .descramble, .bit x => .dscb n x
  | .descramble, .byte v => .dscy n v

/-- The operation of the same size whose data is the number `r`. -/
def StreamOp.carrying (op : StreamOp) (r : Nat) : StreamOp :=
  match op with
  | .bit _ => .bit (r.testBit 0)
  | .byte _ => .byte (BitVec.ofNat 8 r)

/-- The bits of an operation, bit 0 first. -/
def StreamOp.bits : StreamOp → List Bool
  | .bit x => [x]
  | .byte v => (List.range 8).map v.getLsbD

/-- The bits of a stream, in order. -/
def streamBits (ops : List StreamOp) : List Bool := ops.flatMap StreamOp.bits

/-- Issue one command and read its response: the operation its RESULT carries and the next state; none
if the response is an error. -/
def issue (dir : Direction) (n : SlotField) (op : StreamOp) (s : State) : Option (StreamOp × State) :=
  match exec (op.command dir n) s with
  | .next t =>
    match t.response with
    | some { status := .ok, result := r } => some (op.carrying r, t)
    | _ => none
  | .fault _ => none
  | .refused _ => none

/-- Issue a stream to one slot, each operation with its direction, collecting the outputs. -/
def runStream (n : SlotField) :
    List (Direction × StreamOp) → State → Option (List StreamOp × State)
  | [], s => some ([], s)
  | op :: ops, s =>
    (issue op.1 n op.2 s).bind fun o => (runStream n ops o.2).map fun r => (o.1 :: r.1, r.2)

/-- A stream with one direction throughout. -/
def oneWay (dir : Direction) (ops : List StreamOp) : List (Direction × StreamOp) :=
  ops.map fun op => (dir, op)

/-- The eight bits of a byte as bit operations, bit 0 first. -/
def bitOps (v : Byte) : List StreamOp := (StreamOp.byte v).bits.map StreamOp.bit

/-- Drive slot `a` as scrambler and slot `b` as descrambler in lock-step: each output of `a` is given
to `b`. The outputs of `b` are collected (48_laws.md R240). -/
def runLockStep (a b : SlotField) : List StreamOp → State → Option (List StreamOp × State)
  | [], s => some ([], s)
  | op :: ops, s =>
    (issue .scramble a op s).bind fun y => (issue .descramble b y.1 y.2).bind fun x =>
      (runLockStep a b ops x.2).map fun r => (x.1 :: r.1, r.2)

/-! ### How registers of different kinds correspond -/

/-- The number whose bit i is `f i` for i below `n`. -/
def ofBits (n : Nat) (f : Nat → Bool) : Nat :=
  (List.range n).foldr (fun i acc => ((f i).toNat <<< i) ||| acc) 0

/-- `Φ(F)[j] = XOR_{t in T, t > j} F[t-1-j]` for 0 <= j < d (48_laws.md R242). -/
def phi (T : List Nat) (d F : Nat) : Nat :=
  ofBits d fun j => xorOver (T.filter (j < ·)) fun t => F.testBit (t - 1 - j)

/-- `rev_d(F)[i] = F[d-1-i]` (48_laws.md R243). -/
def rev (d F : Nat) : Nat := ofBits d fun i => F.testBit (d - 1 - i)

/-- The slot's register is the one that the last d stream bits `F`, newest at bit 0, give its kind:
`F` itself for FIB, `Φ(F)` for GAL, and for BULK a buffer that holds them at its top (42_fibonacci.md
R123, 44_bulk.md R168, 48_laws.md R242). -/
def Slot.Remembers (sl : Slot) (F : Nat) : Prop :=
  match sl.kind with
  | .fib => sl.reg = F
  | .gal => sl.reg = phi sl.tapList sl.deg F
  | .bulk => ∀ i < sl.deg, sl.reg.testBit (sl.deg + 7 - i) = F.testBit i

/-- Two slots with the same taps whose registers correspond: the same register in the same kind, or
the same last d stream bits (48_laws.md R240 (a) to (d)). -/
def Slot.Paired (a b : Slot) : Prop :=
  a.taps = b.taps ∧ a.deg = b.deg ∧
    ((a.kind = b.kind ∧ a.reg = b.reg) ∨ ∃ F < 2 ^ a.deg, a.Remembers F ∧ b.Remembers F)

/-- The register value CONFIG gives: all ones over the used width (10_state.md R31). -/
def Slot.Fresh (sl : Slot) : Prop := sl.reg = mask sl.width

end Sys2Proof.Machine
end

