-- ==== Sys2Proof/Certificates/Slice0/Obligations.lean ====
section
/-! DEFINITION. The statements for the provers. Each docstring names the rules of spec/ it formalises or
rests on. -/

open Sys2Proof Sys2Proof.Machine

/-! ### Encoding and decoding -/

/-- Decoding the word of a well-formed instruction gives it back (30_encoding.md R71, R80, R94). -/
def Obligations.DecodeOfEncodeIsTheInstruction : Prop :=
  ∀ i : Instr, i.wellFormed = true → decodeWord (encode i) = .ok i

/-- A word that decodes is the encoding of the well-formed instruction it decodes to: each legal word
has one meaning and no bit of it is dropped (R71, R91, R92, R94). -/
def Obligations.DecodedWordIsTheEncoding : Prop :=
  ∀ (w : CmdWord) (i : Instr), decodeWord w = .ok i → i.wellFormed = true ∧ encode i = w

/-- R93: every word matches exactly one row of the opcode map and decodes, or matches none and is
illegal for one of the three reasons of R90, R91 and R92. -/
def Obligations.EveryWordMatchesOneRowOrIsIllegal : Prop :=
  ∀ w : CmdWord,
    ((∃ i, decodeWord w = .ok i) ∧ (∃! op, MatchesRow w op) ∧ ¬IllegalWord w) ∨
      ((¬∃ op, MatchesRow w op) ∧ IllegalWord w ∧
        ∃ err ∈ [DecodeError.reservedOpcode, .reservedBits, .reservedKind], decodeWord w = .error err)

/-- Words written out in the spec decode to the instructions it gives for them: the examples of R99,
and for the families those leave out words of 45_stream_ops.md R191, R193, R194, 46_range_ops.md R213
and 41_tap_config.md R104. -/
def Obligations.SpecExampleWordsDecode : Prop :=
  decodeWord 0x0000000000000000 = .ok .nop ∧
  decodeWord 0x0000000000000001 = .ok .tapclr ∧
  decodeWord 0x0000000000180002 = .ok (.tapadd 24) ∧
  decodeWord 0x0000000000000113 = .ok (.config 1 1) ∧
  decodeWord 0x0000000000000134 = .ok (.scrb 3 true) ∧
  decodeWord 0x000000000000A506 = .ok (.scry 0 0xA5) ∧
  decodeWord 0x0100000000100019 = .ok (.scrr 1 0x0000 0x0100 16) ∧
  decodeWord 0x0000123400005A0B = .ok (.bufwr 0x1234 0x5A) ∧
  decodeWord 0x0000FFFF0000000C = .ok (.bufrd 0xFFFF) ∧
  decodeWord 0x0000000000000115 = .ok (.dscb 1 true) ∧
  decodeWord 0x000000000000B617 = .ok (.dscy 1 0xB6) ∧
  decodeWord 0x0000000000000008 = .ok (.state 0) ∧
  decodeWord 0x001000100003001A = .ok (.dscr 1 0x0010 0x0010 3) ∧
  decodeWord 0x0000000000000003 = .ok (.config 0 0)

/-- R55: where a transport carries command words as bytes, byte k holds bits [8k+7:8k]; decoding the
bytes is decoding the word, and the bytes after it are left. -/
def Obligations.LittleEndianBytesDecodeAsTheWord : Prop :=
  ∀ (w : CmdWord) (rest : List Byte),
    (∀ k < 8, (wordBytes w)[k]? = some (w.extractLsb' (8 * k) 8)) ∧
      decodeBytes (wordBytes w ++ rest) = (decodeWord w).map fun i => (i, rest)

/-- R264 with R90, R91 and R92: a word with a reserved opcode, a 1 in a reserved-zero bit, or CONFIG
with KIND = 3 gives {E_ILLEGAL, 0} and changes nothing but the port. -/
def Obligations.IllegalWordsAnswerIllegal : Prop :=
  ∀ (s : State) (w : CmdWord) (rest : List HostEvent),
    s.pending = .command w :: rest → IllegalWord w →
      step s = .next { s with pending := rest, response := some ⟨.eIllegal, 0⟩ }

/-- The words that the assembler emits are legal: every RZ bit is 0 and no KIND is 3 (R97). -/
def Obligations.AssembledWordsAreLegal : Prop :=
  ∀ (line : List Char) (ws : List CmdWord), assemble line = some ws →
    ∀ w ∈ ws, ¬IllegalWord w ∧ ∃ i, decodeWord w = .ok i ∧ encode i = w

/-- The assembly of R97 to R99: an example line, its words, an operand that does not fit, an unknown KIND
name, the pseudo-instruction TAPSET of R98 with the tap list of the source, and BUFSTR of program P2
(95_test_vectors.md). -/
def Obligations.AssemblyExamples : Prop :=
  assemble "SCRR 1, 0x0000, 0x0100, 16".toList = some [0x0100000000100019] ∧
  assemble "CONFIG  1, GAL ; format K".toList = some [0x0000000000000113] ∧
  assemble "SCRB 3, 2".toList = none ∧
  assemble "SCRY 16, 0".toList = none ∧
  assemble "CONFIG 0, LFSR".toList = none ∧
  asmLine "TAPSET 0, 17, 22, 23, 24".toList =
    some [.tapclr, .tapadd 0, .tapadd 17, .tapadd 22, .tapadd 23, .tapadd 24] ∧
  assemble "BUFSTR 0x0000, 0x48, 0x49, 0x21".toList =
    some [0x000000000000480B, 0x000000010000490B, 0x000000020000210B]

/-! ### Steps, reset and the port -/

/-- A step whose next event is a command word runs the instruction the word decodes to, on the state
from which the event has been taken (10_state.md R20, 70_reset_and_hazards.md R285). -/
def Obligations.StepRunsTheDecodedInstruction : Prop :=
  ∀ (s : State) (w : CmdWord) (rest : List HostEvent) (i : Instr),
    s.pending = .command w :: rest → decodeWord w = .ok i →
      step s = exec i { s with pending := rest }

/-- With no event presented a step changes nothing and returns no response. That the step exists is the
model's choice (log entry 5); the CORE "waits for the first command" (R283). -/
def Obligations.StepWithoutEventWaits : Prop :=
  ∀ s : State, s.pending = [] → step s = .next { s with response := none }

/-- R281: reset clears TAPSTAGE and every VALID; BUF holds no written byte; no response is returned; the
build parameters and the later events stay. -/
def Obligations.PlatformResetClearsStageAndValid : Prop :=
  ∀ (s : State) (rest : List HostEvent), s.pending = .reset :: rest →
    ∃ t, step s = .next t ∧ t.tapstage = 0 ∧ (∀ sl ∈ t.slots, sl.valid = false) ∧
      (∀ a, t.buf.read a = none) ∧ t.response = none ∧ t.params = s.params ∧ t.pending = rest

/-- R282: a reset asserted while a command is executing abandons the command; the step is that of a reset
alone, with no response. -/
def Obligations.ResetAbandonsTheCommand : Prop :=
  ∀ (s : State) (w : CmdWord) (rest : List HostEvent), s.pending = .resetDuring w :: rest →
    step s = step { s with pending := .reset :: rest } ∧ ∃ t, step s = .next t ∧ t.response = none

/-- The state after reset is what R38 gives: TAPSTAGE = 0, NSLOT unconfigured slots, no written BUF byte;
with the default build parameters of R6, and nothing on the port. -/
def Obligations.ResetStateIsAsTheSpecGives : Prop :=
  State.reset.tapstage = 0 ∧ State.reset.nslot = 4 ∧ State.reset.dmax = 128 ∧
  State.reset.bufSize = 65536 ∧ (∀ sl ∈ State.reset.slots, sl.valid = false) ∧
  (∀ a, State.reset.buf.read a = none) ∧ State.reset.pending = [] ∧ State.reset.response = none

/-- The state after reset meets the invariant, for every legal choice of the build parameters (R6, R38).
It rests on the values the model names for the unspecified slot fields (log entry 8). -/
def Obligations.ResetMeetsTheInvariant : Prop :=
  ∀ p : Config.Params, p.Legal → (State.resetWith p).Inv

/-- Every step keeps the invariant: register widths (R22, R30), TAPSTAGE bit 0 (R23), the engine of every
configured slot (R28 to R34, R105), the canonical form of BUF, and the response (R260). -/
def Obligations.StepKeepsTheInvariant : Prop :=
  ∀ s t : State, s.Inv → step s = .next t → t.Inv

/-- No behaviour of the CORE stops it from accepting commands (93_implementation_defined.md): every run
of any length from any state is safe. -/
def Obligations.EveryRunIsSafe : Prop := ∀ (k : Nat) (s : State), SafeRun k s

/-- No step changes a build parameter (10_state.md R21, 00_scope.md R6). -/
def Obligations.StepKeepsTheBuildParameters : Prop :=
  ∀ s t : State, step s = .next t → t.params = s.params

/-- R260: every command produces exactly one response, consumes its word, and its RESULT is 0 unless
STATUS is OK; from a state that meets the invariant RESULT fits RW bits. -/
def Obligations.EveryCommandReturnsOneResponse : Prop :=
  ∀ (s : State) (w : CmdWord) (rest : List HostEvent), s.pending = .command w :: rest →
    ∃ t r, step s = .next t ∧ t.response = some r ∧ t.pending = rest ∧
      (r.status ≠ .ok → r.result = 0) ∧ (s.Inv → r.result < 2 ^ Config.resultWidth s.dmax)

/-! ### Errors -/

/-- R262: a command that raises an error has no effect on any state; only its response appears. -/
def Obligations.ErrorsChangeNothing : Prop :=
  ∀ (i : Instr) (s t : State) (r : Response), exec i s = .next t → t.response = some r →
    r.status ≠ .ok → t = { s with response := some r }

/-- R272: a legal command raises only the codes its row of the table names. -/
def Obligations.CommandsRaiseOnlyTheirCodes : Prop :=
  ∀ (i : Instr) (s t : State), i.wellFormed = true → exec i s = .next t →
    ∃ r, t.response = some r ∧ (r.status = .ok ∨ r.status ∈ mayRaise i) ∧ r.status ≠ .eIllegal

/-- R263, R265 and R266: a command with a SLOT field of NSLOT or more answers E_SLOT, whatever else is
wrong with it; on an existing slot with VALID = 0 every such command but CONFIG answers E_UNCONF,
whatever else is wrong. Neither changes any state. -/
def Obligations.SlotErrorsComeFirst : Prop :=
  ∀ (i : Instr) (n : SlotField) (s : State), i.wellFormed = true → namedSlot i = some n →
    (s.nslot ≤ n.toNat → exec i s = .next (s.failed .eSlot)) ∧
    (n.toNat < s.nslot → (s.slot n).valid = false → isConfig i = false →
      exec i s = .next (s.failed .eUnconf))

/-! ### Tap configuration -/

/-- NOP answers {OK, 0} and changes no state (R227). -/
def Obligations.NopChangesNothing : Prop := ∀ s : State, exec .nop s = .next (s.answered 0)

/-- TAPCLR clears TAPSTAGE, answers {OK, 0} and touches nothing else (R100). -/
def Obligations.TapclrClearsTheStage : Prop :=
  ∀ s : State, exec .tapclr s = .next ({ s with tapstage := 0 }.answered 0)

/-- TAPADD t: above DMAX it answers E_RANGE and changes nothing (R111, R268); otherwise bit t of TAPSTAGE
is set, the input marker 0 stores nothing, every other bit and every other piece of state stays
(R101, R102). TAPSTAGE bit 0 is 0 in every state that meets the invariant. -/
def Obligations.TapaddStagesTheTap : Prop :=
  ∀ (s : State) (tap : Field16),
    (s.dmax < tap.toNat → exec (.tapadd tap) s = .next (s.failed .eRange)) ∧
    (tap.toNat ≤ s.dmax → s.tapstage.testBit 0 = false →
      ∃ v, exec (.tapadd tap) s = .next ({ s with tapstage := v }.answered 0) ∧
        ∀ p, v.testBit p = (s.tapstage.testBit p || (p != 0 && p == tap.toNat)))

/-- CONFIG with a staged tap builds an engine of the kind its KIND field names: VALID, KIND, TAPS, DEG the
highest staged tap, REG all ones over its used width, GMASK or the dependency matrices of its taps. It
answers {OK, d} and leaves every other slot, TAPSTAGE and BUF as they were, whatever the slot held
before (R104, R106, R107, R110, R31, R103). -/
def Obligations.ConfigBuildsTheEngine : Prop :=
  ∀ (s : State) (n : SlotField) (field : KindField) (k : Kind),
    (field, k) ∈ [(0#2, Kind.fib), (1#2, Kind.gal), (2#2, Kind.bulk)] → n.toNat < s.nslot →
    (∃ p, 1 ≤ p ∧ p ≤ s.dmax ∧ s.tapstage.testBit p = true) →
    ∃ d t, exec (.config n field) s = .next t ∧ t.response = some ⟨.ok, d⟩ ∧
      (1 ≤ d ∧ d ≤ s.dmax ∧ s.tapstage.testBit d = true ∧
        ∀ p, d < p → p ≤ s.dmax → s.tapstage.testBit p = false) ∧
      (t.slot n).valid = true ∧ (t.slot n).kind = k ∧ (t.slot n).deg = d ∧
      (∀ p, (t.slot n).taps.testBit p = (decide (p < s.dmax) && s.tapstage.testBit (p + 1))) ∧
      (k = .fib → (t.slot n).reg = 2 ^ d - 1) ∧
      (k = .gal → (t.slot n).reg = 2 ^ d - 1 ∧ (t.slot n).gmask = (t.slot n).taps) ∧
      (k = .bulk → (t.slot n).reg = 2 ^ (d + 8) - 1 ∧
        (t.slot n).sdeps = sdeps (t.slot n).tapList d ∧ (t.slot n).ddeps = ddeps (t.slot n).tapList d) ∧
      (∀ m, m ≠ n → t.slot m = s.slot m) ∧ t.params = s.params ∧ t.tapstage = s.tapstage ∧
      t.buf = s.buf ∧ t.pending = s.pending

/-- The errors of CONFIG in their order: KIND = 3 answers E_ILLEGAL, then SLOT ≥ NSLOT answers E_SLOT, then
a stage without a tap in 1 .. DMAX answers E_EMPTY; each changes nothing (R104, R108, R263, R267). -/
def Obligations.ConfigErrorsInOrder : Prop :=
  ∀ (s : State) (n : SlotField) (field : KindField),
    (field = 3#2 → exec (.config n field) s = .next (s.failed .eIllegal)) ∧
    (field ≠ 3#2 → s.nslot ≤ n.toNat → exec (.config n field) s = .next (s.failed .eSlot)) ∧
    (field ≠ 3#2 → n.toNat < s.nslot →
      (∀ p, 1 ≤ p → p ≤ s.dmax → s.tapstage.testBit p = false) →
      exec (.config n field) s = .next (s.failed .eEmpty))

/-- The tap set of a slot holds t exactly when bit t-1 of TAPS is set, each tap once, ascending (R28,
R109). -/
def Obligations.TapSetReadsTheTapsRegister : Prop :=
  ∀ taps : Nat, (tapSet taps).Pairwise (· < ·) ∧
    ∀ t, t ∈ tapSet taps ↔ 1 ≤ t ∧ taps.testBit (t - 1) = true

/-! ### Dependency matrices -/

/-- Bit p of DD[b] is set exactly when p is the input position d+b or the position d+b-t of a tap t
(R163). -/
def Obligations.DescrambleMaskBits : Prop :=
  ∀ (T : List Nat) (d b p : Nat), T.Nodup → (∀ t ∈ T, 1 ≤ t ∧ t ≤ d) → b < 8 →
    (((ddeps T d).getD b 0).testBit p = true ↔ p = d + b ∨ ∃ t ∈ T, p + t = d + b)

/-- R164: the bits of SD[b] and DD[b] at positions d and above lie in d .. d+b, and bit d+b is set. -/
def Obligations.MasksReferOnlyToEarlierPendingBits : Prop :=
  ∀ (T : List Nat) (d b : Nat), (∀ t ∈ T, 1 ≤ t ∧ t ≤ d) → b < 8 →
    ∀ m ∈ [(sdeps T d).getD b 0, (ddeps T d).getD b 0],
      m.testBit (d + b) = true ∧ ∀ p, m.testBit p = true → d ≤ p → p ≤ d + b

/-- R162: over a buffer with committed bits below d and the input byte in d .. d+7, the parity under SD[b]
is the bit y(b) of the Fibonacci recurrence. -/
def Obligations.ScrambleMaskParityIsTheRecurrence : Prop :=
  ∀ (T : List Nat) (d buf : Nat) (y : Nat → Bool), (∀ t ∈ T, 1 ≤ t ∧ t ≤ d) →
    (∀ b < 8, y b = (buf.testBit (d + b) ^^
      oddTaps T fun t => if t ≤ b then y (b - t) else buf.testBit (d + b - t))) →
    ∀ b < 8, parity (buf &&& (sdeps T d).getD b 0) = y b

/-! ### Bit, byte and state commands -/

/-- SCRB and DSCB on a FIB slot: the output is the input XOR the register bits t-1 over the taps t; the
register shifts toward bit d-1 and takes in the output (SCRB) or the received bit (DSCB) at bit 0;
nothing else changes (R122, R124, R190, R191). -/
def Obligations.BitCommandsOnFibonacci : Prop :=
  ∀ (s : State) (n : SlotField) (x : Bool), s.Holds n .fib →
    let sl := s.slot n
    let fb := x ^^ oddTaps sl.tapList fun t => sl.reg.testBit (t - 1)
    exec (.scrb n x) s = .next ((s.setReg n ((2 * sl.reg + fb.toNat) % 2 ^ sl.deg)).answered fb.toNat) ∧
    exec (.dscb n x) s = .next ((s.setReg n ((2 * sl.reg + x.toNat) % 2 ^ sl.deg)).answered fb.toNat)

/-- SCRB and DSCB on a GAL slot: the output is register bit 0 XOR the input; the register shifts toward
bit 0 and the tap mask is XORed in when the output (SCRB) or the received bit (DSCB) is 1. By R143 the
last line of R142 and R144 adds nothing to this; nothing else changes (R142 to R144, R190, R191). -/
def Obligations.BitCommandsOnGalois : Prop :=
  ∀ (s : State) (n : SlotField) (x : Bool), s.Inv → s.Holds n .gal →
    let sl := s.slot n
    let out := (sl.reg % 2 == 1) ^^ x
    exec (.scrb n x) s =
      .next ((s.setReg n (sl.reg / 2 ^^^ if out then sl.taps else 0)).answered out.toNat) ∧
    exec (.dscb n x) s =
      .next ((s.setReg n (sl.reg / 2 ^^^ if x then sl.taps else 0)).answered out.toNat)

/-- SCRB and DSCB on a BULK slot: the output is the input XOR the buffer bits d+8-t over the taps t; the
buffer shifts toward position 0 and takes in the output (SCRB) or the received bit (DSCB) at position
d+7; nothing else changes (R169, R170, R190, R191). -/
def Obligations.BitCommandsOnBulk : Prop :=
  ∀ (s : State) (n : SlotField) (x : Bool), s.Inv → s.Holds n .bulk →
    let sl := s.slot n
    let y := x ^^ oddTaps sl.tapList fun t => sl.reg.testBit (sl.deg + 8 - t)
    exec (.scrb n x) s =
      .next ((s.setReg n (sl.reg / 2 + y.toNat * 2 ^ (sl.deg + 7))).answered y.toNat) ∧
    exec (.dscb n x) s =
      .next ((s.setReg n (sl.reg / 2 + x.toNat * 2 ^ (sl.deg + 7))).answered y.toNat)

/-- R244 for one byte: SCRY and DSCY on a configured slot of any kind answer {OK, y} for a byte y whose
bits are the outputs of eight bit commands on the bits of the input, bit 0 first, and leave the state
those commands leave (R125, R126, R145, R146, R192, R193; for BULK R166 to R170). -/
def Obligations.ByteCommandIsEightBitCommands : Prop :=
  ∀ (s : State) (n : SlotField) (dir : Direction) (v : Byte), s.Inv → s.Configured n →
    ∃ (y : Byte) (t : State), runStream n (oneWay dir (bitOps v)) s = some (bitOps y, t) ∧
      exec ((StreamOp.byte v).command dir n) s = .next (t.answered y.toNat)

/-- SCRY and DSCY on a BULK slot in one step: the buffer drops its 8 oldest bits and takes in the result
byte (SCRY) or the received byte (DSCY) at d .. d+7, and lane b of the result is the parity of the
loaded buffer under SD[b] (SCRY) or DD[b] (DSCY); nothing else changes (R166, R167, R172). -/
def Obligations.ByteCommandsOnBulk : Prop :=
  ∀ (s : State) (n : SlotField) (v : Byte), s.Inv → s.Holds n .bulk →
    let sl := s.slot n
    let loaded := sl.reg / 256 + v.toNat * 2 ^ sl.deg
    ∃ y z : Byte,
      (∀ b < 8, y.getLsbD b = oddTaps (List.range (sl.deg + 8)) fun p =>
        loaded.testBit p && (sl.sdeps.getD b 0).testBit p) ∧
      (∀ b < 8, z.getLsbD b = oddTaps (List.range (sl.deg + 8)) fun p =>
        loaded.testBit p && (sl.ddeps.getD b 0).testBit p) ∧
      exec (.scry n v) s =
        .next ((s.setReg n (sl.reg / 256 + y.toNat * 2 ^ sl.deg)).answered y.toNat) ∧
      exec (.dscy n v) s = .next ((s.setReg n loaded).answered z.toNat)

/-- STATE answers the low d bits of REG and changes nothing, for every kind; on a BULK slot with d > 64 it
answers E_WIDE (R194, R127, R147, R171, R112, R269). -/
def Obligations.StateReturnsTheRegister : Prop :=
  ∀ (s : State) (n : SlotField), s.Configured n →
    ((s.slot n).kind = .bulk → 64 < (s.slot n).deg →
      exec (.state n) s = .next (s.failed .eWide)) ∧
    ((s.slot n).kind ≠ .bulk ∨ (s.slot n).deg ≤ 64 →
      exec (.state n) s = .next (s.answered ((s.slot n).reg % 2 ^ (s.slot n).deg)))

/-! ### Laws of the engines (48_laws.md) -/

/-- R241: a fresh FIB slot and a fresh BULK slot with the same taps give the same output for every
operation of every stream, whatever its mix of bits, bytes and directions. -/
def Obligations.BulkEqualsFibonacci : Prop :=
  ∀ (s : State) (a b : SlotField) (ops : List (Direction × StreamOp)), s.Inv → s.Holds a .fib →
    s.Holds b .bulk → (s.slot a).taps = (s.slot b).taps → (s.slot a).Fresh → (s.slot b).Fresh →
    ∃ ys t u, runStream a ops s = some (ys, t) ∧ runStream b ops s = some (ys, u)

/-- R242: a FIB slot with register F and a GAL slot with the same taps and register Φ(F) give the same
output for every operation of every stream, and the GAL register is again Φ of the FIB register. -/
def Obligations.GaloisFollowsFibonacciUnderPhi : Prop :=
  ∀ (s : State) (a b : SlotField) (ops : List (Direction × StreamOp)), s.Inv → s.Holds a .fib →
    s.Holds b .gal → (s.slot a).taps = (s.slot b).taps →
    (s.slot b).reg = phi (s.slot a).tapList (s.slot a).deg (s.slot a).reg →
    ∃ ys t u, runStream a ops s = some (ys, t) ∧ runStream b ops s = some (ys, u) ∧
      (u.slot b).reg = phi (s.slot a).tapList (s.slot a).deg (t.slot a).reg

/-- R242: Φ is a bijection on d-bit values, for a tap set whose highest tap is d. -/
def Obligations.PhiIsABijection : Prop :=
  ∀ (T : List Nat) (d : Nat), T.Nodup → d ∈ T → (∀ t ∈ T, 1 ≤ t ∧ t ≤ d) →
    (∀ F, phi T d F < 2 ^ d) ∧ ∀ G < 2 ^ d, ∃! F, F < 2 ^ d ∧ phi T d F = G

/-- R240: a scrambler slot and a descrambler slot with the same taps whose registers correspond, driven in
lock-step with any stream of bits and bytes, recover every input, and their registers correspond again.
The correspondence covers (a) to (d) of the rule. -/
def Obligations.LockStepRecoversEveryInput : Prop :=
  ∀ (s : State) (a b : SlotField) (ops : List StreamOp), s.Inv → s.Configured a → s.Configured b →
    a ≠ b → (s.slot a).Paired (s.slot b) →
    ∃ t, runLockStep a b ops s = some (ops, t) ∧ (t.slot a).Paired (t.slot b)

/-- R240 (a) and (b) with R106: two slots configured one after the other from the same staged taps, both
of one kind or one FIB and one BULK, are paired. -/
def Obligations.SlotsOfOneStageArePaired : Prop :=
  ∀ (s : State) (a b : SlotField) (j k : KindField), a.toNat < s.nslot → b.toNat < s.nslot →
    a ≠ b → (∃ p, 1 ≤ p ∧ p ≤ s.dmax ∧ s.tapstage.testBit p = true) →
    (j, k) ∈ [(0#2, 0#2), (1#2, 1#2), (2#2, 2#2), (0#2, 2#2), (2#2, 0#2)] →
    ∃ t u, exec (.config a j) s = .next t ∧ exec (.config b k) t = .next u ∧
      u.Configured a ∧ u.Configured b ∧ (u.slot a).Paired (u.slot b)

/-- R245: whatever the two registers hold, a descrambler slot driven in lock-step with a scrambler slot of
the same taps recovers every bit after the first d received bits. -/
def Obligations.DescramblersSynchroniseThemselves : Prop :=
  ∀ (s : State) (a b : SlotField) (ops : List StreamOp), s.Inv → s.Configured a → s.Configured b →
    a ≠ b → (s.slot a).taps = (s.slot b).taps →
    ∃ xs t, runLockStep a b ops s = some (xs, t) ∧
      (streamBits xs).drop (s.slot a).deg = (streamBits ops).drop (s.slot a).deg

/-- R243: after a stream of n bits from fresh slots, BULK.state is the bit-reversal of the FIB register
after the first max(n-8, 0) bits. -/
def Obligations.BulkStateLagsFibonacciByEightBits : Prop :=
  ∀ (s : State) (a b : SlotField) (dir : Direction) (ops : List StreamOp), s.Inv → s.Holds a .fib →
    s.Holds b .bulk → (s.slot a).taps = (s.slot b).taps → (s.slot a).Fresh → (s.slot b).Fresh →
    let early := (streamBits ops).take ((streamBits ops).length - 8)
    ∃ xs t ys u, runStream a (oneWay dir (early.map StreamOp.bit)) s = some (xs, t) ∧
      runStream b (oneWay dir ops) s = some (ys, u) ∧
      (u.slot b).stateValue = rev (s.slot a).deg (t.slot a).reg

/-- R246: with zero input a FIB register of 0 stays 0 and outputs 0; a fresh FIB or BULK scrambler with an
odd number of taps outputs all ones, and its register does not change, for bits and for bytes. -/
def Obligations.ZeroInputFixedPoints : Prop :=
  ∀ (s : State) (n : SlotField), s.Inv → s.Configured n →
    ((s.slot n).kind = .fib → (s.slot n).reg = 0 → exec (.scrb n false) s = .next (s.answered 0)) ∧
    ((s.slot n).kind ≠ .gal → (s.slot n).Fresh → (s.slot n).tapList.length % 2 = 1 →
      exec (.scrb n false) s = .next (s.answered 1) ∧ exec (.scry n 0) s = .next (s.answered 255))

/-- R247: before the lowest tap is reached, a fresh FIB or BULK scrambler outputs each input bit XOR
(|T| mod 2); the first output bit of a fresh GAL scrambler is the inverse of its input. -/
def Obligations.FirstBitsOfAFreshScrambler : Prop :=
  ∀ (s : State) (n : SlotField), s.Inv → s.Configured n → (s.slot n).Fresh →
    ((s.slot n).kind ≠ .gal → ∀ xs : List Bool, (∀ t ∈ (s.slot n).tapList, xs.length ≤ t) →
      ∃ t, runStream n (oneWay .scramble (xs.map StreamOp.bit)) s =
        some (xs.map fun x => StreamOp.bit (x ^^ ((s.slot n).tapList.length % 2 == 1)), t)) ∧
    ((s.slot n).kind = .gal → ∀ x, ∃ t, exec (.scrb n x) s = .next t ∧
      t.response = some ⟨.ok, (!x).toNat⟩)

/-- With constant zero input a FIB or GAL register that is not 0 never reaches 0 and returns to its start
within 2^d - 1 steps, for every tap set. It follows from the scramble bit steps alone (42_fibonacci.md
R122, 43_galois.md R142). R248 gives no bound for every tap set, and nothing of R248 is stated here. -/
def Obligations.ZeroInputReturnsWithinMaximalLength : Prop :=
  ∀ (s : State) (n : SlotField), s.Inv → s.Configured n → (s.slot n).kind ≠ .bulk →
    (s.slot n).reg ≠ 0 →
    (∀ k, ∃ ys t, runStream n (oneWay .scramble (List.replicate k (.bit false))) s = some (ys, t) ∧
      (t.slot n).reg ≠ 0) ∧
    ∃ k, 1 ≤ k ∧ k ≤ 2 ^ (s.slot n).deg - 1 ∧
      ∃ ys t, runStream n (oneWay .scramble (List.replicate k (.bit false))) s = some (ys, t) ∧
        (t.slot n).reg = (s.slot n).reg

/-! ### Range commands -/

/-- R211 and R270: a range command on a configured slot whose source or destination range does not lie
inside BUF answers E_BOUNDS and changes nothing; with len = 0 and both addresses at most BUF_SIZE it
answers {OK, 0} and changes nothing (R214). -/
def Obligations.RangeBoundsAndEmptyRange : Prop :=
  ∀ (s : State) (dir : Direction) (n : SlotField) (src dst len : Field16), s.Configured n →
    (s.bufSize < src.toNat + len.toNat ∨ s.bufSize < dst.toNat + len.toNat →
      exec (rangeInstr dir n src dst len) s = .next (s.failed .eBounds)) ∧
    (src.toNat ≤ s.bufSize → dst.toNat ≤ s.bufSize →
      exec (rangeInstr dir n src dst 0) s = .next (s.answered 0))

/-- R212: a range of one byte or more is a read of its first source byte, a byte command on it, a write of
the output to the first destination byte, and then the range of the remaining bytes; overlapping
ranges and bytes not yet written included. -/
def Obligations.RangeGoesByteByByte : Prop :=
  ∀ (s : State) (dir : Direction) (n : SlotField) (src dst len : Field16), s.bufSize ≤ 2 ^ 16 →
    s.Configured n → len ≠ 0 → src.toNat + len.toNat ≤ s.bufSize →
    dst.toNat + len.toNat ≤ s.bufSize →
    ∃ (v y : Byte) (t u w : State),
      exec (.bufrd src) s = .next t ∧ t.response = some ⟨.ok, v.toNat⟩ ∧
      exec ((StreamOp.byte v).command dir n) t = .next u ∧ u.response = some ⟨.ok, y.toNat⟩ ∧
      exec (.bufwr dst y) u = .next w ∧
      exec (rangeInstr dir n src dst len) s =
        exec (rangeInstr dir n (src + 1) (dst + 1) (len - 1)) w

/-- Chunking of R215: a range of a + b bytes is a range of a bytes and then one of the next b bytes on the
same slot. -/
def Obligations.RangesAreChunkable : Prop :=
  ∀ (s : State) (dir : Direction) (n : SlotField) (src dst a b : Field16), s.bufSize ≤ 2 ^ 16 →
    s.Configured n → a.toNat + b.toNat < 2 ^ 16 →
    src.toNat + a.toNat + b.toNat ≤ s.bufSize → dst.toNat + a.toNat + b.toNat ≤ s.bufSize →
    ∃ t, exec (rangeInstr dir n src dst a) s = .next t ∧
      exec (rangeInstr dir n src dst (a + b)) s =
        exec (rangeInstr dir n (src + a) (dst + a) b) t

/-- R215 and R210: where the ranges do not overlap, or are the same range, and every source byte has been
written, the destination bytes are the outputs of one byte command for each source byte in ascending
order, the slots are left as those commands leave them, and every byte outside the destination range
reads as before. -/
def Obligations.RangeWritesTheByteOutputs : Prop :=
  ∀ (s : State) (dir : Direction) (n : SlotField) (src dst len : Field16) (vs : List Byte),
    s.Configured n → src.toNat + len.toNat ≤ s.bufSize → dst.toNat + len.toNat ≤ s.bufSize →
    src.toNat + len.toNat ≤ dst.toNat ∨ dst.toNat + len.toNat ≤ src.toNat ∨ src = dst →
    vs.length = len.toNat → (∀ i < len.toNat, s.buf.read (src.toNat + i) = vs[i]?) →
    ∃ (ys : List Byte) (t u : State), ys.length = len.toNat ∧
      runStream n (oneWay dir (vs.map StreamOp.byte)) s = some (ys.map StreamOp.byte, u) ∧
      exec (rangeInstr dir n src dst len) s = .next t ∧ t.response = some ⟨.ok, 0⟩ ∧
      t.slots = u.slots ∧ (∀ i < len.toNat, t.buf.read (dst.toNat + i) = ys[i]?) ∧
      ∀ a, a < dst.toNat ∨ dst.toNat + len.toNat ≤ a → t.buf.read a = s.buf.read a

/-- Completion and frame of SCRR and DSCR for every operand that passes the checks: {OK, 0}; every byte of
the destination range is written and every other byte of BUF reads as before; no slot but the named one
and no field of that but REG changes; TAPSTAGE and the build parameters stay (R210, R213, R196, R36). -/
def Obligations.RangeFrame : Prop :=
  ∀ (s : State) (dir : Direction) (n : SlotField) (src dst len : Field16), s.Configured n →
    src.toNat + len.toNat ≤ s.bufSize → dst.toNat + len.toNat ≤ s.bufSize →
    ∃ t r, exec (rangeInstr dir n src dst len) s = .next t ∧ t.response = some ⟨.ok, 0⟩ ∧
      t.slots = (s.setReg n r).slots ∧ t.tapstage = s.tapstage ∧ t.params = s.params ∧
      t.pending = s.pending ∧
      (∀ a, a < dst.toNat ∨ dst.toNat + len.toNat ≤ a → t.buf.read a = s.buf.read a) ∧
      ∀ i < len.toNat, (t.buf.read (dst.toNat + i)).isSome = true

/-! ### Buffer commands -/

/-- BUFWR stores its byte at its address and changes nothing else; at or above BUF_SIZE it answers
E_BOUNDS and changes nothing (R225, R52, R270). -/
def Obligations.BufwrStoresTheByte : Prop :=
  ∀ (s : State) (a : Field16) (v : Byte),
    (a.toNat < s.bufSize → ∃ m, exec (.bufwr a v) s = .next ({ s with buf := m }.answered 0) ∧
      m.read a.toNat = some v ∧ ∀ p, p ≠ a.toNat → m.read p = s.buf.read p) ∧
    (s.bufSize ≤ a.toNat → exec (.bufwr a v) s = .next (s.failed .eBounds))

/-- BUFRD answers the byte last written at its address and changes nothing; of a byte not written since
reset it answers a free value, and only the model's draw counter changes (log entry 6); at or above
BUF_SIZE it answers E_BOUNDS (R226, R53, R270). -/
def Obligations.BufrdReturnsTheByte : Prop :=
  ∀ (s : State) (a : Field16),
    (a.toNat < s.bufSize → ∀ v, s.buf.read a.toNat = some v →
      exec (.bufrd a) s = .next (s.answered v.toNat)) ∧
    (a.toNat < s.bufSize → s.buf.read a.toNat = none → ∃ v : Byte,
      exec (.bufrd a) s = .next ({ s with draws := s.draws + 1 }.answered v.toNat)) ∧
    (s.bufSize ≤ a.toNat → exec (.bufrd a) s = .next (s.failed .eBounds))

/-- R60 across commands: a BUFRD returns the byte that a BUFWR to the same address stored, although any
command with a SLOT field other than SCRR and DSCR ran between them. -/
def Obligations.ReadReturnsTheLatestWrite : Prop :=
  ∀ (s t u : State) (a : Field16) (v : Byte) (i : Instr), a.toNat < s.bufSize →
    exec (.bufwr a v) s = .next t → (namedSlot i).isSome = true →
    (∀ dir n src dst len, i ≠ rangeInstr dir n src dst len) → exec i t = .next u →
    exec (.bufrd a) u = .next (u.answered v.toNat)

/-! ### Whole-machine rules -/

/-- R36: a command that names slot n leaves every other slot as it was, and a command without a SLOT field
leaves every slot as it was. -/
def Obligations.OnlyTheNamedSlotChanges : Prop :=
  ∀ (i : Instr) (s t : State), exec i s = .next t →
    t.nslot = s.nslot ∧ ∀ m, namedSlot i ≠ some m → t.slot m = s.slot m

/-- Of the commands, only TAPCLR and TAPADD write TAPSTAGE (R22, R106, R196). -/
def Obligations.OnlyTapCommandsWriteTheStage : Prop :=
  ∀ (i : Instr) (s t : State), i ≠ .tapclr → (∀ tap, i ≠ .tapadd tap) → exec i s = .next t →
    t.tapstage = s.tapstage

/-- R51: no command but SCRR, DSCR and BUFWR writes BUF; every byte reads as before. -/
def Obligations.OnlyThreeCommandsWriteTheBuffer : Prop :=
  ∀ (i : Instr) (s t : State), (∀ a v, i ≠ .bufwr a v) →
    (∀ dir n src dst len, i ≠ rangeInstr dir n src dst len) → exec i s = .next t →
    ∀ a, t.buf.read a = s.buf.read a

/-- R105: whatever a command answers, it changes VALID, KIND, TAPS, DEG, GMASK, SDEPS or DDEPS of a slot
only if it is a CONFIG that names that slot and answers OK. A CONFIG of another slot and a CONFIG that
raises an error leave all of them as they were. -/
def Obligations.OnlyConfigWritesTheConfiguration : Prop :=
  ∀ (i : Instr) (s t : State) (r : Response) (m : SlotField), exec i s = .next t →
    t.response = some r → isConfig i = false ∨ namedSlot i ≠ some m ∨ r.status ≠ .ok →
    ∃ q, t.slot m = { s.slot m with reg := q }

/-- R26: only reset clears VALID; a step on a command or without an event keeps it set. -/
def Obligations.OnlyResetClearsValid : Prop :=
  ∀ (s t : State) (n : SlotField), step s = .next t → (s.slot n).valid = true →
    (∀ rest, s.pending ≠ .reset :: rest) → (∀ w rest, s.pending ≠ .resetDuring w :: rest) →
    (t.slot n).valid = true

/-- R35, U2 and U3: what the spec leaves unspecified in a slot cannot be observed. Two states that differ
only there give the same response at every step and differ only there again. -/
def Obligations.UnspecifiedFieldsCannotBeObserved : Prop :=
  ∀ s t : State, s.SameSpecified t →
    ∃ s' t', step s = .next s' ∧ step t = .next t' ∧ s'.response = t'.response ∧ s'.SameSpecified t'
end

