-- ==== Sys2Proof/Laws/Bits.lean ====
section
/-! SUPPORT. What the operators of Bits.lean do, bit by bit. -/

namespace Sys2Proof.Machine

@[simp] theorem testBit_mask (n i : Nat) : (mask n).testBit i = decide (i < n) := by
  simp [mask, Nat.testBit_two_pow_sub_one]

@[simp] theorem testBit_e (p i : Nat) : (e p).testBit i = decide (p = i) := by
  simp [e, Nat.one_shiftLeft, Nat.testBit_two_pow]

theorem and_mask (v n : Nat) : v &&& mask n = v % 2 ^ n := by
  simp [mask, Nat.and_two_pow_sub_one_eq_mod]

theorem mask_lt (n : Nat) : mask n < 2 ^ n := by
  have := Nat.two_pow_pos n
  simp only [mask]; omega

/-- Numbers with the same bits below `n` and none above are equal. -/
theorem eq_of_testBit_below {a b n : Nat} (ha : a < 2 ^ n) (hb : b < 2 ^ n)
    (h : ∀ i < n, a.testBit i = b.testBit i) : a = b := by
  refine Nat.eq_of_testBit_eq fun i => ?_
  by_cases hi : i < n
  · exact h i hi
  · have hp : 2 ^ n ≤ 2 ^ i := Nat.pow_le_pow_right (by norm_num) (by omega)
    rw [Nat.testBit_lt_two_pow (by omega), Nat.testBit_lt_two_pow (by omega)]

/-- A number without bits at `n` and above is below 2^n. -/
theorem lt_two_pow_of_testBit {a n : Nat} (h : ∀ i, n ≤ i → a.testBit i = false) : a < 2 ^ n :=
  Nat.lt_pow_two_of_testBit a h

/-! ### XOR over a set -/

@[simp] theorem xorOver_nil (f : Nat → Bool) : xorOver [] f = false := rfl

@[simp] theorem xorOver_cons (t : Nat) (T : List Nat) (f : Nat → Bool) :
    xorOver (t :: T) f = (f t ^^ xorOver T f) := rfl

@[simp] theorem xorOver_append (S T : List Nat) (f : Nat → Bool) :
    xorOver (S ++ T) f = (xorOver S f ^^ xorOver T f) := by
  induction S with
  | nil => simp
  | cons t S ih => simp [ih]

theorem xorOver_congr {T : List Nat} {f g : Nat → Bool} (h : ∀ t ∈ T, f t = g t) :
    xorOver T f = xorOver T g := by
  induction T with
  | nil => rfl
  | cons t T ih => simp_all

theorem xorOver_xor (T : List Nat) (f g : Nat → Bool) :
    xorOver T (fun t => f t ^^ g t) = (xorOver T f ^^ xorOver T g) := by
  induction T with
  | nil => rfl
  | cons t T ih => rw [xorOver_cons, xorOver_cons, xorOver_cons, ih]; cases f t <;> cases g t <;> simp

/-- The XOR of `f` over a list is whether an odd number of its elements satisfy `f`. -/
theorem xorOver_eq_odd (T : List Nat) (f : Nat → Bool) :
    xorOver T f = ((T.filter f).length % 2 == 1) := by
  induction T with
  | nil => rfl
  | cons t T ih =>
    rw [xorOver_cons, ih, List.filter_cons]
    cases hf : f t
    · simp
    · simp only [if_true, List.length_cons, Bool.true_xor]
      rcases Nat.mod_two_eq_zero_or_one (T.filter f).length with h | h <;> simp [Nat.add_mod, h]

/-! ### Set bits and tap sets -/

theorem mem_setBits {v p : Nat} : p ∈ setBits v ↔ v.testBit p = true := by
  simp only [setBits, List.mem_filter, List.mem_range, and_iff_right_iff_imp]
  intro h
  have : 2 ^ p ≤ v := Nat.ge_two_pow_of_testBit h
  have hv : v ≠ 0 := by have := Nat.two_pow_pos p; omega
  exact Nat.lt_succ_of_le ((Nat.le_log2 hv).2 this)

theorem setBits_pairwise (v : Nat) : (setBits v).Pairwise (· < ·) :=
  List.Pairwise.filter _ List.pairwise_lt_range

theorem mem_tapSet {taps t : Nat} : t ∈ tapSet taps ↔ 1 ≤ t ∧ taps.testBit (t - 1) = true := by
  simp only [tapSet, List.mem_map, mem_setBits]
  constructor
  · rintro ⟨p, hp, rfl⟩; simpa using hp
  · rintro ⟨h1, ht⟩; exact ⟨t - 1, ht, by omega⟩

@[simp] theorem tapmask_nil : tapmask [] = 0 := rfl

@[simp] theorem tapmask_cons (t : Nat) (T : List Nat) : tapmask (t :: T) = e (t - 1) ^^^ tapmask T := rfl

/-- Bit p of tapmask(T) is set exactly when p + 1 is a tap. -/
theorem testBit_tapmask {T : List Nat} (hn : T.Nodup) (h1 : ∀ t ∈ T, 1 ≤ t) (p : Nat) :
    (tapmask T).testBit p = decide (p + 1 ∈ T) := by
  induction T with
  | nil => simp
  | cons t T ih =>
    simp only [List.nodup_cons, List.mem_cons, forall_eq_or_imp] at hn h1
    rw [tapmask_cons, Nat.testBit_xor, ih hn.2 h1.2, testBit_e]
    by_cases hp : t - 1 = p
    · subst hp
      have : t - 1 + 1 = t := by omega
      simp [this, hn.1]
    · have : p + 1 ≠ t := by omega
      simp [hp, this]

/-! ### Parity -/

theorem parity_eq_xorOver {v n : Nat} (h : v < 2 ^ n) : parity v = xorOver (List.range n) v.testBit := by
  rw [xorOver_eq_odd, parity]
  congr 2
  refine (List.Perm.length_eq ?_)
  rw [List.perm_ext_iff_of_nodup (setBits_pairwise v).nodup (List.nodup_range.filter _)]
  intro p
  simp only [mem_setBits, List.mem_filter, List.mem_range, iff_and_self]
  intro hp
  by_contra hc
  rw [Nat.testBit_lt_two_pow (lt_of_lt_of_le h (Nat.pow_le_pow_right (by norm_num) (by omega)))] at hp
  exact absurd hp (by simp)

theorem parity_xor (a b : Nat) : parity (a ^^^ b) = (parity a ^^ parity b) := by
  obtain ⟨n, ha, hb⟩ : ∃ n, a < 2 ^ n ∧ b < 2 ^ n := by
    refine ⟨max a b, ?_, ?_⟩
    · exact lt_of_lt_of_le Nat.lt_two_pow_self (Nat.pow_le_pow_right (by norm_num) (le_max_left ..))
    · exact lt_of_lt_of_le Nat.lt_two_pow_self (Nat.pow_le_pow_right (by norm_num) (le_max_right ..))
  rw [parity_eq_xorOver (Nat.xor_lt_two_pow ha hb), parity_eq_xorOver ha, parity_eq_xorOver hb,
    ← xorOver_xor]
  exact xorOver_congr fun t _ => Nat.testBit_xor ..

@[simp] theorem parity_zero : parity 0 = false := by decide

/-- The parity of `buf` under a single bit is that bit of `buf`. -/
theorem parity_and_e (buf p : Nat) : parity (buf &&& e p) = buf.testBit p := by
  have hset : setBits (buf &&& e p) = if buf.testBit p then [p] else [] := by
    refine (setBits_pairwise _).eq_of_mem_iff (by split <;> simp) fun q => ?_
    rw [mem_setBits, Nat.testBit_and, testBit_e]
    split <;> rename_i h <;> by_cases hq : p = q <;> (simp_all; try omega)
  rw [parity, hset]
  split <;> simp_all

/-! ### Bytes -/

/-- `r | (x << b)` sets bit b of a byte where `x` is true. -/
theorem getLsbD_or_bit (r : Byte) (x : Bool) (b i : Nat) (hi : i < 8) :
    (r ||| ((BitVec.ofBool x).setWidth 8 <<< b)).getLsbD i =
      (r.getLsbD i || (decide (i = b) && x)) := by
  simp only [BitVec.getLsbD_or, BitVec.getLsbD_shiftLeft, BitVec.getLsbD_setWidth,
    BitVec.getLsbD_ofBool]
  by_cases h : i < b
  · have : i ≠ b := by omega
    simp [h, this, hi]
  · by_cases h2 : i = b
    · subst h2; simp [hi]
    · have : i - b ≠ 0 := by omega
      simp [h, h2, hi, this]

@[simp] theorem getLsbD_packByte (f : Nat → Bool) {b : Nat} (hb : b < 8) :
    (packByte f).getLsbD b = f b := by
  have key : ∀ n, ∀ i < 8, ((List.range n).foldl
      (fun r b => r ||| ((BitVec.ofBool (f b)).setWidth 8 <<< b)) 0#8).getLsbD i =
        (decide (i < n) && f i) := by
    intro n
    induction n with
    | zero => simp
    | succ n ih =>
      intro i hi
      rw [List.range_succ, List.foldl_append, List.foldl_cons, List.foldl_nil,
        getLsbD_or_bit _ _ _ _ hi, ih i hi]
      by_cases h : i = n
      · subst h; simp
      · by_cases h2 : i < n
        · simp [h, h2, show i < n + 1 by omega]
        · simp [h, h2, show ¬i < n + 1 by omega]
  rw [packByte, key 8 b hb]; simp [hb]

@[simp] theorem vec8_getD (f : Nat → Nat) {b : Nat} (hb : b < 8) : (vec8 f).getD b 0 = f b := by
  simp [vec8, Vector.getD, hb]

end Sys2Proof.Machine
end

