-- ==== Sys2Proof/Laws/Decode.lean ====
section
/-! SUPPORT. The columns of a command word, its fields, and what matching a row of the opcode map says of
its bits. -/

namespace Sys2Proof

open Machine

theorem getLsbD_columns (hi mid lo : Field16) (data : Byte) (slot op : BitVec 4) (i : Nat) :
    (columns hi mid lo data slot op).getLsbD i =
      if i < 4 then op.getLsbD i else if i < 8 then slot.getLsbD (i - 4)
      else if i < 16 then data.getLsbD (i - 8) else if i < 32 then lo.getLsbD (i - 16)
      else if i < 48 then mid.getLsbD (i - 32) else hi.getLsbD (i - 48) := by
  simp only [columns, BitVec.getLsbD_append, Nat.sub_sub]
  split <;> [rfl; skip]
  by_cases h8 : i < 8
  · simp [h8, show i - 4 < 4 by omega]
  by_cases h16 : i < 16
  · simp [h8, h16, show ¬i - 4 < 4 by omega, show i - 8 < 8 by omega]
  by_cases h32 : i < 32
  · simp [h8, h16, h32, show ¬i - 4 < 4 by omega, show ¬i - 8 < 8 by omega,
      show i - 16 < 16 by omega]
  by_cases h48 : i < 48
  · simp [h8, h16, h32, h48, show ¬i - 4 < 4 by omega, show ¬i - 8 < 8 by omega,
      show ¬i - 16 < 16 by omega, show i - 32 < 16 by omega]
  · simp [h8, h16, h32, h48, show ¬i - 4 < 4 by omega, show ¬i - 8 < 8 by omega,
      show ¬i - 16 < 16 by omega, show ¬i - 32 < 16 by omega]

section Fields

variable (hi mid lo : Field16) (data : Byte) (slot op : BitVec 4)

@[simp] theorem opField_columns : opField (columns hi mid lo data slot op) = op := by
  refine BitVec.eq_of_getLsbD_eq fun i h => ?_
  simp only [opField, BitVec.getLsbD_extractLsb', getLsbD_columns]
  simp (disch := omega) only [if_pos, h, decide_true, Bool.true_and, Nat.zero_add, ite_true]

@[simp] theorem slotField_columns : slotField (columns hi mid lo data slot op) = slot := by
  refine BitVec.eq_of_getLsbD_eq fun i h => ?_
  simp only [slotField, BitVec.getLsbD_extractLsb', getLsbD_columns]
  simp (disch := omega) only [if_pos, if_neg, h, decide_true, Bool.true_and, Nat.add_sub_cancel_left]

@[simp] theorem dataField_columns : dataField (columns hi mid lo data slot op) = data := by
  refine BitVec.eq_of_getLsbD_eq fun i h => ?_
  simp only [dataField, BitVec.getLsbD_extractLsb', getLsbD_columns]
  simp (disch := omega) only [if_pos, if_neg, h, decide_true, Bool.true_and, Nat.add_sub_cancel_left]

@[simp] theorem lenField_columns : lenField (columns hi mid lo data slot op) = lo := by
  refine BitVec.eq_of_getLsbD_eq fun i h => ?_
  simp only [lenField, BitVec.getLsbD_extractLsb', getLsbD_columns]
  simp (disch := omega) only [if_pos, if_neg, h, decide_true, Bool.true_and, Nat.add_sub_cancel_left]

@[simp] theorem tapField_columns : tapField (columns hi mid lo data slot op) = lo :=
  lenField_columns hi mid lo data slot op

@[simp] theorem srcField_columns : srcField (columns hi mid lo data slot op) = mid := by
  refine BitVec.eq_of_getLsbD_eq fun i h => ?_
  simp only [srcField, BitVec.getLsbD_extractLsb', getLsbD_columns]
  simp (disch := omega) only [if_pos, if_neg, h, decide_true, Bool.true_and, Nat.add_sub_cancel_left]

@[simp] theorem addrField_columns : addrField (columns hi mid lo data slot op) = mid :=
  srcField_columns hi mid lo data slot op

@[simp] theorem dstField_columns : dstField (columns hi mid lo data slot op) = hi := by
  refine BitVec.eq_of_getLsbD_eq fun i h => ?_
  simp only [dstField, BitVec.getLsbD_extractLsb', getLsbD_columns]
  simp (disch := omega) only [if_neg, h, decide_true, Bool.true_and, Nat.add_sub_cancel_left]

@[simp] theorem kindField_columns : kindField (columns hi mid lo data slot op) = data.setWidth 2 := by
  refine BitVec.eq_of_getLsbD_eq fun i h => ?_
  simp only [kindField, BitVec.getLsbD_extractLsb', getLsbD_columns, BitVec.getLsbD_setWidth]
  simp (disch := omega) only [if_pos, if_neg, h, decide_true, Bool.true_and, Nat.add_sub_cancel_left]

@[simp] theorem dbitField_columns : dbitField (columns hi mid lo data slot op) = data.getLsbD 0 := by
  rw [dbitField, getLsbD_columns]; rfl

end Fields

/-- Every word is made of its columns. -/
theorem columns_fields (w : CmdWord) :
    columns (dstField w) (srcField w) (lenField w) (dataField w) (slotField w) (opField w) = w := by
  refine BitVec.eq_of_getLsbD_eq fun i hi => ?_
  simp only [opField, slotField, dataField, lenField, srcField, dstField, getLsbD_columns,
    BitVec.getLsbD_extractLsb']
  split_ifs <;>
    simp (disch := omega) only [decide_eq_true, Bool.true_and, Nat.zero_add, Nat.add_sub_cancel']

/-- The mask of a row covers OP and the reserved-zero bits of its format, and its match is the opcode. -/
theorem opcodeRow_bits {op : Nat} {m k : CmdWord} (h : opcodeRow op = some (m, k)) :
    op < 13 ∧ ∀ p < 64, k.getLsbD p = (decide (p < 4) || reservedZero op p) ∧
      m.getLsbD p = (decide (p < 4) && op.testBit p) := by
  have hlt : op < 13 := by
    by_contra hc
    obtain ⟨q, rfl⟩ : ∃ q, op = q + 13 := ⟨op - 13, by omega⟩
    simp [opcodeRow] at h
  refine ⟨hlt, ?_⟩
  have all : ∀ op < 13, ∀ p < 64, (opcodeRow op).all (fun r =>
      r.2.getLsbD p == (decide (p < 4) || reservedZero op p) &&
        r.1.getLsbD p == (decide (p < 4) && op.testBit p)) = true := by decide
  intro p hp
  have := all op hlt p hp
  simpa [h] using this

/-- An assigned opcode has a row. -/
theorem opcodeRow_some {op : Nat} (h : op < 13) : ∃ m k, opcodeRow op = some (m, k) := by
  have all : ∀ op < 13, (opcodeRow op).isSome = true := by decide
  obtain ⟨r, hr⟩ := Option.isSome_iff_exists.1 (all op h)
  exact ⟨r.1, r.2, hr⟩

/-- Matching a row: the word has its opcode and no 1 in a reserved-zero bit of its format. -/
theorem and_mask_eq_match {op : Nat} {m k : CmdWord} (h : opcodeRow op = some (m, k)) (w : CmdWord) :
    w &&& k = m ↔ (opField w).toNat = op ∧ ∀ p < 64, reservedZero op p = true → w.getLsbD p = false := by
  obtain ⟨hlt, hb⟩ := opcodeRow_bits h
  have low : ∀ op < 13, ∀ p < 64, p < 4 → reservedZero op p = false := by decide
  have hop : (opField w).toNat = op ↔ ∀ p < 4, w.getLsbD p = op.testBit p := by
    have hn : (BitVec.ofNat 4 op).toNat = op := by simp; omega
    have heq : (opField w).toNat = op ↔ opField w = BitVec.ofNat 4 op :=
      ⟨fun he => BitVec.eq_of_toNat_eq (he.trans hn.symm), fun he => by rw [he, hn]⟩
    rw [heq]
    constructor
    · intro he p hp
      have := congrArg (fun v : BitVec 4 => v.getLsbD p) he
      simp only [opField, BitVec.getLsbD_extractLsb', BitVec.getLsbD_ofNat, hp, decide_true,
        Bool.true_and, Nat.zero_add] at this
      exact this
    · intro he
      refine BitVec.eq_of_getLsbD_eq fun p hp => ?_
      simp only [opField, BitVec.getLsbD_extractLsb', BitVec.getLsbD_ofNat, hp, decide_true,
        Bool.true_and, Nat.zero_add]
      exact he p hp
  rw [hop]
  constructor
  · intro he
    have bit : ∀ p < 64, (w.getLsbD p && k.getLsbD p) = m.getLsbD p := fun p _ => by
      rw [← BitVec.getLsbD_and, he]
    constructor
    · intro p hp
      have := bit p (by omega)
      rw [(hb p (by omega)).1, (hb p (by omega)).2] at this
      simpa [hp] using this
    · intro p hp hz
      have := bit p hp
      have hp4 : ¬p < 4 := fun hc => by simp [low op hlt p hp hc] at hz
      rw [(hb p hp).1, (hb p hp).2, hz] at this
      simpa [hp4] using this
  · rintro ⟨h1, h2⟩
    refine BitVec.eq_of_getLsbD_eq fun p hp => ?_
    rw [BitVec.getLsbD_and, (hb p hp).1, (hb p hp).2]
    by_cases hp4 : p < 4
    · simp [hp4, h1 p hp4]
    · cases hz : reservedZero op p
      · simp [hp4]
      · simp [hp4, h2 p hp hz]

end Sys2Proof
end

