-- ==== Sys2Proof/Laws/Engine.lean ====
section
/-! SUPPORT. What the engine functions do, bit by bit. -/

namespace Sys2Proof.Machine

/-! ### Small numbers and shifts -/

theorem testBit_boolToNat (x : Bool) (i : Nat) : x.toNat.testBit i = (decide (i = 0) && x) := by
  cases x <;> simp
  cases i <;> simp [Nat.testBit_succ]

theorem testBit_of_lt {a n i : Nat} (h : a < 2 ^ n) (hi : n ≤ i) : a.testBit i = false :=
  Nat.testBit_lt_two_pow (lt_of_lt_of_le h (Nat.pow_le_pow_right (by norm_num) hi))

/-! ### Fibonacci -/

theorem Fib.testBit_shiftIn (d reg : Nat) (x : Bool) (i : Nat) :
    (Fib.shiftIn d reg x).testBit i =
      (decide (i < d) && if i = 0 then x else reg.testBit (i - 1)) := by
  simp only [Fib.shiftIn, Nat.testBit_and, Nat.testBit_or, Nat.testBit_shiftLeft, testBit_mask,
    testBit_boolToNat]
  rcases Nat.eq_zero_or_pos i with rfl | hi
  · simp [Bool.and_comm]
  · have : i ≠ 0 := by omega
    simp [this, show 1 ≤ i by omega, Bool.and_comm]

theorem Fib.shiftIn_lt (d reg : Nat) (x : Bool) : Fib.shiftIn d reg x < 2 ^ d :=
  lt_two_pow_of_testBit fun i hi => by simp [Fib.testBit_shiftIn, Nat.not_lt.2 hi]

/-! ### Galois -/

theorem Gal.testBit_advance {M d reg : Nat} {f : Bool} (hd : 1 ≤ d) (i : Nat) :
    (Gal.advance M d reg f).testBit i =
      if i + 1 < d then (reg.testBit (i + 1) ^^ (f && M.testBit i)) else (decide (i + 1 = d) && f) := by
  have hmix : (if f then reg >>> 1 ^^^ M else reg >>> 1).testBit i =
      (reg.testBit (i + 1) ^^ (f && M.testBit i)) := by
    cases f <;> simp [Nat.testBit_shiftRight, Nat.add_comm]
  simp only [Gal.advance, Nat.testBit_or, Nat.testBit_and, Nat.testBit_shiftLeft, testBit_mask,
    testBit_boolToNat, hmix]
  by_cases h : i + 1 < d
  · simp [h, show i < d - 1 by omega, show ¬d - 1 ≤ i by omega]
  · by_cases h2 : i + 1 = d
    · simp [h2, show ¬i < d - 1 by omega, show d - 1 ≤ i by omega, show i - (d - 1) = 0 by omega]
    · simp [h, h2, show ¬i < d - 1 by omega, show ¬i - (d - 1) = 0 by omega]

theorem Gal.advance_lt {M d reg : Nat} {f : Bool} (hd : 1 ≤ d) : Gal.advance M d reg f < 2 ^ d :=
  lt_two_pow_of_testBit fun i hi => by
    rw [Gal.testBit_advance hd]; simp [show ¬i + 1 < d by omega, show ¬i + 1 = d by omega]

/-! ### Bulk -/

theorem Bulk.testBit_load (d buf : Nat) (v : Byte) (i : Nat) :
    (Bulk.load d buf v).testBit i = (buf.testBit (i + 8) || (decide (d ≤ i) && v.getLsbD (i - d))) := by
  simp only [Bulk.load, Nat.testBit_or, Nat.testBit_shiftRight, Nat.testBit_shiftLeft, Nat.add_comm 8,
    BitVec.testBit_toNat, ge_iff_le]

theorem Bulk.testBit_shiftIn (d buf : Nat) (x : Bool) (i : Nat) :
    (Bulk.shiftIn d buf x).testBit i = (buf.testBit (i + 1) || (decide (i = d + 7) && x)) := by
  simp only [Bulk.shiftIn, Nat.testBit_or, Nat.testBit_shiftRight, Nat.testBit_shiftLeft, Nat.add_comm 1,
    testBit_boolToNat, ge_iff_le]
  by_cases h : i = d + 7
  · simp [h]
  · by_cases h2 : d + 7 ≤ i
    · simp [h, show ¬i - (d + 7) = 0 by omega]
    · simp [h, h2]

theorem Bulk.load_lt {d buf : Nat} {v : Byte} (h : buf < 2 ^ (d + 8)) : Bulk.load d buf v < 2 ^ (d + 8) :=
  lt_two_pow_of_testBit fun i hi => by
    rw [Bulk.testBit_load, testBit_of_lt h (by omega), BitVec.getLsbD_of_ge _ _ (by omega)]; simp

theorem Bulk.shiftIn_lt {d buf : Nat} {x : Bool} (h : buf < 2 ^ (d + 8)) :
    Bulk.shiftIn d buf x < 2 ^ (d + 8) :=
  lt_two_pow_of_testBit fun i hi => by
    rw [Bulk.testBit_shiftIn, testBit_of_lt h (by omega)]; simp [show ¬i = d + 7 by omega]

/-! ### Tap sets -/

theorem tapSet_pairwise (taps : Nat) : (tapSet taps).Pairwise (· < ·) := by
  rw [tapSet, List.pairwise_map]
  exact (setBits_pairwise taps).imp fun h => by omega

theorem tapSet_nodup (taps : Nat) : (tapSet taps).Nodup := (tapSet_pairwise taps).nodup

/-- The taps of a configured slot lie in 1 .. d, and d is one of them. -/
theorem Slot.Engine.taps_range {dmax : Nat} {sl : Slot} (h : sl.Engine dmax) :
    (∀ t ∈ sl.tapList, 1 ≤ t ∧ t ≤ sl.deg) ∧ sl.deg ∈ sl.tapList := by
  refine ⟨fun t ht => ?_, mem_tapSet.2 ⟨h.deg_pos, h.top_tap⟩⟩
  obtain ⟨h1, hb⟩ := mem_tapSet.1 ht
  refine ⟨h1, ?_⟩
  by_contra hc
  rw [testBit_of_lt h.taps_lt (by omega)] at hb
  exact absurd hb (by simp)

theorem taps_eq_tapmask {taps : Nat} : tapmask (tapSet taps) = taps := by
  refine Nat.eq_of_testBit_eq fun p => ?_
  rw [testBit_tapmask (tapSet_nodup taps) (fun t ht => (mem_tapSet.1 ht).1)]
  simp [mem_tapSet]

/-- The tap set of a tap mask is the set it was made from. -/
theorem tapSet_tapmask {T : List Nat} (hs : T.Pairwise (· < ·)) (h1 : ∀ t ∈ T, 1 ≤ t) :
    tapSet (tapmask T) = T := by
  refine (tapSet_pairwise _).eq_of_mem_iff hs fun t => ?_
  rw [mem_tapSet, testBit_tapmask hs.nodup h1]
  constructor
  · rintro ⟨ht, hm⟩
    rwa [decide_eq_true_eq, show t - 1 + 1 = t by omega] at hm
  · intro ht
    have := h1 t ht
    exact ⟨this, by rwa [decide_eq_true_eq, show t - 1 + 1 = t by omega]⟩

/-! ### Φ and the stream bits a register remembers -/

theorem testBit_ofBits (n : Nat) (f : Nat → Bool) (i : Nat) :
    (ofBits n f).testBit i = (decide (i < n) && f i) := by
  have key : ∀ L : List Nat, (L.foldr (fun i acc => ((f i).toNat <<< i) ||| acc) 0).testBit i =
      (decide (i ∈ L) && f i) := by
    intro L
    induction L with
    | nil => simp
    | cons k L ih =>
      rw [List.foldr_cons, Nat.testBit_or, ih, Nat.testBit_shiftLeft, testBit_boolToNat]
      by_cases h : i = k
      · subst h; cases f i <;> simp
      · by_cases h2 : k ≤ i
        · simp [h, show ¬i - k = 0 by omega]
        · simp [h, h2]
  rw [ofBits, key]; simp

theorem ofBits_lt (n : Nat) (f : Nat → Bool) : ofBits n f < 2 ^ n :=
  lt_two_pow_of_testBit fun i hi => by simp [testBit_ofBits, Nat.not_lt.2 hi]

theorem testBit_phi (T : List Nat) (d F j : Nat) : (phi T d F).testBit j =
    (decide (j < d) && xorOver (T.filter (j < ·)) fun t => F.testBit (t - 1 - j)) := testBit_ofBits ..

theorem xorOver_filter (T : List Nat) (p f : Nat → Bool) :
    xorOver (T.filter p) f = xorOver T fun t => p t && f t := by
  induction T with
  | nil => rfl
  | cons t T ih => rw [List.filter_cons, xorOver_cons, ← ih]; cases p t <;> simp

theorem xorOver_eq_mem {T : List Nat} (hn : T.Nodup) (k : Nat) (x : Bool) :
    xorOver T (fun t => decide (t = k) && x) = (decide (k ∈ T) && x) := by
  induction T with
  | nil => simp
  | cons t T ih =>
    rw [List.nodup_cons] at hn
    rw [xorOver_cons, ih hn.2]
    by_cases h : t = k
    · subst h; simp [hn.1]
    · simp [h, Ne.symm h]

/-- Advancing the Galois register on `f` is shifting `f` into the stream bits it stands for. -/
theorem Gal.advance_phi {T : List Nat} {d M F : Nat} {f : Bool} (hn : T.Nodup) (hd : 1 ≤ d)
    (hr : ∀ t ∈ T, 1 ≤ t ∧ t ≤ d) (hm : d ∈ T) (hM : ∀ p, M.testBit p = decide (p + 1 ∈ T)) :
    Gal.advance M d (phi T d F) f = phi T d (Fib.shiftIn d F f) := by
  refine Nat.eq_of_testBit_eq fun j => ?_
  have hsum : ∀ j, j < d → xorOver T (fun t => decide (j < t) && (Fib.shiftIn d F f).testBit (t - 1 - j)) =
      (xorOver T (fun t => decide (j + 1 < t) && F.testBit (t - 1 - (j + 1))) ^^
        (decide (j + 1 ∈ T) && f)) := by
    intro j hj
    rw [← xorOver_eq_mem hn, ← xorOver_xor]
    refine xorOver_congr fun t ht => ?_
    have := hr t ht
    rw [Fib.testBit_shiftIn]
    by_cases h1 : j < t
    · by_cases h2 : t = j + 1
      · subst h2; simp; omega
      · simp [h1, h2, show ¬t - 1 - j = 0 by omega, show t - 1 - j < d by omega,
          show j + 1 < t by omega, show t - 1 - (j + 1) = t - 1 - j - 1 by omega]
    · simp [h1, show ¬j + 1 < t by omega, show ¬t = j + 1 by omega]
  rw [Gal.testBit_advance hd, testBit_phi, testBit_phi, xorOver_filter, xorOver_filter, hM]
  by_cases h : j + 1 < d
  · rw [hsum j (by omega)]
    simp [h, show j < d by omega, Bool.and_comm]
  · by_cases h2 : j + 1 = d
    · rw [hsum j (by omega)]
      have : xorOver T (fun t => decide (j + 1 < t) && F.testBit (t - 1 - (j + 1))) = false := by
        rw [xorOver_congr (g := fun _ => false)]
        · clear * -; induction T <;> simp_all
        · intro t ht; have := hr t ht; simp [show ¬j + 1 < t by omega]
      rw [this]
      simp [h2, hm, show j < d by omega]
    · simp [h, h2, show ¬j < d by omega]

/-! ### The engine of a slot -/

/-- A Galois slot's mask has the bits its taps give. -/
theorem Slot.Engine.gmask_bits {dmax : Nat} {sl : Slot} (h : sl.Engine dmax) (hk : sl.kind = .gal) (p : Nat) :
    sl.gmask.testBit p = decide (p + 1 ∈ sl.tapList) := by
  rw [h.gmask_eq hk, Slot.tapList]
  simp [mem_tapSet]

/-- The register of a slot after the stream bit `f` has been shifted in. -/
def Slot.shift (sl : Slot) (f : Bool) : Nat :=
  match sl.kind with
  | .fib => Fib.shiftIn sl.deg sl.reg f
  | .gal => Gal.advance sl.gmask sl.deg sl.reg f
  | .bulk => Bulk.shiftIn sl.deg sl.reg f

/-- SCRB shifts in its output bit. -/
theorem Slot.sbit_reg (sl : Slot) (x : Bool) : (sl.sbit x).1 = sl.shift (sl.sbit x).2 := by
  unfold Slot.sbit Slot.shift
  cases sl.kind <;> rfl

/-- DSCB shifts in its input bit, and its output is the one SCRB would give. -/
theorem Slot.dbit_eq (sl : Slot) (x : Bool) : sl.dbit x = (sl.shift x, (sl.sbit x).2) := by
  unfold Slot.sbit Slot.dbit Slot.shift
  cases sl.kind <;> rfl

/-- The output bit, in terms of the stream bits `F` the register remembers. -/
theorem Slot.Engine.sbit_output {dmax F : Nat} {sl : Slot} (h : sl.Engine dmax) (hF : sl.Remembers F)
    (x : Bool) : (sl.sbit x).2 = (x ^^ Fib.feedback sl.tapList F) := by
  have hr := h.taps_range.1
  unfold Slot.Remembers at hF
  unfold Slot.sbit
  cases hk : sl.kind <;> simp only [hk] at hF ⊢
  · rw [hF]; rfl
  · rw [Gal.sbit, hF, testBit_phi, xorOver_filter, Bool.xor_comm]
    simp only [decide_eq_true (show 0 < sl.deg from h.deg_pos), Bool.true_and]
    congr 1
    refine xorOver_congr fun t ht => ?_
    simp [show 0 < t from (hr t ht).1]
  · show (x ^^ Bulk.feedback sl.tapList sl.deg sl.reg) = _
    congr 1
    refine xorOver_congr fun t ht => ?_
    have := hr t ht
    rw [← hF (t - 1) (by omega), show sl.deg + 7 - (t - 1) = sl.deg + 8 - t by omega]

/-- Shifting a bit into the register shifts it into the stream bits the register remembers. -/
theorem Slot.Engine.shift_remembers {dmax F : Nat} {sl : Slot} (h : sl.Engine dmax) (hF : sl.Remembers F)
    (f : Bool) : ({ sl with reg := sl.shift f } : Slot).Remembers (Fib.shiftIn sl.deg F f) := by
  have hd := h.deg_pos
  have hw := h.reg_lt
  unfold Slot.width at hw
  unfold Slot.Remembers at hF ⊢
  unfold Slot.shift
  cases hk : sl.kind <;> simp only [hk] at hF hw ⊢
  · rw [hF]
  · rw [hF]
    exact Gal.advance_phi (tapSet_nodup _) hd h.taps_range.1 h.taps_range.2 (h.gmask_bits hk)
  · intro i hi
    rw [Bulk.testBit_shiftIn, Fib.testBit_shiftIn]
    rcases Nat.eq_zero_or_pos i with rfl | h0
    · rw [testBit_of_lt hw (by omega)]; simp [hi]
    · rw [show sl.deg + 7 - i + 1 = sl.deg + 7 - (i - 1) by omega, hF (i - 1) (by omega)]
      simp [hi, show ¬i = 0 by omega, show ¬sl.deg + 7 - i = sl.deg + 7 by omega]

/-- The register keeps its used width. -/
theorem Slot.Engine.shift_lt {dmax : Nat} {sl : Slot} (h : sl.Engine dmax) (f : Bool) :
    sl.shift f < 2 ^ sl.width := by
  have hw := h.reg_lt
  unfold Slot.width at hw ⊢
  unfold Slot.shift
  cases hk : sl.kind <;> simp only [hk] at hw ⊢
  · exact Fib.shiftIn_lt ..
  · exact Gal.advance_lt h.deg_pos
  · exact Bulk.shiftIn_lt hw

/-- An engine with another register within its used width is an engine. -/
theorem Slot.Engine.withReg {dmax r : Nat} {sl : Slot} (h : sl.Engine dmax) (hr : r < 2 ^ sl.width) :
    ({ sl with reg := r } : Slot).Engine dmax :=
  ⟨h.deg_pos, h.deg_le, h.top_tap, h.taps_lt, hr, h.gmask_eq, h.sdeps_eq, h.ddeps_eq⟩

/-! ### Byte operations as eight bit operations -/

/-- `k` bits of `v` through a bit operation, from bit 0 on: the register and the output bits. -/
def serialBits (op : Nat → Bool → Nat × Bool) (v : Nat → Bool) (reg : Nat) : Nat → Nat × (Nat → Bool)
  | 0 => (reg, fun _ => false)
  | k + 1 =>
    let prev := serialBits op v reg k
    let out := op prev.1 (v k)
    (out.1, fun b => if b = k then out.2 else prev.2 b)

/-- The byte operation of a bit-serial engine is eight bit operations. -/
theorem serialByte_eq (op : Nat → Bool → Nat × Bool) (reg : Nat) (v : Byte) :
    (serialByte op reg v).1 = (serialBits op v.getLsbD reg 8).1 ∧
      ∀ b < 8, (serialByte op reg v).2.getLsbD b = (serialBits op v.getLsbD reg 8).2 b := by
  have key : ∀ k, ((List.range k).foldl
      (fun acc b => ((op acc.1 (v.getLsbD b)).1,
        acc.2 ||| ((BitVec.ofBool (op acc.1 (v.getLsbD b)).2).setWidth 8 <<< b))) (reg, 0#8)).1 =
        (serialBits op v.getLsbD reg k).1 ∧
      ∀ b < 8, ((List.range k).foldl
      (fun acc b => ((op acc.1 (v.getLsbD b)).1,
        acc.2 ||| ((BitVec.ofBool (op acc.1 (v.getLsbD b)).2).setWidth 8 <<< b))) (reg, 0#8)).2.getLsbD b =
        (decide (b < k) && (serialBits op v.getLsbD reg k).2 b) := by
    intro k
    induction k with
    | zero => simp [serialBits]
    | succ k ih =>
      rw [List.range_succ, List.foldl_append, List.foldl_cons, List.foldl_nil]
      refine ⟨by rw [serialBits, ih.1], fun b hb => ?_⟩
      simp only [getLsbD_or_bit _ _ _ _ hb, ih.2 b hb, ih.1, serialBits]
      by_cases h : b = k
      · simp [h]
      · by_cases h2 : b < k
        · simp [h, h2, show b < k + 1 by omega]
        · simp [h, h2, show ¬b < k + 1 by omega]
  refine ⟨(key 8).1, fun b hb => ?_⟩
  have := (key 8).2 b hb
  rw [decide_eq_true hb, Bool.true_and] at this
  exact this

/-- Output bit b is the one bit step b gives. -/
theorem serialBits_output (op : Nat → Bool → Nat × Bool) (v : Nat → Bool) (reg : Nat) {b k : Nat} (h : b < k) :
    (serialBits op v reg k).2 b = (op (serialBits op v reg b).1 (v b)).2 := by
  induction k with
  | zero => omega
  | succ k ih =>
    simp only [serialBits]
    by_cases hb : b = k
    · simp [hb]
    · rw [if_neg hb]; exact ih (by omega)

/-! ### Dependency matrices -/

theorem sdepsList_succ (T : List Nat) (d : Nat) : ∀ k, ((List.range k).foldl
    (fun earlier i => earlier ++ [sdepMask T d i earlier]) []).length = k ∧ ∀ i < k,
    ((List.range k).foldl (fun earlier i => earlier ++ [sdepMask T d i earlier]) []).getD i 0 =
      sdepMask T d i ((List.range i).foldl (fun earlier i => earlier ++ [sdepMask T d i earlier]) []) := by
  intro k
  induction k with
  | zero => simp
  | succ k ih =>
    simp only [List.range_succ, List.foldl_append, List.foldl_cons, List.foldl_nil]
    refine ⟨by simp [ih.1], fun i hi => ?_⟩
    by_cases h : i = k
    · subst h
      rw [List.getD_append_right _ _ _ _ (by omega)]; simp [ih.1]
    · rw [List.getD_append _ _ _ _ (by rw [ih.1]; omega)]; exact ih.2 i (by omega)

/-- The scramble mask of pending bit `b`, from the masks of the pending bits before it. -/
theorem sdeps_eq (T : List Nat) (d : Nat) {b : Nat} (hb : b < 8) : ∃ earlier : List Nat,
    (sdeps T d).getD b 0 = sdepMask T d b earlier ∧
      ∀ i < b, earlier.getD i 0 = (sdeps T d).getD i 0 := by
  refine ⟨(List.range b).foldl (fun earlier i => earlier ++ [sdepMask T d i earlier]) [], ?_, fun i hi => ?_⟩
  · rw [sdeps, vec8_getD _ hb, sdepsList, (sdepsList_succ T d 8).2 b hb]
  · rw [sdeps, vec8_getD _ (by omega), sdepsList, (sdepsList_succ T d 8).2 i (by omega),
      (sdepsList_succ T d b).2 i hi]

theorem foldl_xor (T : List Nat) (f : Nat → Nat) (m : Nat) :
    T.foldl (fun m t => m ^^^ f t) m = m ^^^ T.foldl (fun m t => m ^^^ f t) 0 := by
  induction T generalizing m with
  | nil => simp
  | cons t T ih => rw [List.foldl_cons, List.foldl_cons, ih, ih (0 ^^^ f t)]; simp [Nat.xor_assoc]

/-- The parity of a buffer under a XOR of masks. -/
theorem parity_and_foldl (buf : Nat) (T : List Nat) (f : Nat → Nat) (m : Nat) :
    parity (buf &&& T.foldl (fun m t => m ^^^ f t) m) =
      (parity (buf &&& m) ^^ xorOver T fun t => parity (buf &&& f t)) := by
  induction T generalizing m with
  | nil => simp
  | cons t T ih => rw [List.foldl_cons, ih, Nat.and_xor_distrib_left, parity_xor, xorOver_cons]; simp

/-- Bit p of a XOR of masks. -/
theorem testBit_foldl (T : List Nat) (f : Nat → Nat) (m p : Nat) :
    (T.foldl (fun m t => m ^^^ f t) m).testBit p = (m.testBit p ^^ xorOver T fun t => (f t).testBit p) := by
  induction T generalizing m with
  | nil => simp
  | cons t T ih => rw [List.foldl_cons, ih, Nat.testBit_xor, xorOver_cons]; simp

theorem sdepMask_foldl (T : List Nat) (d i : Nat) (earlier : List Nat) : sdepMask T d i earlier =
    T.foldl (fun m t => m ^^^ if d + i - t ≥ d then earlier.getD (d + i - t - d) 0 else e (d + i - t)) 0 ^^^
      e (d + i) := by
  rw [sdepMask]
  congr 2
  funext m t
  by_cases h : d + i - t ≥ d <;> simp only [h, if_true, if_false]

/-- The parity of a buffer under a scramble mask, by recursion on the pending bits. -/
theorem parity_sdeps {T : List Nat} {d : Nat} (hr : ∀ t ∈ T, 1 ≤ t ∧ t ≤ d) (buf : Nat) {b : Nat} (hb : b < 8) :
    parity (buf &&& (sdeps T d).getD b 0) = (buf.testBit (d + b) ^^ xorOver T fun t =>
      if t ≤ b then parity (buf &&& (sdeps T d).getD (b - t) 0) else buf.testBit (d + b - t)) := by
  obtain ⟨earlier, he, hi⟩ := sdeps_eq T d hb
  rw [he, sdepMask_foldl, Nat.and_xor_distrib_left, parity_xor, parity_and_foldl, parity_and_e, Bool.xor_comm]
  simp only [Nat.and_zero, parity_zero, Bool.false_xor]
  congr 1
  refine xorOver_congr fun t ht => ?_
  have := hr t ht
  by_cases h : t ≤ b
  · rw [if_pos h, if_pos (by omega), show d + b - t - d = b - t by omega, hi _ (by omega)]
  · rw [if_neg h, if_neg (by omega), parity_and_e]

/-- The parity of a buffer under a descramble mask. -/
theorem parity_ddeps (T : List Nat) (d buf : Nat) {b : Nat} (hb : b < 8) :
    parity (buf &&& (ddeps T d).getD b 0) =
      (buf.testBit (d + b) ^^ xorOver T fun t => buf.testBit (d + b - t)) := by
  rw [ddeps, vec8_getD _ hb, ddepMask, parity_and_foldl, parity_and_e]
  congr 1
  exact xorOver_congr fun t _ => parity_and_e ..

theorem getLsbD_lanes (M : Vector Nat 8) (buf : Nat) {b : Nat} (hb : b < 8) :
    (Bulk.lanes M buf).getLsbD b = parity (buf &&& M.getD b 0) := getLsbD_packByte _ hb

/-! ### A Bulk byte is eight Bulk bits -/

/-- The buffer after `k` bits of which `fed` were shifted in. -/
theorem Bulk.serial_reg {op : Nat → Bool → Nat × Bool} {d buf : Nat} {v fed : Nat → Bool}
    (hbuf : buf < 2 ^ (d + 8))
    (hop : ∀ k < 8, (op (serialBits op v buf k).1 (v k)).1 =
      Bulk.shiftIn d (serialBits op v buf k).1 (fed k)) {k : Nat} (hk : k ≤ 8) (p : Nat) :
    (serialBits op v buf k).1.testBit p =
      (buf.testBit (p + k) || (decide (d + 8 ≤ p + k ∧ p < d + 8) && fed (p + k - (d + 8)))) := by
  induction k generalizing p with
  | zero => simp [serialBits, show ¬(d + 8 ≤ p ∧ p < d + 8) by omega]
  | succ k ih =>
    rw [serialBits, hop k (by omega), Bulk.testBit_shiftIn, ih (by omega)]
    by_cases h : p = d + 7
    · subst h
      rw [testBit_of_lt hbuf (by omega), testBit_of_lt hbuf (by omega)]
      simp [show d + 7 + (k + 1) - (d + 8) = k by omega]
      omega
    · rw [show p + 1 + k = p + (k + 1) by omega]
      by_cases h2 : d + 8 ≤ p + (k + 1)
      · by_cases h3 : p < d + 7
        · simp [h, h2, show p + 1 < d + 8 by omega, show p < d + 8 by omega]
        · simp [h, h2, show ¬p + 1 < d + 8 by omega, show ¬p < d + 8 by omega]
      · simp [h, h2]

/-- The output bits of eight Bulk bit steps with the same feedback: the input bit XOR, for each tap, an
earlier shifted-in bit or a bit of the buffer before the byte. -/
theorem Bulk.serial_feedback {op : Nat → Bool → Nat × Bool} {T : List Nat} {d buf : Nat} {v fed : Nat → Bool}
    (hr : ∀ t ∈ T, 1 ≤ t ∧ t ≤ d) (hbuf : buf < 2 ^ (d + 8))
    (hop : ∀ k < 8, (op (serialBits op v buf k).1 (v k)).1 =
      Bulk.shiftIn d (serialBits op v buf k).1 (fed k)) {k : Nat} (hk : k < 8) :
    Bulk.feedback T d (serialBits op v buf k).1 =
      xorOver T fun t => if t ≤ k then fed (k - t) else buf.testBit (d + k - t + 8) := by
  refine xorOver_congr fun t ht => ?_
  have := hr t ht
  rw [Bulk.serial_reg hbuf hop (by omega)]
  by_cases h : t ≤ k
  · rw [if_pos h, testBit_of_lt hbuf (by omega), show d + 8 - t + k - (d + 8) = k - t by omega]
    simp; omega
  · rw [if_neg h, show d + k - t + 8 = d + 8 - t + k by omega]
    simp [show ¬d + 8 ≤ d + 8 - t + k by omega]

/-- The loaded buffer: the input byte at d .. d+7, the bits that remain below. -/
theorem Bulk.testBit_load_at {d buf : Nat} {v : Byte} (hbuf : buf < 2 ^ (d + 8)) (b : Nat) :
    (Bulk.load d buf v).testBit (d + b) = v.getLsbD b := by
  rw [Bulk.testBit_load, testBit_of_lt hbuf (by omega)]; simp

theorem Bulk.testBit_load_below {d buf : Nat} {v : Byte} {p : Nat} (hp : p < d) :
    (Bulk.load d buf v).testBit p = buf.testBit (p + 8) := by
  rw [Bulk.testBit_load]; simp [show ¬d ≤ p by omega]

/-- BULK.sbyte is eight BULK.sbit steps. -/
theorem Bulk.sbyte_eq {T : List Nat} {d buf : Nat} (hr : ∀ t ∈ T, 1 ≤ t ∧ t ≤ d) (hbuf : buf < 2 ^ (d + 8))
    (v : Byte) :
    (Bulk.sbyte (sdeps T d) d buf v).1 = (serialBits (Bulk.sbit T d) v.getLsbD buf 8).1 ∧
      ∀ b < 8, (Bulk.sbyte (sdeps T d) d buf v).2.getLsbD b =
        (serialBits (Bulk.sbit T d) v.getLsbD buf 8).2 b := by
  have hop : ∀ k < 8, (Bulk.sbit T d (serialBits (Bulk.sbit T d) v.getLsbD buf k).1 (v.getLsbD k)).1 =
      Bulk.shiftIn d (serialBits (Bulk.sbit T d) v.getLsbD buf k).1
        ((serialBits (Bulk.sbit T d) v.getLsbD buf 8).2 k) := by
    intro k hk
    rw [serialBits_output _ _ _ hk]; rfl
  have hout : ∀ b < 8, (Bulk.sbyte (sdeps T d) d buf v).2.getLsbD b =
      (serialBits (Bulk.sbit T d) v.getLsbD buf 8).2 b := by
    intro b
    induction b using Nat.strong_induction_on with
    | _ b ih =>
      intro hb
      rw [serialBits_output _ _ _ hb]
      show (Bulk.lanes (sdeps T d) (Bulk.load d buf v)).getLsbD b = (v.getLsbD b ^^ Bulk.feedback T d _)
      rw [Bulk.serial_feedback hr hbuf hop hb, getLsbD_lanes _ _ hb, parity_sdeps hr _ hb,
        Bulk.testBit_load_at hbuf]
      congr 1
      refine xorOver_congr fun t ht => ?_
      have := hr t ht
      by_cases h : t ≤ b
      · rw [if_pos h, if_pos h, ← ih (b - t) (by omega) (by omega)]
        exact (getLsbD_lanes _ _ (by omega)).symm
      · rw [if_neg h, if_neg h, Bulk.testBit_load_below (by omega)]
  refine ⟨Nat.eq_of_testBit_eq fun p => ?_, hout⟩
  rw [Bulk.serial_reg hbuf hop (Nat.le_refl 8)]
  show ((Bulk.load d buf v &&& mask d) ||| ((Bulk.sbyte (sdeps T d) d buf v).2.toNat <<< d)).testBit p = _
  rw [Nat.testBit_or, Nat.testBit_and, testBit_mask, Nat.testBit_shiftLeft, BitVec.testBit_toNat]
  by_cases hp : p < d
  · rw [Bulk.testBit_load_below hp]
    simp [hp, show ¬d ≤ p by omega]
  · rw [testBit_of_lt hbuf (by omega)]
    by_cases h8 : p - d < 8
    · rw [hout _ h8]
      simp [hp, show d ≤ p by omega, show p < d + 8 by omega, show p + 8 - (d + 8) = p - d by omega]
    · rw [BitVec.getLsbD_of_ge _ _ (by omega)]
      simp [hp, show ¬p < d + 8 by omega]

/-- BULK.dbyte is eight BULK.dbit steps. -/
theorem Bulk.dbyte_eq {T : List Nat} {d buf : Nat} (hr : ∀ t ∈ T, 1 ≤ t ∧ t ≤ d) (hbuf : buf < 2 ^ (d + 8))
    (v : Byte) :
    (Bulk.dbyte (ddeps T d) d buf v).1 = (serialBits (Bulk.dbit T d) v.getLsbD buf 8).1 ∧
      ∀ b < 8, (Bulk.dbyte (ddeps T d) d buf v).2.getLsbD b =
        (serialBits (Bulk.dbit T d) v.getLsbD buf 8).2 b := by
  have hop : ∀ k < 8, (Bulk.dbit T d (serialBits (Bulk.dbit T d) v.getLsbD buf k).1 (v.getLsbD k)).1 =
      Bulk.shiftIn d (serialBits (Bulk.dbit T d) v.getLsbD buf k).1 (v.getLsbD k) := fun _ _ => rfl
  refine ⟨Nat.eq_of_testBit_eq fun p => ?_, fun b hb => ?_⟩
  · rw [Bulk.serial_reg hbuf hop (Nat.le_refl 8)]
    show (Bulk.load d buf v).testBit p = _
    rw [Bulk.testBit_load]
    by_cases hp : p < d
    · simp [show ¬d ≤ p by omega]
    · by_cases h8 : p < d + 8
      · simp [show d ≤ p by omega, h8, show p + 8 - (d + 8) = p - d by omega]
      · rw [BitVec.getLsbD_of_ge _ _ (by omega)]; simp [h8]
  · rw [serialBits_output _ _ _ hb]
    show (Bulk.lanes (ddeps T d) (Bulk.load d buf v)).getLsbD b = (v.getLsbD b ^^ Bulk.feedback T d _)
    rw [Bulk.serial_feedback hr hbuf hop hb, getLsbD_lanes _ _ hb, parity_ddeps _ _ _ hb,
      Bulk.testBit_load_at hbuf]
    congr 1
    refine xorOver_congr fun t ht => ?_
    have := hr t ht
    by_cases h : t ≤ b
    · rw [if_pos h, show d + b - t = d + (b - t) by omega, Bulk.testBit_load_at hbuf]
    · rw [if_neg h, Bulk.testBit_load_below (by omega)]

/-! ### The byte operations of a slot -/

/-- The bit operation of a slot in a direction, as a function of its register. -/
def Slot.bitOp (sl : Slot) (dir : Direction) (reg : Nat) (x : Bool) : Nat × Bool :=
  match dir with
  | .scramble => ({ sl with reg := reg } : Slot).sbit x
  | .descramble => ({ sl with reg := reg } : Slot).dbit x

/-- The byte operation of a slot in a direction. -/
def Slot.byteOp (sl : Slot) (dir : Direction) (v : Byte) : Nat × Byte :=
  match dir with
  | .scramble => sl.sbyte v
  | .descramble => sl.dbyte v

/-- A byte operation of a configured slot is eight of its bit operations. -/
theorem Slot.Engine.byteOp_eq {dmax : Nat} {sl : Slot} (h : sl.Engine dmax) (dir : Direction) (v : Byte) :
    (sl.byteOp dir v).1 = (serialBits (sl.bitOp dir) v.getLsbD sl.reg 8).1 ∧
      ∀ b < 8, (sl.byteOp dir v).2.getLsbD b = (serialBits (sl.bitOp dir) v.getLsbD sl.reg 8).2 b := by
  have hw := h.reg_lt
  unfold Slot.width at hw
  have hbit : sl.bitOp dir = match dir, sl.kind with
      | .scramble, .fib => Fib.sbit sl.tapList sl.deg
      | .scramble, .gal => Gal.sbit sl.gmask sl.deg
      | .scramble, .bulk => Bulk.sbit sl.tapList sl.deg
      | .descramble, .fib => Fib.dbit sl.tapList sl.deg
      | .descramble, .gal => Gal.dbit sl.gmask sl.deg
      | .descramble, .bulk => Bulk.dbit sl.tapList sl.deg := by
    funext reg x
    unfold Slot.bitOp Slot.sbit Slot.dbit
    cases dir <;> cases sl.kind <;> rfl
  rw [hbit]
  unfold Slot.byteOp Slot.sbyte Slot.dbyte
  cases dir <;> cases hk : sl.kind <;> simp only [hk] at hw ⊢
  · exact serialByte_eq ..
  · exact serialByte_eq ..
  · rw [h.sdeps_eq hk]; exact Bulk.sbyte_eq h.taps_range.1 hw v
  · exact serialByte_eq ..
  · exact serialByte_eq ..
  · rw [h.ddeps_eq hk]; exact Bulk.dbyte_eq h.taps_range.1 hw v

end Sys2Proof.Machine
end

