-- ==== Sys2Proof/Laws/State.lean ====
section
/-! SUPPORT. One lemma for each field of the state under each update. -/

namespace Sys2Proof.Machine

variable (s : State)

@[simp] theorem State.params_dmax : s.params.dmax = s.dmax := rfl
@[simp] theorem State.params_nslot : s.params.nslot = s.nslot := rfl
@[simp] theorem State.params_bufSize : s.params.bufSize = s.bufSize := rfl

theorem State.nslot_eq : s.nslot = s.slots.length := rfl

/-! ### setSlot -/

@[simp] theorem State.setSlot_dmax (n : SlotField) (sl : Slot) : (s.setSlot n sl).dmax = s.dmax := rfl
@[simp] theorem State.setSlot_bufSize (n : SlotField) (sl : Slot) : (s.setSlot n sl).bufSize = s.bufSize := rfl
@[simp] theorem State.setSlot_tapstage (n : SlotField) (sl : Slot) : (s.setSlot n sl).tapstage = s.tapstage := rfl
@[simp] theorem State.setSlot_slots (n : SlotField) (sl : Slot) : (s.setSlot n sl).slots = s.slots.set n.toNat sl := rfl
@[simp] theorem State.setSlot_buf (n : SlotField) (sl : Slot) : (s.setSlot n sl).buf = s.buf := rfl
@[simp] theorem State.setSlot_draws (n : SlotField) (sl : Slot) : (s.setSlot n sl).draws = s.draws := rfl
@[simp] theorem State.setSlot_pending (n : SlotField) (sl : Slot) : (s.setSlot n sl).pending = s.pending := rfl
@[simp] theorem State.setSlot_response (n : SlotField) (sl : Slot) : (s.setSlot n sl).response = s.response := rfl
@[simp] theorem State.setSlot_nslot (n : SlotField) (sl : Slot) : (s.setSlot n sl).nslot = s.nslot := by
  simp [State.nslot]

/-! ### setReg -/

@[simp] theorem State.setReg_dmax (n : SlotField) (r : Nat) : (s.setReg n r).dmax = s.dmax := rfl
@[simp] theorem State.setReg_bufSize (n : SlotField) (r : Nat) : (s.setReg n r).bufSize = s.bufSize := rfl
@[simp] theorem State.setReg_tapstage (n : SlotField) (r : Nat) : (s.setReg n r).tapstage = s.tapstage := rfl
@[simp] theorem State.setReg_slots (n : SlotField) (r : Nat) : (s.setReg n r).slots =
    s.slots.modify n.toNat fun sl => { sl with reg := r } := rfl
@[simp] theorem State.setReg_buf (n : SlotField) (r : Nat) : (s.setReg n r).buf = s.buf := rfl
@[simp] theorem State.setReg_draws (n : SlotField) (r : Nat) : (s.setReg n r).draws = s.draws := rfl
@[simp] theorem State.setReg_pending (n : SlotField) (r : Nat) : (s.setReg n r).pending = s.pending := rfl
@[simp] theorem State.setReg_response (n : SlotField) (r : Nat) : (s.setReg n r).response = s.response := rfl
@[simp] theorem State.setReg_nslot (n : SlotField) (r : Nat) : (s.setReg n r).nslot = s.nslot := by
  simp [State.nslot]

/-! ### writeTapstage -/

@[simp] theorem State.writeTapstage_dmax (v : Nat) : (s.writeTapstage v).dmax = s.dmax := rfl
@[simp] theorem State.writeTapstage_bufSize (v : Nat) : (s.writeTapstage v).bufSize = s.bufSize := rfl
@[simp] theorem State.writeTapstage_tapstage (v : Nat) : (s.writeTapstage v).tapstage = (v >>> 1) <<< 1 := rfl
@[simp] theorem State.writeTapstage_slots (v : Nat) : (s.writeTapstage v).slots = s.slots := rfl
@[simp] theorem State.writeTapstage_buf (v : Nat) : (s.writeTapstage v).buf = s.buf := rfl
@[simp] theorem State.writeTapstage_draws (v : Nat) : (s.writeTapstage v).draws = s.draws := rfl
@[simp] theorem State.writeTapstage_pending (v : Nat) : (s.writeTapstage v).pending = s.pending := rfl
@[simp] theorem State.writeTapstage_response (v : Nat) : (s.writeTapstage v).response = s.response := rfl
@[simp] theorem State.writeTapstage_nslot (v : Nat) : (s.writeTapstage v).nslot = s.nslot := rfl
@[simp] theorem State.writeTapstage_slot (v : Nat) (m : SlotField) : (s.writeTapstage v).slot m = s.slot m := rfl

/-! ### memWrite -/

@[simp] theorem State.memWrite_dmax (a : Nat) (v : Byte) : (s.memWrite a v).dmax = s.dmax := rfl
@[simp] theorem State.memWrite_bufSize (a : Nat) (v : Byte) : (s.memWrite a v).bufSize = s.bufSize := rfl
@[simp] theorem State.memWrite_tapstage (a : Nat) (v : Byte) : (s.memWrite a v).tapstage = s.tapstage := rfl
@[simp] theorem State.memWrite_slots (a : Nat) (v : Byte) : (s.memWrite a v).slots = s.slots := rfl
@[simp] theorem State.memWrite_buf (a : Nat) (v : Byte) : (s.memWrite a v).buf = s.buf.write a v := rfl
@[simp] theorem State.memWrite_draws (a : Nat) (v : Byte) : (s.memWrite a v).draws = s.draws := rfl
@[simp] theorem State.memWrite_pending (a : Nat) (v : Byte) : (s.memWrite a v).pending = s.pending := rfl
@[simp] theorem State.memWrite_response (a : Nat) (v : Byte) : (s.memWrite a v).response = s.response := rfl
@[simp] theorem State.memWrite_nslot (a : Nat) (v : Byte) : (s.memWrite a v).nslot = s.nslot := rfl
@[simp] theorem State.memWrite_slot (a : Nat) (v : Byte) (m : SlotField) : (s.memWrite a v).slot m = s.slot m := rfl

/-! ### accept -/

@[simp] theorem State.accept_dmax (rest : List HostEvent) : (accept rest s).dmax = s.dmax := rfl
@[simp] theorem State.accept_bufSize (rest : List HostEvent) : (accept rest s).bufSize = s.bufSize := rfl
@[simp] theorem State.accept_tapstage (rest : List HostEvent) : (accept rest s).tapstage = s.tapstage := rfl
@[simp] theorem State.accept_slots (rest : List HostEvent) : (accept rest s).slots = s.slots := rfl
@[simp] theorem State.accept_buf (rest : List HostEvent) : (accept rest s).buf = s.buf := rfl
@[simp] theorem State.accept_draws (rest : List HostEvent) : (accept rest s).draws = s.draws := rfl
@[simp] theorem State.accept_pending (rest : List HostEvent) : (accept rest s).pending = rest := rfl
@[simp] theorem State.accept_response (rest : List HostEvent) : (accept rest s).response = s.response := rfl
@[simp] theorem State.accept_nslot (rest : List HostEvent) : (accept rest s).nslot = s.nslot := rfl
@[simp] theorem State.accept_slot (rest : List HostEvent) (m : SlotField) : (accept rest s).slot m = s.slot m := rfl

/-! ### idle -/

@[simp] theorem State.idle_dmax : (idle s).dmax = s.dmax := rfl
@[simp] theorem State.idle_bufSize : (idle s).bufSize = s.bufSize := rfl
@[simp] theorem State.idle_tapstage : (idle s).tapstage = s.tapstage := rfl
@[simp] theorem State.idle_slots : (idle s).slots = s.slots := rfl
@[simp] theorem State.idle_buf : (idle s).buf = s.buf := rfl
@[simp] theorem State.idle_draws : (idle s).draws = s.draws := rfl
@[simp] theorem State.idle_pending : (idle s).pending = s.pending := rfl
@[simp] theorem State.idle_response : (idle s).response = none := rfl
@[simp] theorem State.idle_nslot : (idle s).nslot = s.nslot := rfl
@[simp] theorem State.idle_slot (m : SlotField) : (idle s).slot m = s.slot m := rfl

/-! ### platformReset -/

@[simp] theorem State.platformReset_dmax : (platformReset s).dmax = s.dmax := rfl
@[simp] theorem State.platformReset_bufSize : (platformReset s).bufSize = s.bufSize := rfl
@[simp] theorem State.platformReset_tapstage : (platformReset s).tapstage = 0 := rfl
@[simp] theorem State.platformReset_slots : (platformReset s).slots =
    List.replicate s.nslot Slot.reset := rfl
@[simp] theorem State.platformReset_buf : (platformReset s).buf = [] := rfl
@[simp] theorem State.platformReset_draws : (platformReset s).draws = s.draws := rfl
@[simp] theorem State.platformReset_pending : (platformReset s).pending = s.pending := rfl
@[simp] theorem State.platformReset_response : (platformReset s).response = none := rfl
@[simp] theorem State.platformReset_nslot : (platformReset s).nslot = s.nslot := by
  simp [State.nslot]

/-! ### install -/

@[simp] theorem State.install_dmax (n : SlotField) (k : Kind) (T : List Nat) (d : Nat) : (s.install n k T d).dmax = s.dmax := rfl
@[simp] theorem State.install_bufSize (n : SlotField) (k : Kind) (T : List Nat) (d : Nat) : (s.install n k T d).bufSize = s.bufSize := rfl
@[simp] theorem State.install_tapstage (n : SlotField) (k : Kind) (T : List Nat) (d : Nat) : (s.install n k T d).tapstage = s.tapstage := rfl
@[simp] theorem State.install_slots (n : SlotField) (k : Kind) (T : List Nat) (d : Nat) : (s.install n k T d).slots =
    s.slots.set n.toNat (construct k T d s.dmax s.draws) := rfl
@[simp] theorem State.install_buf (n : SlotField) (k : Kind) (T : List Nat) (d : Nat) : (s.install n k T d).buf = s.buf := rfl
@[simp] theorem State.install_draws (n : SlotField) (k : Kind) (T : List Nat) (d : Nat) : (s.install n k T d).draws = s.draws + 1 := rfl
@[simp] theorem State.install_pending (n : SlotField) (k : Kind) (T : List Nat) (d : Nat) : (s.install n k T d).pending = s.pending := rfl
@[simp] theorem State.install_response (n : SlotField) (k : Kind) (T : List Nat) (d : Nat) : (s.install n k T d).response = s.response := rfl
@[simp] theorem State.install_nslot (n : SlotField) (k : Kind) (T : List Nat) (d : Nat) : (s.install n k T d).nslot = s.nslot := by
  simp [State.nslot]

/-! ### answered -/

@[simp] theorem State.answered_dmax (v : Nat) : (s.answered v).dmax = s.dmax := rfl
@[simp] theorem State.answered_bufSize (v : Nat) : (s.answered v).bufSize = s.bufSize := rfl
@[simp] theorem State.answered_tapstage (v : Nat) : (s.answered v).tapstage = s.tapstage := rfl
@[simp] theorem State.answered_slots (v : Nat) : (s.answered v).slots = s.slots := rfl
@[simp] theorem State.answered_buf (v : Nat) : (s.answered v).buf = s.buf := rfl
@[simp] theorem State.answered_draws (v : Nat) : (s.answered v).draws = s.draws := rfl
@[simp] theorem State.answered_pending (v : Nat) : (s.answered v).pending = s.pending := rfl
@[simp] theorem State.answered_response (v : Nat) : (s.answered v).response = some ⟨.ok, v⟩ := rfl
@[simp] theorem State.answered_nslot (v : Nat) : (s.answered v).nslot = s.nslot := rfl
@[simp] theorem State.answered_slot (v : Nat) (m : SlotField) : (s.answered v).slot m = s.slot m := rfl

/-! ### failed -/

@[simp] theorem State.failed_dmax (code : Status) : (s.failed code).dmax = s.dmax := rfl
@[simp] theorem State.failed_bufSize (code : Status) : (s.failed code).bufSize = s.bufSize := rfl
@[simp] theorem State.failed_tapstage (code : Status) : (s.failed code).tapstage = s.tapstage := rfl
@[simp] theorem State.failed_slots (code : Status) : (s.failed code).slots = s.slots := rfl
@[simp] theorem State.failed_buf (code : Status) : (s.failed code).buf = s.buf := rfl
@[simp] theorem State.failed_draws (code : Status) : (s.failed code).draws = s.draws := rfl
@[simp] theorem State.failed_pending (code : Status) : (s.failed code).pending = s.pending := rfl
@[simp] theorem State.failed_response (code : Status) : (s.failed code).response = some ⟨code, 0⟩ := rfl
@[simp] theorem State.failed_nslot (code : Status) : (s.failed code).nslot = s.nslot := rfl
@[simp] theorem State.failed_slot (code : Status) (m : SlotField) : (s.failed code).slot m = s.slot m := rfl

end Sys2Proof.Machine
end

