-- ==== Sys2Proof/Laws/Ops.lean ====
section
/-! SUPPORT. Slots after each update, what a read of BUF can do, and what the slot check can answer. -/

namespace Sys2Proof.Machine

variable (s : State)

/-! ### Slots -/

theorem SlotField.toNat_ne {m n : SlotField} (h : m ≠ n) : m.toNat ≠ n.toNat :=
  fun hc => h (BitVec.eq_of_toNat_eq hc)

theorem State.setSlot_slot (n : SlotField) (sl : Slot) (m : SlotField) :
    (s.setSlot n sl).slot m = if m = n ∧ n.toNat < s.nslot then sl else s.slot m := by
  simp only [State.slot, State.setSlot_slots, List.getElem?_set, State.nslot_eq]
  by_cases h : m = n
  · subst h
    by_cases hl : m.toNat < s.slots.length <;> simp [hl]
  · simp [h, (SlotField.toNat_ne h).symm]

/-- Only the named slot changes, and of that only REG. -/
theorem State.setReg_slot (n : SlotField) (r : Nat) (m : SlotField) :
    (s.setReg n r).slot m =
      if m = n ∧ n.toNat < s.nslot then { s.slot n with reg := r } else s.slot m := by
  simp only [State.slot, State.setReg_slots, List.getElem?_modify, State.nslot_eq]
  by_cases h : m = n
  · subst h
    by_cases hl : m.toNat < s.slots.length <;> simp [hl]
  · simp [h, (SlotField.toNat_ne h).symm]

theorem State.setReg_slot_same {s : State} {n : SlotField} (r : Nat) (h : n.toNat < s.nslot) :
    (s.setReg n r).slot n = { s.slot n with reg := r } := by simp [State.setReg_slot, h]

theorem State.setReg_slot_other {s : State} {n m : SlotField} (r : Nat) (h : m ≠ n) :
    (s.setReg n r).slot m = s.slot m := by simp [State.setReg_slot, h]

theorem State.install_slot (n : SlotField) (k : Kind) (T : List Nat) (d : Nat) (m : SlotField) :
    (s.install n k T d).slot m =
      if m = n ∧ n.toNat < s.nslot then construct k T d s.dmax s.draws else s.slot m :=
  s.setSlot_slot n _ m

/-- A slot below NSLOT is one of the slots. -/
theorem State.slot_mem {s : State} {n : SlotField} (h : n.toNat < s.nslot) : s.slot n ∈ s.slots := by
  rw [State.nslot_eq] at h
  simp [State.slot, List.getElem?_eq_getElem h]

/-- Writing back the register a slot holds changes nothing. -/
theorem State.setReg_self (n : SlotField) : s.setReg n (s.slot n).reg = s := by
  have : s.slots.modify n.toNat (fun sl => { sl with reg := (s.slot n).reg }) = s.slots := by
    refine List.ext_getElem? fun i => ?_
    rw [List.getElem?_modify]
    by_cases h : n.toNat = i
    · subst h
      cases hs : s.slots[n.toNat]? <;> simp [State.slot, hs]
    · simp [h]
  simp only [State.setReg, this]

@[simp] theorem State.setReg_setReg (n : SlotField) (r q : Nat) :
    (s.setReg n r).setReg n q = s.setReg n q := by
  have : (s.slots.modify n.toNat fun sl => { sl with reg := r }).modify n.toNat
      (fun sl => { sl with reg := q }) = s.slots.modify n.toNat fun sl => { sl with reg := q } := by
    refine List.ext_getElem? fun i => ?_
    simp only [List.getElem?_modify]
    by_cases h : n.toNat = i <;> cases s.slots[i]? <;> simp [h]
  simp only [State.setReg, this]

/-! ### Reading BUF -/

/-- A read gives the byte last written and changes nothing, or a free value and one more draw. -/
theorem State.memRead_cases (a : Nat) :
    (∃ v, s.buf.read a = some v ∧ s.memRead a = (v, s)) ∨
    (s.buf.read a = none ∧
      s.memRead a = (Config.freeByte s.draws, { s with draws := s.draws + 1 })) := by
  cases h : s.buf.read a with
  | none => right; simp [State.memRead, h]
  | some v => left; exact ⟨v, rfl, by simp [State.memRead, h]⟩

/-- A read changes at most the draw counter. -/
theorem State.memRead_state (a : Nat) : ∃ k, (s.memRead a).2 = { s with draws := k } := by
  rcases s.memRead_cases a with ⟨v, -, h⟩ | ⟨-, h⟩ <;> rw [h]
  · exact ⟨s.draws, rfl⟩
  · exact ⟨_, rfl⟩

/-! ### The slot check -/

theorem slotCheck_noSlot {n : SlotField} {s : State} (h : s.nslot ≤ n.toNat) :
    slotCheck n s = .error .eSlot := by simp [slotCheck, h]

theorem slotCheck_unconfigured {n : SlotField} {s : State} (h : n.toNat < s.nslot)
    (hv : (s.slot n).valid = false) : slotCheck n s = .error .eUnconf := by
  simp [slotCheck, Nat.not_le.2 h, hv]

theorem slotCheck_ok {n : SlotField} {s : State} (h : s.Configured n) :
    slotCheck n s = .ok (s.slot n) := by
  simp [slotCheck, Nat.not_le.2 h.1, h.2]

/-- What the slot check can answer. -/
theorem slotCheck_cases (n : SlotField) (s : State) :
    (s.nslot ≤ n.toNat ∧ slotCheck n s = .error .eSlot) ∨
    (n.toNat < s.nslot ∧ (s.slot n).valid = false ∧ slotCheck n s = .error .eUnconf) ∨
    (s.Configured n ∧ slotCheck n s = .ok (s.slot n)) := by
  by_cases h : s.nslot ≤ n.toNat
  · exact .inl ⟨h, slotCheck_noSlot h⟩
  · have hlt := Nat.not_le.1 h
    rcases Bool.eq_false_or_eq_true (s.slot n).valid with hv | hv
    · exact .inr (.inr ⟨⟨hlt, hv⟩, slotCheck_ok ⟨hlt, hv⟩⟩)
    · exact .inr (.inl ⟨hlt, hv, slotCheck_unconfigured hlt hv⟩)

theorem State.Holds.configured {s : State} {n : SlotField} {k : Kind} (h : s.Holds n k) :
    s.Configured n := ⟨h.1, h.2.1⟩

/-! ### Answers -/

theorem respond_eq (v : Nat) (s : State) : respond v s = .next (s.answered v) := rfl

theorem raiseError_eq (code : Status) (s : State) : raiseError code s = .next (s.failed code) := rfl

end Sys2Proof.Machine
end

