-- ==== Sys2Proof/Laws/Range.lean ====
section
/-! SUPPORT. What the byte loop of a range command can do. -/

namespace Sys2Proof.Machine

/-- What the bytes of a range command leave unchanged: everything but the draw counter, REG of the named
slot, and the destination bytes. -/
structure RangeEffect (n : SlotField) (dst len : Nat) (s t : State) : Prop where
  dmax : t.dmax = s.dmax
  bufSize : t.bufSize = s.bufSize
  tapstage : t.tapstage = s.tapstage
  pending : t.pending = s.pending
  response : t.response = s.response
  slots : ∃ r, t.slots = (s.setReg n r).slots
  outside : ∀ a, a < dst ∨ dst + len ≤ a → t.buf.read a = s.buf.read a
  inside : ∀ i < len, (t.buf.read (dst + i)).isSome = true

/-- One byte of a range, with the byte `v` it read and the state after the read. -/
theorem rangeByte_eq (op : Slot → Byte → Nat × Byte) (n : SlotField) (src dst : Nat) (s : State) :
    ∃ v k, s.memRead src = (v, { s with draws := k }) ∧
      rangeByte op n src dst s =
        (({ s with draws := k }.setReg n (op (s.slot n) v).1).memWrite dst (op (s.slot n) v).2) := by
  obtain ⟨k, hk⟩ := s.memRead_state src
  exact ⟨(s.memRead src).1, k, Prod.ext rfl hk, by simp only [rangeByte, hk]; rfl⟩

theorem rangeByte_effect (op : Slot → Byte → Nat × Byte) (n : SlotField) (src dst : Nat) (s : State) :
    RangeEffect n dst 1 s (rangeByte op n src dst s) := by
  obtain ⟨v, k, -, h⟩ := rangeByte_eq op n src dst s
  rw [h]
  refine ⟨rfl, rfl, rfl, rfl, rfl, ⟨_, rfl⟩, fun a ha => ?_, fun i hi => ?_⟩
  · exact Memory.read_write_other _ _ (by omega)
  · obtain rfl : i = 0 := by omega
    simp

theorem rangeLoop_effect (op : Slot → Byte → Nat × Byte) (n : SlotField) (len src dst : Nat) (s : State) :
    RangeEffect n dst len s (rangeLoop op n len src dst s) := by
  induction len generalizing src dst s with
  | zero => exact ⟨rfl, rfl, rfl, rfl, rfl, ⟨_, by rw [s.setReg_self]; rfl⟩, fun _ _ => rfl, by simp⟩
  | succ len ih =>
    have h1 := rangeByte_effect op n src dst s
    have h2 := ih (src + 1) (dst + 1) (rangeByte op n src dst s)
    obtain ⟨r1, hr1⟩ := h1.slots
    obtain ⟨r2, hr2⟩ := h2.slots
    refine ⟨h2.dmax.trans h1.dmax, h2.bufSize.trans h1.bufSize, h2.tapstage.trans h1.tapstage,
      h2.pending.trans h1.pending, h2.response.trans h1.response, ⟨r2, ?_⟩, fun a ha => ?_,
      fun i hi => ?_⟩
    · rw [rangeLoop, hr2, State.setReg_slots, hr1, ← State.setReg_slots, State.setReg_setReg]
    · rw [rangeLoop, h2.outside a (by omega), h1.outside a (by omega)]
    · rcases Nat.eq_zero_or_pos i with rfl | hi0
      · rw [rangeLoop, h2.outside _ (by omega)]
        exact h1.inside 0 (by omega)
      · have := h2.inside (i - 1) (by omega)
        rwa [show dst + 1 + (i - 1) = dst + i by omega] at this

/-- The loop over `a + b` bytes is the loop over `a` bytes and then over the next `b`. -/
theorem rangeLoop_add (op : Slot → Byte → Nat × Byte) (n : SlotField) (a b src dst : Nat) (s : State) :
    rangeLoop op n (a + b) src dst s =
      rangeLoop op n b (src + a) (dst + a) (rangeLoop op n a src dst s) := by
  induction a generalizing src dst s with
  | zero => simp [rangeLoop]
  | succ a ih =>
    rw [show a + 1 + b = a + b + 1 by omega, rangeLoop, rangeLoop, ih]
    congr 1 <;> omega

/-- The loop keeps any property that one byte keeps. -/
theorem rangeLoop_keeps (op : Slot → Byte → Nat × Byte) (n : SlotField) {P : State → Prop}
    {lo hi len src dst : Nat} {s : State}
    (hP : ∀ s src dst, P s → lo ≤ dst → dst < hi → P (rangeByte op n src dst s))
    (hlo : lo ≤ dst) (hhi : dst + len ≤ hi) (hs : P s) : P (rangeLoop op n len src dst s) := by
  induction len generalizing src dst s with
  | zero => exact hs
  | succ len ih => exact ih (by omega) (by omega) (hP _ _ _ hs hlo (by omega))

/-! ### The canonical form of BUF under every memory operation -/

/-- BUF is in canonical form and lists only addresses below BUF_SIZE. -/
def State.BufOk (s : State) : Prop := s.buf.wf ∧ ∀ c ∈ s.buf, c.1 < s.bufSize

theorem State.reset_bufOk (p : Config.Params) : (State.resetWith p).BufOk :=
  ⟨Memory.wf_nil, fun _ h => absurd h (by simp [State.resetWith])⟩

theorem State.platformReset_bufOk (s : State) : (platformReset s).BufOk :=
  ⟨Memory.wf_nil, fun _ h => absurd h (by simp)⟩

theorem State.BufOk.memRead {s : State} (h : s.BufOk) (a : Nat) : (s.memRead a).2.BufOk := by
  obtain ⟨k, hk⟩ := s.memRead_state a
  rw [hk]; exact h

theorem State.BufOk.memWrite {s : State} (h : s.BufOk) {a : Nat} (ha : a < s.bufSize) (v : Byte) :
    (s.memWrite a v).BufOk := by
  refine ⟨Memory.wf_write a v h.1, fun c hc => ?_⟩
  rcases Memory.mem_write hc with rfl | hc
  · exact ha
  · exact h.2 c hc

theorem State.BufOk.rangeLoop {s : State} (h : s.BufOk) (op : Slot → Byte → Nat × Byte) (n : SlotField)
    {src dst len : Nat} (hd : dst + len ≤ s.bufSize) : (rangeLoop op n len src dst s).BufOk := by
  have := rangeLoop_keeps (P := fun t => t.BufOk ∧ t.bufSize = s.bufSize) op n (lo := 0) (src := src)
    (hi := s.bufSize) ?_ (Nat.zero_le dst) hd ⟨h, rfl⟩
  · exact this.1
  · rintro t src dst ⟨ht, hb⟩ - hlt
    obtain ⟨k, hk⟩ := t.memRead_state src
    refine ⟨State.BufOk.memWrite ?_ ?_ _, (rangeByte_effect op n src dst t).bufSize.trans hb⟩
    · exact ht.memRead src
    · rw [State.setReg_bufSize, hk]; show dst < t.bufSize; omega

end Sys2Proof.Machine
end

