-- ==== Sys2Proof/Laws/Exec.lean ====
section
/-! SUPPORT. What each meaning can answer: one lemma per meaning, and the inversion of exec. -/

namespace Sys2Proof.Machine

/-! ### Shared meanings -/

theorem bitCommand_ok {op : Slot → Bool → Nat × Bool} {n : SlotField} {x : Bool} {s : State}
    (h : s.Configured n) : bitCommand op n x s =
      .next ((s.setReg n (op (s.slot n) x).1).answered (op (s.slot n) x).2.toNat) := by
  simp [bitCommand, slotCheck_ok h, respond_eq]

theorem byteCommand_ok {op : Slot → Byte → Nat × Byte} {n : SlotField} {v : Byte} {s : State}
    (h : s.Configured n) : byteCommand op n v s =
      .next ((s.setReg n (op (s.slot n) v).1).answered (op (s.slot n) v).2.toNat) := by
  simp [byteCommand, slotCheck_ok h, respond_eq]

theorem rangeCommand_ok {op : Slot → Byte → Nat × Byte} {n : SlotField} {src dst len : Field16} {s : State}
    (h : s.Configured n) (hs : src.toNat + len.toNat ≤ s.bufSize) (hd : dst.toNat + len.toNat ≤ s.bufSize) :
    rangeCommand op n src dst len s =
      .next ((rangeLoop op n len.toNat src.toNat dst.toNat s).answered 0) := by
  simp [rangeCommand, slotCheck_ok h, rangeInside, hs, hd, respond_eq]

theorem rangeCommand_bounds {op : Slot → Byte → Nat × Byte} {n : SlotField} {src dst len : Field16}
    {s : State} (h : s.Configured n)
    (hb : s.bufSize < src.toNat + len.toNat ∨ s.bufSize < dst.toNat + len.toNat) :
    rangeCommand op n src dst len s = .next (s.failed .eBounds) := by
  have : ¬(src.toNat + len.toNat ≤ s.bufSize ∧ dst.toNat + len.toNat ≤ s.bufSize) := by omega
  simp [rangeCommand, slotCheck_ok h, rangeInside, this, raiseError_eq]

/-- The errors of the slot check, as a command that starts with it answers them. -/
theorem slotCheck_error {n : SlotField} {s : State} {code : Status} (h : slotCheck n s = .error code) :
    code = .eSlot ∧ s.nslot ≤ n.toNat ∨
      code = .eUnconf ∧ n.toNat < s.nslot ∧ (s.slot n).valid = false := by
  rcases slotCheck_cases n s with ⟨h1, h2⟩ | ⟨h1, h2, h3⟩ | ⟨-, h2⟩ <;> rw [h] at *
  · left; simp_all
  · right; simp_all
  · simp_all

/-! ### exec -/

/-- The effect of a command that answers OK: the state `t` it leaves, response apart, and its RESULT. -/
def Effect (i : Instr) (s t : State) (v : Nat) : Prop :=
  match i with
  | .nop => t = s ∧ v = 0
  | .tapclr => t = s.writeTapstage 0 ∧ v = 0
  | .tapadd tap => tap.toNat ≤ s.dmax ∧ t = s.stageTap tap.toNat ∧ v = 0
  | .config n field => ∃ k T d, Kind.ofField field = some k ∧ n.toNat < s.nslot ∧
      validate s.dmax s.tapstage = some (T, d) ∧ t = s.install n k T d ∧ v = d
  | .scrb n x => s.Configured n ∧ t = s.setReg n ((s.slot n).sbit x).1 ∧ v = ((s.slot n).sbit x).2.toNat
  | .dscb n x => s.Configured n ∧ t = s.setReg n ((s.slot n).dbit x).1 ∧ v = ((s.slot n).dbit x).2.toNat
  | .scry n b =>
      s.Configured n ∧ t = s.setReg n ((s.slot n).sbyte b).1 ∧ v = ((s.slot n).sbyte b).2.toNat
  | .dscy n b =>
      s.Configured n ∧ t = s.setReg n ((s.slot n).dbyte b).1 ∧ v = ((s.slot n).dbyte b).2.toNat
  | .state n => s.Configured n ∧ ((s.slot n).kind = .bulk → (s.slot n).deg ≤ 64) ∧ t = s ∧
      v = (s.slot n).stateValue
  | .scrr n src dst len => s.Configured n ∧ src.toNat + len.toNat ≤ s.bufSize ∧
      dst.toNat + len.toNat ≤ s.bufSize ∧
      t = rangeLoop Slot.sbyte n len.toNat src.toNat dst.toNat s ∧ v = 0
  | .dscr n src dst len => s.Configured n ∧ src.toNat + len.toNat ≤ s.bufSize ∧
      dst.toNat + len.toNat ≤ s.bufSize ∧
      t = rangeLoop Slot.dbyte n len.toNat src.toNat dst.toNat s ∧ v = 0
  | .bufwr a b => a.toNat < s.bufSize ∧ t = s.memWrite a.toNat b ∧ v = 0
  | .bufrd a => a.toNat < s.bufSize ∧ t = (s.memRead a.toNat).2 ∧ v = (s.memRead a.toNat).1.toNat

/-- A KIND field selects a kind unless it is the reserved value. -/
theorem Kind.ofField_none {k : KindField} (h : Kind.ofField k = none) : k = 3#2 := by
  have all : ∀ k : KindField, Kind.ofField k = none → k = 3#2 := by decide
  exact all k h

/-- A command answers an error of its row and changes nothing, or answers OK with its effect. -/
theorem exec_cases (i : Instr) (s : State) :
    (∃ code, code ∈ mayRaise i ∧ (i.wellFormed = true → code ≠ .eIllegal) ∧ code ≠ .ok ∧
      exec i s = .next (s.failed code)) ∨
    (∃ t v, Effect i s t v ∧ exec i s = .next (t.answered v)) := by
  have slotErr : ∀ n code, slotCheck n s = .error code → code = .eSlot ∨ code = .eUnconf :=
    fun n code h => (slotCheck_error h).imp And.left And.left
  have slotOk : ∀ n sl, slotCheck n s = .ok sl → s.Configured n ∧ sl = s.slot n := by
    intro n sl h
    rcases slotCheck_cases n s with ⟨-, h2⟩ | ⟨-, -, h2⟩ | ⟨h1, h2⟩ <;> rw [h] at h2
    · cases h2
    · cases h2
    · cases h2; exact ⟨h1, rfl⟩
  have bit : ∀ (op : Slot → Bool → Nat × Bool) n x,
      (∃ code, (code = Status.eSlot ∨ code = .eUnconf) ∧ bitCommand op n x s = .next (s.failed code)) ∨
      (s.Configured n ∧ bitCommand op n x s =
        .next ((s.setReg n (op (s.slot n) x).1).answered (op (s.slot n) x).2.toNat)) := by
    intro op n x
    cases hc : slotCheck n s with
    | error code => exact .inl ⟨code, slotErr n code hc, by simp [bitCommand, hc, raiseError_eq]⟩
    | ok sl => exact .inr ⟨(slotOk n sl hc).1, bitCommand_ok (slotOk n sl hc).1⟩
  have byte : ∀ (op : Slot → Byte → Nat × Byte) n x,
      (∃ code, (code = Status.eSlot ∨ code = .eUnconf) ∧ byteCommand op n x s = .next (s.failed code)) ∨
      (s.Configured n ∧ byteCommand op n x s =
        .next ((s.setReg n (op (s.slot n) x).1).answered (op (s.slot n) x).2.toNat)) := by
    intro op n x
    cases hc : slotCheck n s with
    | error code => exact .inl ⟨code, slotErr n code hc, by simp [byteCommand, hc, raiseError_eq]⟩
    | ok sl => exact .inr ⟨(slotOk n sl hc).1, byteCommand_ok (slotOk n sl hc).1⟩
  have range : ∀ (op : Slot → Byte → Nat × Byte) n (src dst len : Field16),
      (∃ code, (code = Status.eSlot ∨ code = .eUnconf ∨ code = .eBounds) ∧
        rangeCommand op n src dst len s = .next (s.failed code)) ∨
      (s.Configured n ∧ src.toNat + len.toNat ≤ s.bufSize ∧ dst.toNat + len.toNat ≤ s.bufSize ∧
        rangeCommand op n src dst len s =
          .next ((rangeLoop op n len.toNat src.toNat dst.toNat s).answered 0)) := by
    intro op n src dst len
    cases hc : slotCheck n s with
    | error code =>
      exact .inl ⟨code, (slotErr n code hc).imp_right .inl, by simp [rangeCommand, hc, raiseError_eq]⟩
    | ok sl =>
      have h := (slotOk n sl hc).1
      by_cases hb : src.toNat + len.toNat ≤ s.bufSize ∧ dst.toNat + len.toNat ≤ s.bufSize
      · exact .inr ⟨h, hb.1, hb.2, rangeCommand_ok h hb.1 hb.2⟩
      · exact .inl ⟨.eBounds, by simp, rangeCommand_bounds h (by omega)⟩
  cases i with
  | nop => exact .inr ⟨s, 0, ⟨rfl, rfl⟩, rfl⟩
  | tapclr => exact .inr ⟨_, 0, ⟨rfl, rfl⟩, rfl⟩
  | tapadd tap =>
    by_cases h : s.dmax < tap.toNat
    · exact .inl ⟨.eRange, by simp [mayRaise], by simp, by simp, by simp [exec, execTapadd, h, raiseError_eq]⟩
    · exact .inr ⟨_, 0, ⟨Nat.not_lt.1 h, rfl, rfl⟩, by simp [exec, execTapadd, h, respond_eq]⟩
  | config n field =>
    simp only [exec, execConfig, Effect]
    cases hk : Kind.ofField field with
    | none => exact .inl ⟨.eIllegal, by simp [mayRaise], by simp [Instr.wellFormed, Kind.ofField_none hk], by simp, rfl⟩
    | some k =>
      by_cases hn : s.nslot ≤ n.toNat
      · exact .inl ⟨.eSlot, by simp [mayRaise], by simp, by simp, by simp [hn, raiseError_eq]⟩
      · cases hv : validate s.dmax s.tapstage with
        | none => exact .inl ⟨.eEmpty, by simp [mayRaise], by simp, by simp, by simp [hn, raiseError_eq]⟩
        | some Td =>
          exact .inr ⟨_, _, ⟨k, Td.1, Td.2, rfl, Nat.not_le.1 hn, rfl, rfl, rfl⟩, by simp [hn, respond_eq]⟩
  | scrb n x =>
    refine (bit Slot.sbit n x).imp ?_ fun ⟨h, he⟩ => ⟨_, _, ⟨h, rfl, rfl⟩, he⟩
    rintro ⟨code, hc, he⟩
    exact ⟨code, by simp [mayRaise, hc], by rcases hc with rfl | rfl <;> simp,
      by rcases hc with rfl | rfl <;> simp, he⟩
  | dscb n x =>
    refine (bit Slot.dbit n x).imp ?_ fun ⟨h, he⟩ => ⟨_, _, ⟨h, rfl, rfl⟩, he⟩
    rintro ⟨code, hc, he⟩
    exact ⟨code, by simp [mayRaise, hc], by rcases hc with rfl | rfl <;> simp,
      by rcases hc with rfl | rfl <;> simp, he⟩
  | scry n x =>
    refine (byte Slot.sbyte n x).imp ?_ fun ⟨h, he⟩ => ⟨_, _, ⟨h, rfl, rfl⟩, he⟩
    rintro ⟨code, hc, he⟩
    exact ⟨code, by simp [mayRaise, hc], by rcases hc with rfl | rfl <;> simp,
      by rcases hc with rfl | rfl <;> simp, he⟩
  | dscy n x =>
    refine (byte Slot.dbyte n x).imp ?_ fun ⟨h, he⟩ => ⟨_, _, ⟨h, rfl, rfl⟩, he⟩
    rintro ⟨code, hc, he⟩
    exact ⟨code, by simp [mayRaise, hc], by rcases hc with rfl | rfl <;> simp,
      by rcases hc with rfl | rfl <;> simp, he⟩
  | state n =>
    simp only [exec, execState, Effect]
    cases hc : slotCheck n s with
    | error code =>
      exact .inl ⟨code, by rcases slotErr n code hc with rfl | rfl <;> simp [mayRaise],
        by rcases slotErr n code hc with rfl | rfl <;> simp,
        by rcases slotErr n code hc with rfl | rfl <;> simp, rfl⟩
    | ok sl =>
      obtain ⟨h, rfl⟩ := slotOk n sl hc
      by_cases hw : (s.slot n).kind = .bulk ∧ (s.slot n).deg > Config.bulkStateMax
      · exact .inl ⟨.eWide, by simp [mayRaise], by simp, by simp, by simp [hw, raiseError_eq]⟩
      · refine .inr ⟨s, _, ⟨h, fun hk => ?_, rfl, rfl⟩, by simp only [hw, if_false, respond_eq]⟩
        by_contra hgt
        exact hw ⟨hk, by simpa [Config.bulkStateMax] using hgt⟩
  | scrr n src dst len =>
    refine (range Slot.sbyte n src dst len).imp ?_ fun ⟨h, h1, h2, he⟩ => ⟨_, _, ⟨h, h1, h2, rfl, rfl⟩, he⟩
    rintro ⟨code, hc, he⟩
    exact ⟨code, by simp [mayRaise, hc], by rcases hc with rfl | rfl | rfl <;> simp,
      by rcases hc with rfl | rfl | rfl <;> simp, he⟩
  | dscr n src dst len =>
    refine (range Slot.dbyte n src dst len).imp ?_ fun ⟨h, h1, h2, he⟩ => ⟨_, _, ⟨h, h1, h2, rfl, rfl⟩, he⟩
    rintro ⟨code, hc, he⟩
    exact ⟨code, by simp [mayRaise, hc], by rcases hc with rfl | rfl | rfl <;> simp,
      by rcases hc with rfl | rfl | rfl <;> simp, he⟩
  | bufwr a v =>
    by_cases h : a.toNat < s.bufSize
    · exact .inr ⟨_, _, ⟨h, rfl, rfl⟩, by simp [exec, execBufwr, addressable, h, respond_eq]⟩
    · exact .inl ⟨.eBounds, by simp [mayRaise], by simp, by simp,
        by simp [exec, execBufwr, addressable, h, raiseError_eq]⟩
  | bufrd a =>
    by_cases h : a.toNat < s.bufSize
    · exact .inr ⟨_, _, ⟨h, rfl, rfl⟩, by simp [exec, execBufrd, addressable, h, respond_eq]⟩
    · exact .inl ⟨.eBounds, by simp [mayRaise], by simp, by simp,
        by simp [exec, execBufrd, addressable, h, raiseError_eq]⟩

/-- A command answers a next state. -/
theorem exec_next (i : Instr) (s : State) : ∃ t, exec i s = .next t := by
  rcases exec_cases i s with ⟨code, -, -, -, h⟩ | ⟨t, v, -, h⟩ <;> exact ⟨_, h⟩

/-! ### What an effect leaves unchanged -/

theorem State.memRead_frame (s : State) (a : Nat) :
    (s.memRead a).2.dmax = s.dmax ∧ (s.memRead a).2.bufSize = s.bufSize ∧
      (s.memRead a).2.tapstage = s.tapstage ∧ (s.memRead a).2.slots = s.slots ∧
      (s.memRead a).2.buf = s.buf ∧ (s.memRead a).2.pending = s.pending ∧
      (s.memRead a).2.response = s.response := by
  obtain ⟨k, hk⟩ := s.memRead_state a
  rw [hk]
  exact ⟨rfl, rfl, rfl, rfl, rfl, rfl, rfl⟩

/-- The slots after an effect: a new engine in the named slot of CONFIG, a new REG in the named slot of
another command, or no change. -/
theorem Effect.slots {i : Instr} {s t : State} {v : Nat} (h : Effect i s t v) :
    (∃ n f k T d, i = .config n f ∧ validate s.dmax s.tapstage = some (T, d) ∧ n.toNat < s.nslot ∧
      t.slots = (s.install n k T d).slots) ∨
    (isConfig i = false ∧ ∃ n r, namedSlot i = some n ∧ t.slots = (s.setReg n r).slots) ∨
    (isConfig i = false ∧ t.slots = s.slots) := by
  cases i with
  | nop => exact .inr (.inr ⟨rfl, by rw [h.1]⟩)
  | tapclr => exact .inr (.inr ⟨rfl, by rw [h.1]; rfl⟩)
  | tapadd tap => exact .inr (.inr ⟨rfl, by rw [h.2.1, State.stageTap]; split <;> rfl⟩)
  | config n f =>
    obtain ⟨k, T, d, -, hn, hv, rfl, -⟩ := h
    exact .inl ⟨n, f, k, T, d, rfl, hv, hn, rfl⟩
  | scrb n x => exact .inr (.inl ⟨rfl, n, _, rfl, by rw [h.2.1]⟩)
  | dscb n x => exact .inr (.inl ⟨rfl, n, _, rfl, by rw [h.2.1]⟩)
  | scry n x => exact .inr (.inl ⟨rfl, n, _, rfl, by rw [h.2.1]⟩)
  | dscy n x => exact .inr (.inl ⟨rfl, n, _, rfl, by rw [h.2.1]⟩)
  | state n => exact .inr (.inr ⟨rfl, by rw [h.2.2.1]⟩)
  | scrr n src dst len =>
    obtain ⟨-, -, -, rfl, -⟩ := h
    obtain ⟨r, hr⟩ := (rangeLoop_effect Slot.sbyte n len.toNat src.toNat dst.toNat s).slots
    exact .inr (.inl ⟨rfl, n, r, rfl, hr⟩)
  | dscr n src dst len =>
    obtain ⟨-, -, -, rfl, -⟩ := h
    obtain ⟨r, hr⟩ := (rangeLoop_effect Slot.dbyte n len.toNat src.toNat dst.toNat s).slots
    exact .inr (.inl ⟨rfl, n, r, rfl, hr⟩)
  | bufwr a b => exact .inr (.inr ⟨rfl, by rw [h.2.1]; rfl⟩)
  | bufrd a => exact .inr (.inr ⟨rfl, by rw [h.2.1, (s.memRead_frame _).2.2.2.1]⟩)

/-- No effect writes a build parameter or the events still to come. -/
theorem Effect.interface {i : Instr} {s t : State} {v : Nat} (h : Effect i s t v) :
    t.dmax = s.dmax ∧ t.bufSize = s.bufSize ∧ t.pending = s.pending := by
  cases i with
  | nop => rw [h.1]; exact ⟨rfl, rfl, rfl⟩
  | tapclr => rw [h.1]; exact ⟨rfl, rfl, rfl⟩
  | tapadd tap => rw [h.2.1, State.stageTap]; split <;> exact ⟨rfl, rfl, rfl⟩
  | config n f => obtain ⟨k, T, d, -, -, -, rfl, -⟩ := h; exact ⟨rfl, rfl, rfl⟩
  | scrb n x => rw [h.2.1]; exact ⟨rfl, rfl, rfl⟩
  | dscb n x => rw [h.2.1]; exact ⟨rfl, rfl, rfl⟩
  | scry n x => rw [h.2.1]; exact ⟨rfl, rfl, rfl⟩
  | dscy n x => rw [h.2.1]; exact ⟨rfl, rfl, rfl⟩
  | state n => rw [h.2.2.1]; exact ⟨rfl, rfl, rfl⟩
  | scrr n src dst len =>
    obtain ⟨-, -, -, rfl, -⟩ := h
    have he := rangeLoop_effect Slot.sbyte n len.toNat src.toNat dst.toNat s
    exact ⟨he.dmax, he.bufSize, he.pending⟩
  | dscr n src dst len =>
    obtain ⟨-, -, -, rfl, -⟩ := h
    have he := rangeLoop_effect Slot.dbyte n len.toNat src.toNat dst.toNat s
    exact ⟨he.dmax, he.bufSize, he.pending⟩
  | bufwr a b => rw [h.2.1]; exact ⟨rfl, rfl, rfl⟩
  | bufrd a =>
    have hf := s.memRead_frame a.toNat
    rw [h.2.1]; exact ⟨hf.1, hf.2.1, hf.2.2.2.2.2.1⟩

/-- A step is a wait, an illegal word, a command or a reset. -/
theorem step_cases (s : State) :
    (s.pending = [] ∧ step s = .next (idle s)) ∨
    (∃ w rest, s.pending = .command w :: rest ∧
      ((∃ err, decodeWord w = .error err ∧ step s = .next ((accept rest s).failed .eIllegal)) ∨
        ∃ i, decodeWord w = .ok i ∧ step s = exec i (accept rest s))) ∨
    (∃ rest, (s.pending = .reset :: rest ∨ ∃ w, s.pending = .resetDuring w :: rest) ∧
      step s = .next (platformReset (accept rest s))) := by
  unfold step
  cases hp : s.pending with
  | nil => exact .inl ⟨rfl, rfl⟩
  | cons ev rest =>
    cases ev with
    | command w =>
      refine .inr (.inl ⟨w, rest, rfl, ?_⟩)
      cases hd : decodeWord w with
      | error err => exact .inl ⟨err, rfl, by simp [hd, takeIllegal, raiseError_eq]⟩
      | ok i => exact .inr ⟨i, rfl, by simp [hd]⟩
    | reset => exact .inr (.inr ⟨rest, .inl rfl, rfl⟩)
    | resetDuring w => exact .inr (.inr ⟨rest, .inr ⟨w, rfl⟩, rfl⟩)

end Sys2Proof.Machine
end

