-- ==== Sys2Proof/Laws/PerInstr.lean ====
section
/-! SUPPORT. Statements about every instruction, one lemma per constructor. -/

/-- The encoding of a well-formed instruction matches the row of its opcode (30_encoding.md R80). -/
def Sys2Proof.Laws.EncodeRow.Statement (i : Sys2Proof.Instr) : Prop :=
  i.wellFormed = true → Sys2Proof.Machine.MatchesRow (Sys2Proof.encode i) (Sys2Proof.opcode i).toNat

namespace Sys2Proof.Laws.EncodeRow

open Sys2Proof Sys2Proof.Machine

/-- A word made of columns matches a row when its reserved-zero bits are 0. -/
theorem matchesRow_columns {hi mid lo : Field16} {data : Byte} {slot op : BitVec 4} (hop : op.toNat < 13)
    (hz : ∀ p < 64, reservedZero op.toNat p = true →
      (columns hi mid lo data slot op).getLsbD p = false)
    (hk : op.toNat = 3 → data.setWidth 2 ≠ 3#2) :
    MatchesRow (columns hi mid lo data slot op) op.toNat := by
  obtain ⟨m, k, h⟩ := opcodeRow_some hop
  exact ⟨m, k, h, (and_mask_eq_match h _).2 ⟨by simp, hz⟩, fun h3 => by simpa using hk h3⟩

theorem nop : Statement .nop := fun _ =>
  matchesRow_columns (by decide) (by decide) (by decide)

theorem tapclr : Statement .tapclr := fun _ =>
  matchesRow_columns (by decide) (by decide) (by decide)

theorem tapadd (tap : Field16) : Statement (.tapadd tap) := fun _ => by
  refine matchesRow_columns (op := 0x2) (by decide) (fun p hp hz => ?_) (fun h => absurd h (by decide))
  have : (4 ≤ p ∧ p < 16) ∨ 32 ≤ p := by simpa [opcode, reservedZero] using hz
  rw [getLsbD_columns]; split_ifs <;> first | omega | simp

theorem config (slot : SlotField) (kind : KindField) : Statement (.config slot kind) := fun hwf => by
  refine matchesRow_columns (op := 0x3) (by decide) (fun p hp hz => ?_) fun _ => ?_
  · have : 10 ≤ p := by simpa [opcode, reservedZero] using hz
    rw [getLsbD_columns]
    split_ifs <;> first | omega | simp
    intro _; exact BitVec.getLsbD_of_ge _ _ (by omega)
  · have : (kind.setWidth 8).setWidth 2 = kind := by
      refine BitVec.eq_of_toNat_eq ?_
      have := kind.isLt
      simp only [BitVec.toNat_setWidth]; omega
    rw [this]
    simpa [Instr.wellFormed] using hwf

theorem bit_columns (slot op : BitVec 4) (x : Bool) (hop : op.toNat = 4 ∨ op.toNat = 5) :
    MatchesRow (columns 0 0 0 ((BitVec.ofBool x).setWidth 8) slot op) op.toNat := by
  refine matchesRow_columns (by omega) (fun p hp hz => ?_) (by omega)
  have : 9 ≤ p := by rcases hop with h | h <;> simpa [h, reservedZero] using hz
  rw [getLsbD_columns]
  split_ifs <;> first | omega | simp
  omega

theorem scrb (slot : SlotField) (x : Bool) : Statement (.scrb slot x) := fun _ =>
  bit_columns slot 4 x (.inl rfl)

theorem dscb (slot : SlotField) (x : Bool) : Statement (.dscb slot x) := fun _ =>
  bit_columns slot 5 x (.inr rfl)

theorem byte_columns (slot op : BitVec 4) (v : Byte) (hop : op.toNat = 6 ∨ op.toNat = 7) :
    MatchesRow (columns 0 0 0 v slot op) op.toNat := by
  refine matchesRow_columns (by omega) (fun p hp hz => ?_) (by omega)
  have : 16 ≤ p := by rcases hop with h | h <;> simpa [h, reservedZero] using hz
  rw [getLsbD_columns]
  split_ifs <;> first | omega | simp

theorem scry (slot : SlotField) (v : Byte) : Statement (.scry slot v) := fun _ =>
  byte_columns slot 6 v (.inl rfl)

theorem dscy (slot : SlotField) (v : Byte) : Statement (.dscy slot v) := fun _ =>
  byte_columns slot 7 v (.inr rfl)

theorem state (slot : SlotField) : Statement (.state slot) := fun _ => by
  refine matchesRow_columns (op := 0x8) (by decide) (fun p hp hz => ?_) (fun h => absurd h (by decide))
  have : 8 ≤ p := by simpa [opcode, reservedZero] using hz
  rw [getLsbD_columns]
  split_ifs <;> first | omega | simp

theorem range_columns (slot op : BitVec 4) (src dst len : Field16) (hop : op.toNat = 9 ∨ op.toNat = 10) :
    MatchesRow (columns dst src len 0 slot op) op.toNat := by
  refine matchesRow_columns (by omega) (fun p hp hz => ?_) (by omega)
  have : 8 ≤ p ∧ p < 16 := by rcases hop with h | h <;> simpa [h, reservedZero] using hz
  rw [getLsbD_columns]
  split_ifs <;> first | omega | simp

theorem scrr (slot : SlotField) (src dst len : Field16) : Statement (.scrr slot src dst len) := fun _ =>
  range_columns slot 9 src dst len (.inl rfl)

theorem dscr (slot : SlotField) (src dst len : Field16) : Statement (.dscr slot src dst len) := fun _ =>
  range_columns slot 10 src dst len (.inr rfl)

theorem bufwr (addr : Field16) (v : Byte) : Statement (.bufwr addr v) := fun _ => by
  refine matchesRow_columns (op := 0xB) (by decide) (fun p hp hz => ?_) (fun h => absurd h (by decide))
  have : (4 ≤ p ∧ p < 8) ∨ (16 ≤ p ∧ p < 32) ∨ 48 ≤ p := by
    simpa [opcode, reservedZero, or_assoc] using hz
  rw [getLsbD_columns]
  split_ifs <;> first | omega | simp

theorem bufrd (addr : Field16) : Statement (.bufrd addr) := fun _ => by
  refine matchesRow_columns (op := 0xC) (by decide) (fun p hp hz => ?_) (fun h => absurd h (by decide))
  have : (4 ≤ p ∧ p < 32) ∨ 48 ≤ p := by simpa [opcode, reservedZero] using hz
  rw [getLsbD_columns]
  split_ifs <;> first | omega | simp

end Sys2Proof.Laws.EncodeRow
end

