-- ==== Sys2Proof/Laws/Stream.lean ====
section
/-! SUPPORT. Streams of bit and byte commands on a slot, in terms of the stream bits its register
remembers. -/

namespace Sys2Proof.Machine

/-! ### Bit operations on remembered stream bits -/

/-- The bit operation of a direction on remembered stream bits: that of the Fibonacci engine. -/
def Fib.bitOp (T : List Nat) (d : Nat) (dir : Direction) : Nat → Bool → Nat × Bool :=
  match dir with
  | .scramble => Fib.sbit T d
  | .descramble => Fib.dbit T d

/-- A bit operation of a configured slot is that of the Fibonacci engine on the stream bits its register
remembers. -/
theorem Slot.Engine.bitOp_remembers {dmax F : Nat} {sl : Slot} (h : sl.Engine dmax) (hF : sl.Remembers F)
    (dir : Direction) (x : Bool) :
    (sl.bitOp dir sl.reg x).2 = (Fib.bitOp sl.tapList sl.deg dir F x).2 ∧
      ({ sl with reg := (sl.bitOp dir sl.reg x).1 } : Slot).Remembers
        (Fib.bitOp sl.tapList sl.deg dir F x).1 ∧
      (sl.bitOp dir sl.reg x).1 < 2 ^ sl.width := by
  cases dir
  · show (sl.sbit x).2 = _ ∧ ({ sl with reg := (sl.sbit x).1 } : Slot).Remembers _ ∧ (sl.sbit x).1 < _
    rw [Slot.sbit_reg, h.sbit_output hF]
    exact ⟨rfl, h.shift_remembers hF _, h.shift_lt _⟩
  · show (sl.dbit x).2 = _ ∧ ({ sl with reg := (sl.dbit x).1 } : Slot).Remembers _ ∧ (sl.dbit x).1 < _
    rw [Slot.dbit_eq, h.sbit_output hF]
    exact ⟨rfl, h.shift_remembers hF _, h.shift_lt _⟩

/-- The same for several bits in a row. -/
theorem Slot.Engine.serial_remembers {dmax F : Nat} {sl : Slot} (h : sl.Engine dmax) (hF : sl.Remembers F)
    (dir : Direction) (v : Nat → Bool) (k : Nat) :
    (∀ b, (serialBits (sl.bitOp dir) v sl.reg k).2 b =
        (serialBits (Fib.bitOp sl.tapList sl.deg dir) v F k).2 b) ∧
      ({ sl with reg := (serialBits (sl.bitOp dir) v sl.reg k).1 } : Slot).Remembers
        (serialBits (Fib.bitOp sl.tapList sl.deg dir) v F k).1 ∧
      (serialBits (sl.bitOp dir) v sl.reg k).1 < 2 ^ sl.width := by
  induction k with
  | zero => exact ⟨fun _ => rfl, hF, h.reg_lt⟩
  | succ k ih =>
    obtain ⟨h1, h2, h3⟩ := (h.withReg ih.2.2).bitOp_remembers ih.2.1 dir (v k)
    refine ⟨fun b => ?_, h2, h3⟩
    simp only [serialBits]
    by_cases hb : b = k
    · rw [if_pos hb, if_pos hb]; exact h1
    · rw [if_neg hb, if_neg hb]; exact ih.1 b

theorem Fib.bitOp_lt (T : List Nat) (d : Nat) (dir : Direction) (F : Nat) (x : Bool) :
    (Fib.bitOp T d dir F x).1 < 2 ^ d := by
  cases dir <;> exact Fib.shiftIn_lt ..

theorem Fib.serial_lt {T : List Nat} {d F : Nat} (dir : Direction) (v : Nat → Bool) (k : Nat)
    (hF : F < 2 ^ d) : (serialBits (Fib.bitOp T d dir) v F k).1 < 2 ^ d := by
  cases k with
  | zero => exact hF
  | succ k => exact Fib.bitOp_lt ..

/-! ### Operations of a stream -/

/-- The number a stream operation carries. -/
def StreamOp.value : StreamOp → Nat
  | .bit x => x.toNat
  | .byte v => v.toNat

/-- An operation of a slot: the new register and the output. -/
def Slot.streamOp (sl : Slot) (dir : Direction) : StreamOp → Nat × StreamOp
  | .bit x => ((sl.bitOp dir sl.reg x).1, .bit (sl.bitOp dir sl.reg x).2)
  | .byte v => ((sl.byteOp dir v).1, .byte (sl.byteOp dir v).2)

/-- The same operation on remembered stream bits. -/
def Fib.streamOp (T : List Nat) (d : Nat) (dir : Direction) (F : Nat) : StreamOp → Nat × StreamOp
  | .bit x => ((Fib.bitOp T d dir F x).1, .bit (Fib.bitOp T d dir F x).2)
  | .byte v => ((serialBits (Fib.bitOp T d dir) v.getLsbD F 8).1,
      .byte (packByte (serialBits (Fib.bitOp T d dir) v.getLsbD F 8).2))

theorem Fib.streamOp_lt {T : List Nat} {d F : Nat} (hF : F < 2 ^ d) (dir : Direction) (op : StreamOp) :
    (Fib.streamOp T d dir F op).1 < 2 ^ d := by
  cases op with
  | bit x => exact Fib.bitOp_lt ..
  | byte v => exact Fib.serial_lt _ _ _ hF

theorem Slot.Engine.streamOp_remembers {dmax F : Nat} {sl : Slot} (h : sl.Engine dmax) (hF : sl.Remembers F)
    (dir : Direction) (op : StreamOp) :
    (sl.streamOp dir op).2 = (Fib.streamOp sl.tapList sl.deg dir F op).2 ∧
      ({ sl with reg := (sl.streamOp dir op).1 } : Slot).Remembers
        (Fib.streamOp sl.tapList sl.deg dir F op).1 ∧
      (sl.streamOp dir op).1 < 2 ^ sl.width := by
  cases op with
  | bit x =>
    obtain ⟨h1, h2, h3⟩ := h.bitOp_remembers hF dir x
    exact ⟨congrArg StreamOp.bit h1, h2, h3⟩
  | byte v =>
    obtain ⟨h1, h2, h3⟩ := h.serial_remembers hF dir v.getLsbD 8
    obtain ⟨hr, hb⟩ := h.byteOp_eq dir v
    refine ⟨congrArg StreamOp.byte (BitVec.eq_of_getLsbD_eq fun b hb8 => ?_), ?_, ?_⟩
    · rw [hb b hb8, h1, getLsbD_packByte _ hb8]
    · show ({ sl with reg := (sl.byteOp dir v).1 } : Slot).Remembers _
      rw [hr]; exact h2
    · show (sl.byteOp dir v).1 < _
      rw [hr]; exact h3

theorem StreamOp.carrying_value (op : StreamOp) (sl : Slot) (dir : Direction) :
    op.carrying (sl.streamOp dir op).2.value = (sl.streamOp dir op).2 := by
  cases op with
  | bit x =>
    show StreamOp.bit ((sl.bitOp dir sl.reg x).2.toNat.testBit 0) = .bit (sl.bitOp dir sl.reg x).2
    rw [testBit_boolToNat]; simp
  | byte v => simp [StreamOp.carrying, Slot.streamOp, StreamOp.value]

/-- A bit or byte command on a configured slot. -/
theorem exec_command {s : State} {n : SlotField} (h : s.Configured n) (dir : Direction) (op : StreamOp) :
    exec (op.command dir n) s = .next ((s.setReg n ((s.slot n).streamOp dir op).1).answered
      ((s.slot n).streamOp dir op).2.value) := by
  cases dir <;> cases op <;>
    first
    | exact bitCommand_ok h
    | exact byteCommand_ok h

theorem issue_ok {s : State} {n : SlotField} (h : s.Configured n) (dir : Direction) (op : StreamOp) :
    issue dir n op s = some (((s.slot n).streamOp dir op).2,
      (s.setReg n ((s.slot n).streamOp dir op).1).answered ((s.slot n).streamOp dir op).2.value) := by
  rw [issue, exec_command h]
  exact congrArg (fun o => some (o, _)) (op.carrying_value _ dir)

/-! ### Streams -/

/-- A stream on a slot: the outputs and the register it leaves. -/
def Slot.stream (sl : Slot) : List (Direction × StreamOp) → List StreamOp × Nat
  | [] => ([], sl.reg)
  | op :: ops =>
    let out := sl.streamOp op.1 op.2
    let rest := ({ sl with reg := out.1 } : Slot).stream ops
    (out.2 :: rest.1, rest.2)

/-- A stream on remembered stream bits. -/
def Fib.stream (T : List Nat) (d : Nat) : Nat → List (Direction × StreamOp) → List StreamOp × Nat
  | F, [] => ([], F)
  | F, op :: ops =>
    let out := Fib.streamOp T d op.1 F op.2
    let rest := Fib.stream T d out.1 ops
    (out.2 :: rest.1, rest.2)

theorem Slot.Engine.stream_remembers {dmax F : Nat} {sl : Slot} (h : sl.Engine dmax) (hF : sl.Remembers F)
    (ops : List (Direction × StreamOp)) :
    (sl.stream ops).1 = (Fib.stream sl.tapList sl.deg F ops).1 ∧
      ({ sl with reg := (sl.stream ops).2 } : Slot).Remembers (Fib.stream sl.tapList sl.deg F ops).2 ∧
      (sl.stream ops).2 < 2 ^ sl.width := by
  induction ops generalizing sl F with
  | nil => exact ⟨rfl, hF, h.reg_lt⟩
  | cons op ops ih =>
    obtain ⟨h1, h2, h3⟩ := h.streamOp_remembers hF op.1 op.2
    obtain ⟨g1, g2, g3⟩ := ih (h.withReg h3) h2
    refine ⟨?_, g2, g3⟩
    simp only [Slot.stream, Fib.stream, h1]
    exact congrArg _ g1

/-- A stream of commands on a configured slot: the outputs are those of the slot; of the state only REG of
that slot and the response change. -/
theorem runStream_ok {s : State} {n : SlotField} (h : s.Configured n) (ops : List (Direction × StreamOp)) :
    ∃ r, runStream n ops s = some (((s.slot n).stream ops).1,
      { s.setReg n ((s.slot n).stream ops).2 with response := r }) := by
  induction ops generalizing s with
  | nil => exact ⟨s.response, by simp only [runStream, Slot.stream, State.setReg_self]⟩
  | cons op ops ih =>
    have hc : ((s.setReg n ((s.slot n).streamOp op.1 op.2).1).answered
        ((s.slot n).streamOp op.1 op.2).2.value).Configured n := by
      refine ⟨by simpa using h.1, ?_⟩
      rw [State.answered_slot, State.setReg_slot_same _ h.1]; exact h.2
    obtain ⟨r, hr⟩ := ih hc
    refine ⟨r, ?_⟩
    rw [runStream, issue_ok h]
    simp only [Option.bind_some, hr, Option.map_some, State.answered_slot,
      State.setReg_slot_same _ h.1, Slot.stream]
    congr 2
    show State.mk _ _ _ _ _ _ _ _ = State.mk _ _ _ _ _ _ _ _
    simp only [State.setReg, State.answered]
    congr 1
    exact congrArg State.slots (s.setReg_setReg n _ _)

end Sys2Proof.Machine
end

