-- ==== Sys2Proof/Laws/TapConfig.lean ====
section
/-! SUPPORT. The staged tap set, its validation, and the engine that CONFIG builds. -/

namespace Sys2Proof.Machine

theorem mem_stagedTaps {dmax stage t : Nat} :
    t ∈ stagedTaps dmax stage ↔ 1 ≤ t ∧ t ≤ dmax ∧ stage.testBit t = true := by
  rw [stagedTaps, List.mem_filter, List.mem_range'_1, and_assoc]
  exact and_congr_right fun _ => and_congr_left fun _ => by omega

theorem stagedTaps_pairwise (dmax stage : Nat) : (stagedTaps dmax stage).Pairwise (· < ·) :=
  List.Pairwise.filter _ (List.pairwise_lt_range' ..)

theorem foldl_max_spec (T : List Nat) (m : Nat) :
    (∀ t ∈ T, t ≤ T.foldl max m) ∧ m ≤ T.foldl max m ∧ (T.foldl max m = m ∨ T.foldl max m ∈ T) := by
  induction T generalizing m with
  | nil => simp
  | cons t T ih =>
    obtain ⟨h1, h2, h3⟩ := ih (max m t)
    rw [List.foldl_cons]
    refine ⟨fun u hu => ?_, by omega, ?_⟩
    · rcases List.mem_cons.1 hu with rfl | hu
      · omega
      · exact h1 u hu
    · rcases h3 with h3 | h3
      · rcases Nat.le_total m t with h | h
        · exact .inr (List.mem_cons.2 (.inl (by omega)))
        · exact .inl (by omega)
      · exact .inr (List.mem_cons_of_mem _ h3)

/-- What a valid stage gives: the staged taps and the highest of them. -/
theorem validate_some {dmax stage d : Nat} {T : List Nat} (h : validate dmax stage = some (T, d)) :
    T = stagedTaps dmax stage ∧ d ∈ T ∧ ∀ t ∈ T, 1 ≤ t ∧ t ≤ d ∧ d ≤ dmax := by
  simp only [validate] at h
  split at h
  · cases h
  · rename_i hne
    obtain ⟨rfl, rfl⟩ := Prod.mk.inj (Option.some.inj h)
    obtain ⟨h1, -, h3⟩ := foldl_max_spec (stagedTaps dmax stage) 0
    have hm : (stagedTaps dmax stage).foldl max 0 ∈ stagedTaps dmax stage := by
      refine h3.resolve_left fun h0 => hne ?_
      rw [List.isEmpty_iff]
      refine List.eq_nil_iff_forall_not_mem.2 fun t ht => ?_
      have := h1 t ht
      have := (mem_stagedTaps.1 ht).1
      omega
    exact ⟨rfl, hm, fun t ht => ⟨(mem_stagedTaps.1 ht).1, h1 t ht, (mem_stagedTaps.1 hm).2.1⟩⟩

/-- A stage without an effective tap is EMPTY. -/
theorem validate_none_iff {dmax stage : Nat} :
    validate dmax stage = none ↔ ∀ p, 1 ≤ p → p ≤ dmax → stage.testBit p = false := by
  have he : validate dmax stage = none ↔ stagedTaps dmax stage = [] := by
    simp only [validate]
    rw [← List.isEmpty_iff]
    split <;> simp_all
  rw [he, List.eq_nil_iff_forall_not_mem]
  simp only [mem_stagedTaps, not_and, Bool.not_eq_true]

theorem freeRegister_lt (draw index width : Nat) : freeRegister draw index width < 2 ^ width :=
  Nat.and_lt_two_pow _ (mask_lt width)

theorem tapmask_testBit_staged {dmax stage d : Nat} {T : List Nat} (h : validate dmax stage = some (T, d))
    (p : Nat) : (tapmask T).testBit p = decide (p + 1 ∈ T) := by
  obtain ⟨rfl, -, hr⟩ := validate_some h
  exact testBit_tapmask (stagedTaps_pairwise _ _).nodup (fun t ht => (hr t ht).1) p

/-- The engine CONFIG builds from a valid stage. -/
theorem construct_engine {dmax stage d : Nat} {T : List Nat} (h : validate dmax stage = some (T, d))
    (k : Kind) (draw : Nat) : (construct k T d dmax draw).Engine dmax := by
  obtain ⟨hT, hm, hr⟩ := validate_some h
  have ht := tapmask_testBit_staged h
  have hd := hr d hm
  have hset : tapSet (tapmask T) = T :=
    tapSet_tapmask (hT ▸ stagedTaps_pairwise _ _) fun t ht => (hr t ht).1
  refine ⟨hd.1, hd.2.2, ?_, ?_, ?_, ?_, ?_, ?_⟩
  · show (tapmask T).testBit (d - 1) = true
    rw [ht, decide_eq_true_eq, show d - 1 + 1 = d by omega]; exact hm
  · refine lt_two_pow_of_testBit fun i hi => ?_
    show (tapmask T).testBit i = false
    rw [ht, decide_eq_false_iff_not]
    intro hc
    have := (hr _ hc).2.1
    have hi : d ≤ i := hi
    omega
  · cases k <;> exact mask_lt _
  · intro hk; cases k <;> first | rfl | cases hk
  · intro hk; cases k <;> cases hk
    show sdeps T d = sdeps (tapSet (tapmask T)) d
    rw [hset]
  · intro hk; cases k <;> cases hk
    show ddeps T d = ddeps (tapSet (tapmask T)) d
    rw [hset]

theorem sdeps_lt {T : List Nat} {d b : Nat} (hr : ∀ t ∈ T, 1 ≤ t ∧ t ≤ d) (hb : b < 8) :
    (sdeps T d).getD b 0 < 2 ^ (d + b + 1) := by
  induction b using Nat.strong_induction_on with
  | _ b ih =>
    obtain ⟨earlier, he, hi⟩ := sdeps_eq T d hb
    rw [he, sdepMask_foldl]
    refine lt_two_pow_of_testBit fun p hp => ?_
    rw [Nat.testBit_xor, testBit_foldl, testBit_e, xorOver_congr (g := fun _ => false)]
    · have : xorOver T (fun _ => false) = false := by clear * -; induction T <;> simp_all
      simp [this, show ¬d + b = p by omega]
    · intro t ht
      have := hr t ht
      split
      · rw [hi _ (by omega)]
        exact testBit_of_lt (ih (d + b - t - d) (by omega) (by omega)) (by omega)
      · simp [show ¬d + b - t = p by omega]

theorem ddeps_lt {T : List Nat} {d b : Nat} (hb : b < 8) : (ddeps T d).getD b 0 < 2 ^ (d + b + 1) := by
  rw [ddeps, vec8_getD _ hb, ddepMask]
  refine lt_two_pow_of_testBit fun p hp => ?_
  rw [testBit_foldl, testBit_e, xorOver_congr (g := fun _ => false)]
  · have : xorOver T (fun _ => false) = false := by clear * -; induction T <;> simp_all
    simp [this, show ¬d + b = p by omega]
  · intro t _
    simp [show ¬d + b - t = p by omega]

/-- The fields of the engine CONFIG builds fit their widths. -/
theorem construct_widths {dmax stage d : Nat} {T : List Nat} (h : validate dmax stage = some (T, d))
    (hdmax : dmax < 2 ^ 16) (k : Kind) (draw : Nat) : (construct k T d dmax draw).Widths dmax := by
  have he := construct_engine h k draw
  obtain ⟨-, hm, hr⟩ := validate_some h
  have hd := hr d hm
  have up : ∀ {a m n : Nat}, a < 2 ^ m → m ≤ n → a < 2 ^ n := fun ha hmn =>
    lt_of_lt_of_le ha (Nat.pow_le_pow_right (by norm_num) hmn)
  have ht : (construct k T d dmax draw).taps < 2 ^ dmax := up he.taps_lt he.deg_le
  refine ⟨ht, lt_of_le_of_lt he.deg_le hdmax, ?_, ?_, fun b hb => ?_, fun b hb => ?_⟩
  · refine up he.reg_lt ?_
    cases k <;> simp [construct, Slot.width] <;> omega
  · cases k <;> first | exact freeRegister_lt .. | exact ht
  · cases k <;> simp only [construct]
    · rw [vec8_getD _ hb]; exact freeRegister_lt ..
    · rw [vec8_getD _ hb]; exact freeRegister_lt ..
    · exact up (sdeps_lt (fun t ht => ⟨(hr t ht).1, (hr t ht).2.1⟩) hb) (by omega)
  · cases k <;> simp only [construct]
    · rw [vec8_getD _ hb]; exact freeRegister_lt ..
    · rw [vec8_getD _ hb]; exact freeRegister_lt ..
    · exact up (ddeps_lt hb) (by omega)

/-- CONFIG with a legal KIND on an existing slot and a valid stage. -/
theorem execConfig_ok {s : State} {n : SlotField} {field : KindField} {k : Kind} {T : List Nat} {d : Nat}
    (hk : Kind.ofField field = some k) (hn : n.toNat < s.nslot)
    (hv : validate s.dmax s.tapstage = some (T, d)) :
    execConfig n field s = .next ((s.install n k T d).answered d) := by
  simp [execConfig, hk, Nat.not_le.2 hn, hv, respond_eq]

end Sys2Proof.Machine
end

