-- ==== Sys2Proof/Tests/Slice0.lean ====
section
/-! SUPPORT. Tests. Expected values come from the spec: 30_encoding.md R71, R80 and R99, and the vectors
of 95_test_vectors.md, whose section each test names. Then one witness for each statement that has
hypotheses. -/

namespace Sys2Proof.Tests

open Sys2Proof Sys2Proof.Machine

/-! ### Well-formedness and decoding -/

/-- KIND = 3 is the one ill-formed operand (R92). -/
theorem test_wellFormed_refuses_kind3 :
    (Instr.config 0 3#2).wellFormed = false ∧ (Instr.config 0 2#2).wellFormed = true := by decide

/-- N and T formats: OP alone; TAP in bits 31 .. 16. -/
theorem test_decode_stage :
    decodeWord 0x0000000000000000 = .ok .nop ∧ decodeWord 0x0000000000000001 = .ok .tapclr ∧
    decodeWord 0x0000000000180002 = .ok (.tapadd 24) ∧
    decodeWord 0x00000000FFFF0002 = .ok (.tapadd 65535) := ⟨rfl, rfl, rfl, rfl⟩

/-- K and B formats: SLOT in bits 7 .. 4, KIND in bits 9 .. 8, DBIT in bit 8. -/
theorem test_decode_config_bits :
    decodeWord 0x00000000000002F3 = .ok (.config 15 2) ∧ decodeWord 0x0000000000000113 = .ok (.config 1 1) ∧
    decodeWord 0x0000000000000134 = .ok (.scrb 3 true) ∧ decodeWord 0x0000000000000034 = .ok (.scrb 3 false) ∧
    decodeWord 0x0000000000000115 = .ok (.dscb 1 true) := ⟨rfl, rfl, rfl, rfl, rfl⟩

/-- Y and S formats: DATA in bits 15 .. 8. -/
theorem test_decode_bytes_state :
    decodeWord 0x000000000000A506 = .ok (.scry 0 0xA5) ∧ decodeWord 0x000000000000B617 = .ok (.dscy 1 0xB6) ∧
    decodeWord 0x00000000000000F8 = .ok (.state 15) := ⟨rfl, rfl, rfl⟩

/-- R format: LEN in bits 31 .. 16, SRC in bits 47 .. 32, DST in bits 63 .. 48. -/
theorem test_decode_ranges :
    decodeWord 0x0100000000100019 = .ok (.scrr 1 0x0000 0x0100 16) ∧
    decodeWord 0x001000200003001A = .ok (.dscr 1 0x0020 0x0010 3) := ⟨rfl, rfl⟩

/-- MW and MR formats: ADDR in bits 47 .. 32. -/
theorem test_decode_buffer :
    decodeWord 0x0000123400005A0B = .ok (.bufwr 0x1234 0x5A) ∧
    decodeWord 0x0000FFFF0000000C = .ok (.bufrd 0xFFFF) := ⟨rfl, rfl⟩

/-- Reserved opcodes, reserved-zero bits and KIND = 3 are refused by name (R90 to R92; words of
95_test_vectors.md sections 5 and 6). -/
theorem test_decode_refuses :
    decodeWord 0x000000000000000D = .error .reservedOpcode ∧
    decodeWord 0x000000000000000F = .error .reservedOpcode ∧
    decodeWord 0x0000000000000100 = .error .reservedBits ∧
    decodeWord 0x0000000000000204 = .error .reservedBits ∧
    decodeWord 0x0000000000000403 = .error .reservedBits ∧
    decodeWord 0x0001000000005A0B = .error .reservedBits ∧
    decodeWord 0x0000000000010008 = .error .reservedBits ∧
    decodeWord 0x0000000000000303 = .error .reservedKind ∧
    decodeWord 0x0000000000000343 = .error .reservedKind := ⟨rfl, rfl, rfl, rfl, rfl, rfl, rfl, rfl, rfl⟩

/-- Seven bytes hold no word; eight do, least significant first (R55). -/
theorem test_decode_bytes_list :
    decodeBytes [0x02, 0x00, 0x18, 0x00, 0x00, 0x00, 0x00] = .error .shortWord ∧
    decodeBytes [0x02, 0x00, 0x18, 0x00, 0x00, 0x00, 0x00, 0x00, 0xAA] = .ok (.tapadd 24, [0xAA]) :=
  ⟨rfl, rfl⟩

/-- The words of R99 are what the encoder gives. -/
theorem test_encode :
    encode (.scrr 1 0x0000 0x0100 16) = 0x0100000000100019 ∧
    encode (.bufwr 0x1234 0x5A) = 0x0000123400005A0B ∧ encode (.config 1 1) = 0x0000000000000113 ∧
    encode (.scrb 3 true) = 0x0000000000000134 := by decide

/-- A table word with bits above nbits: they are dropped. -/
theorem test_decodeTableWord :
    decodeTableWord 32 0xFFFFFFFF00180002 = some (.tapadd 24) ∧
    decodeTableWord 64 0x000000000000000E = none := ⟨rfl, rfl⟩

/-! ### Assembly (R97, R98) -/

theorem test_assemble_line :
    assemble "  SCRR 1, 0x0000, 0x0100, 16 ; copy".toList = some [0x0100000000100019] ∧
    assemble "; only a comment".toList = some [] := by decide

theorem test_assemble_rejects :
    assemble "TAPADD 65536".toList = none ∧ assemble "CONFIG 0, fib".toList = none ∧
    assemble "DSCB 0, 2".toList = none ∧ assemble "BUFSTR 0xFFFF, 1, 2".toList = none := by decide

/-! ### A small state

T = {1,2}, d = 2: fresh FIB, GAL and BULK slots, a GAL slot at Φ(0b11) = 0b10, a second FIB and BULK slot,
a FIB slot with T = {1}, a FIB slot at 0, and an unconfigured slot. -/

def zeros : Vector Nat 8 := Vector.replicate 8 0

def fibSlot (reg : Nat) : Slot :=
  { valid := true, kind := .fib, taps := 3, deg := 2, reg := reg, gmask := 0, sdeps := zeros, ddeps := zeros }

def galSlot (reg : Nat) : Slot :=
  { valid := true, kind := .gal, taps := 3, deg := 2, reg := reg, gmask := 3, sdeps := zeros, ddeps := zeros }

/-- The matrices of 95_test_vectors.md section 4 for {1,2}. -/
def bulkSlot (reg : Nat) : Slot :=
  { valid := true, kind := .bulk, taps := 3, deg := 2, reg := reg, gmask := 0,
    sdeps := #v[0x007, 0x00D, 0x01A, 0x037, 0x06D, 0x0DA, 0x1B7, 0x36D],
    ddeps := #v[0x007, 0x00E, 0x01C, 0x038, 0x070, 0x0E0, 0x1C0, 0x380] }

def oneTap : Slot :=
  { valid := true, kind := .fib, taps := 1, deg := 1, reg := 1, gmask := 0, sdeps := zeros, ddeps := zeros }

def wit : State :=
  { dmax := 16, bufSize := 32, tapstage := 0b110,
    slots := [fibSlot 3, galSlot 3, bulkSlot 0x3FF, galSlot 2, fibSlot 3, bulkSlot 0x3FF, oneTap, fibSlot 0,
      Slot.reset],
    buf := [(0, 0), (1, 0), (2, 0), (3, 0)], draws := 0, pending := [], response := none }

/-- The state with one command on the port. -/
def presenting (w : CmdWord) : State := { wit with pending := [.command w] }

/-- The state a command leaves. -/
def after (i : Instr) (s : State) : State :=
  match exec i s with
  | .next t => t
  | .fault _ => s
  | .refused _ => s

theorem exec_after (i : Instr) (s : State) : exec i s = .next (after i s) := by
  obtain ⟨t, h⟩ := exec_next i s
  rw [after, h]

/-- The response of a command. -/
def answer (i : Instr) (s : State) : Option Response := (after i s).response

/-! ### One step of each command (95_test_vectors.md sections 2, 3 and 5) -/

theorem test_nop : after .nop wit = wit.answered 0 := by decide

theorem test_tapclr : after .tapclr wit = { wit with tapstage := 0 }.answered 0 := by decide

/-- A tap already staged is held once; the largest tap is DMAX. -/
theorem test_tapadd :
    (after (.tapadd 2) wit).tapstage = 0b110 ∧ (after (.tapadd 16) wit).tapstage = 2 ^ 16 + 0b110 ∧
    answer (.tapadd 17) wit = some ⟨.eRange, 0⟩ := by decide

/-- The input marker stores nothing. -/
theorem test_tapadd_marker : after (.tapadd 0) wit = wit.answered 0 := by decide

theorem test_config :
    answer (.config 8 1) wit = some ⟨.ok, 2⟩ ∧ ((after (.config 8 1) wit).slot 8).reg = 0b11 ∧
    ((after (.config 8 1) wit).slot 8).gmask = 0b11 ∧ ((after (.config 8 2) wit).slot 8).reg = 0x3FF ∧
    ((after (.config 8 2) wit).slot 8).sdeps = (bulkSlot 0).sdeps ∧
    ((after (.config 8 2) wit).slot 8).ddeps = (bulkSlot 0).ddeps := by decide

theorem test_config_errors :
    answer (.config 9 0) wit = some ⟨.eSlot, 0⟩ ∧ answer (.config 9 3) wit = some ⟨.eIllegal, 0⟩ ∧
    answer (.config 0 0) { wit with tapstage := 0 } = some ⟨.eEmpty, 0⟩ := by decide

theorem test_scrb_zero :
    answer (.scrb 0 false) wit = some ⟨.ok, 0⟩ ∧ ((after (.scrb 0 false) wit).slot 0).reg = 0b10 ∧
    answer (.scrb 1 false) wit = some ⟨.ok, 1⟩ ∧ ((after (.scrb 1 false) wit).slot 1).reg = 0b10 ∧
    answer (.scrb 2 false) wit = some ⟨.ok, 0⟩ ∧ ((after (.scrb 2 false) wit).slot 2).reg = 0x1FF := by decide

theorem test_scrb_one :
    answer (.scrb 0 true) wit = some ⟨.ok, 1⟩ ∧ ((after (.scrb 0 true) wit).slot 0).reg = 3 ∧
    answer (.scrb 1 true) wit = some ⟨.ok, 0⟩ ∧ ((after (.scrb 1 true) wit).slot 1).reg = 1 ∧
    answer (.scrb 2 true) wit = some ⟨.ok, 1⟩ ∧ ((after (.scrb 2 true) wit).slot 2).reg = 0x3FF := by decide

theorem test_dscb_one :
    answer (.dscb 0 true) wit = some ⟨.ok, 1⟩ ∧ ((after (.dscb 0 true) wit).slot 0).reg = 3 ∧
    answer (.dscb 1 true) wit = some ⟨.ok, 0⟩ ∧ ((after (.dscb 1 true) wit).slot 1).reg = 2 ∧
    answer (.dscb 2 true) wit = some ⟨.ok, 1⟩ ∧ ((after (.dscb 2 true) wit).slot 2).reg = 0x3FF := by decide

/-- A descrambler shifts in the received bit, not its output. -/
theorem test_dscb_zero :
    answer (.dscb 0 false) wit = some ⟨.ok, 0⟩ ∧ ((after (.dscb 0 false) wit).slot 0).reg = 2 ∧
    answer (.dscb 8 true) wit = some ⟨.eUnconf, 0⟩ := by decide

theorem test_scry :
    answer (.scry 0 0x00) wit = some ⟨.ok, 0xB6⟩ ∧ ((after (.scry 0 0x00) wit).slot 0).reg = 1 ∧
    answer (.scry 1 0x00) wit = some ⟨.ok, 0x6D⟩ ∧ ((after (.scry 1 0x00) wit).slot 1).reg = 1 ∧
    answer (.scry 2 0x00) wit = some ⟨.ok, 0xB6⟩ ∧ ((after (.scry 2 0x00) wit).slot 2).reg = 0x2DB := by decide

/-- The Galois slot at Φ(0b11) follows the Fibonacci slot. -/
theorem test_scry_phi : answer (.scry 3 0x00) wit = some ⟨.ok, 0xB6⟩ := by decide

theorem test_dscy :
    answer (.dscy 0 0xB6) wit = some ⟨.ok, 0x00⟩ ∧ ((after (.dscy 0 0xB6) wit).slot 0).reg = 1 ∧
    answer (.dscy 1 0x6D) wit = some ⟨.ok, 0x00⟩ ∧ ((after (.dscy 1 0x6D) wit).slot 1).reg = 1 ∧
    answer (.dscy 2 0xB6) wit = some ⟨.ok, 0x00⟩ ∧ ((after (.dscy 2 0xB6) wit).slot 2).reg = 0x2DB := by decide

/-- The first byte of the raw descramble vectors for {1,2}. -/
theorem test_dscy_raw :
    answer (.dscy 0 0x00) wit = some ⟨.ok, 0x02⟩ ∧ answer (.dscy 1 0x00) wit = some ⟨.ok, 0x03⟩ ∧
    answer (.dscy 2 0x00) wit = some ⟨.ok, 0x02⟩ := by decide

theorem test_state :
    after (.state 2) (wit.setReg 2 0x1FF) = (wit.setReg 2 0x1FF).answered 3 ∧
    answer (.state 8) wit = some ⟨.eUnconf, 0⟩ ∧ answer (.state 9) wit = some ⟨.eSlot, 0⟩ := by decide

/-- A slot with T = {d} whose register is all ones, in a CORE with DMAX = 128. -/
def wideState (k : Kind) (d : Nat) : State :=
  { State.resetWith ⟨128, 1, 1⟩ with
    slots := [{ valid := true, kind := k, taps := 2 ^ (d - 1), deg := d, reg := 2 ^ (d + 8) - 1, gmask := 0,
                sdeps := zeros, ddeps := zeros }] }

theorem test_state_wide :
    answer (.state 0) (wideState .bulk 65) = some ⟨.eWide, 0⟩ ∧
    answer (.state 0) (wideState .bulk 64) = some ⟨.ok, 0xFFFFFFFFFFFFFFFF⟩ ∧
    answer (.state 0) (wideState .fib 65) = some ⟨.ok, 0x1FFFFFFFFFFFFFFFF⟩ := by decide

theorem test_scrr :
    (after (.scrr 0 0x00 0x10 3) wit).buf =
      [(0, 0), (1, 0), (2, 0), (3, 0), (0x10, 0xB6), (0x11, 0x6D), (0x12, 0xDB)] ∧
    ((after (.scrr 0 0x00 0x10 3) wit).slot 0).reg = 0b11 ∧
    answer (.scrr 0 0x00 0x10 3) wit = some ⟨.ok, 0⟩ := by decide

/-- Overlapping ranges: each output is read as the next source byte. -/
theorem test_scrr_overlap :
    (after (.scrr 0 0x00 0x01 3) wit).buf = [(0, 0x00), (1, 0xB6), (2, 0xE7), (3, 0x97)] ∧
    answer (.scrr 0 31 0 2) wit = some ⟨.eBounds, 0⟩ ∧ answer (.scrr 0 32 0 0) wit = some ⟨.ok, 0⟩ := by decide

theorem test_dscr :
    (after (.dscr 2 0x10 0x10 3) { wit with buf := [(0x10, 0xB6), (0x11, 0x6D), (0x12, 0xDB)] }).buf =
      [(0x10, 0), (0x11, 0), (0x12, 0)] ∧
    ((after (.dscr 2 0x10 0x10 3) { wit with buf := [(0x10, 0xB6), (0x11, 0x6D), (0x12, 0xDB)] }).slot 2).reg =
      0x36D ∧
    answer (.dscr 8 0 0 1) wit = some ⟨.eUnconf, 0⟩ := by decide

theorem test_bufwr :
    (after (.bufwr 2 0x5A) wit).buf = [(0, 0), (1, 0), (2, 0x5A), (3, 0)] ∧
    (after (.bufwr 31 0x5A) wit).buf = [(0, 0), (1, 0), (2, 0), (3, 0), (31, 0x5A)] ∧
    answer (.bufwr 32 0x5A) wit = some ⟨.eBounds, 0⟩ := by decide

/-- A byte not yet written reads as a free value: the test fixes only the counter and the status. -/
theorem test_bufrd :
    answer (.bufrd 0x10) { wit with buf := [(0x10, 0x5A)] } = some ⟨.ok, 0x5A⟩ ∧
    (after (.bufrd 5) wit).draws = 1 ∧ (answer (.bufrd 5) wit).map Response.status = some .ok ∧
    answer (.bufrd 0x10) { wit with bufSize := 16 } = some ⟨.eBounds, 0⟩ := by decide

/-! ### The port and reset -/

/-- The response of a step. -/
def stepAnswer (s : State) : Option Response :=
  match step s with
  | .next t => t.response
  | .fault _ => none
  | .refused _ => none

/-- Program P3: an illegal word, an unconfigured slot, a command that completes (section 6). -/
theorem test_step :
    stepAnswer (presenting 0x0000000000000303) = some ⟨.eIllegal, 0⟩ ∧
    stepAnswer (presenting 0x0000000000000088) = some ⟨.eUnconf, 0⟩ ∧
    stepAnswer (presenting 0x0000000000000006) = some ⟨.ok, 0xB6⟩ := by decide

theorem test_withFetchWord :
    stepAnswer (State.reset.withFetchWord 64 0x0000000000180002) = some ⟨.ok, 0⟩ ∧
    stepAnswer (State.reset.withFetchWord 64 0x0000000000000006) = some ⟨.eUnconf, 0⟩ ∧
    (State.reset.withFetchWord 64 0x0000000000180002).pending = [.command 0x0000000000180002] := by decide

/-- RESULT carried as bytes: RW = 16 bits in two bytes, least significant first (R55). -/
theorem test_resultBytes : (Response.mk .ok 0x1234).resultBytes 16 = [0x34, 0x12] := by decide

theorem test_status_codes :
    [Status.ok, .eIllegal, .eSlot, .eUnconf, .eEmpty, .eRange, .eWide, .eBounds].map Status.code =
      [0, 1, 2, 3, 4, 5, 6, 7] := by decide

/-! ### Witnesses: encoding -/

theorem test_witness_decodeOfEncode :
    (Instr.config 15 2).wellFormed = true ∧ (Instr.scrr 15 0xFFFF 0xFFFF 0xFFFF).wellFormed = true := by decide

theorem test_witness_decodedWord : decodeWord 0xFFFFFFFFFFFF00F9 = .ok (.scrr 15 0xFFFF 0xFFFF 0xFFFF) := rfl

/-- One word for each of the three reasons. -/
theorem test_witness_illegalWords :
    (presenting 0xD).pending = .command 0xD :: [] ∧ IllegalWord 0xD ∧
    IllegalWord 0x8000000000000000 ∧ IllegalWord 0x0000000000000303 :=
  ⟨rfl, .inl (by decide), .inr (.inl ⟨63, by decide, by decide, by decide⟩),
    .inr (.inr ⟨by decide, by decide⟩)⟩

theorem test_witness_assembledWords :
    assemble "BUFRD 0xFFFF".toList = some [0x0000FFFF0000000C] ∧
    (0x0000FFFF0000000C : CmdWord) ∈ [(0x0000FFFF0000000C : CmdWord)] := by decide

/-! ### Witnesses: steps and the invariant -/

theorem test_witness_stepRuns :
    (presenting 0x1).pending = .command 0x1 :: [] ∧ decodeWord 0x1 = .ok .tapclr := ⟨rfl, rfl⟩

theorem test_witness_waits : wit.pending = [] := rfl

theorem test_witness_reset : { wit with pending := [.reset] }.pending = .reset :: [] := rfl

theorem test_witness_resetDuring :
    { wit with pending := [.resetDuring 0x6, .command 0] }.pending = .resetDuring 0x6 :: [.command 0] := rfl

/-- The defaults and the two ends of every range of R6. -/
theorem test_witness_legalParameters :
    Config.default.Legal ∧ (Config.Params.mk 1 1 1).Legal ∧ (Config.Params.mk 65535 16 65536).Legal := by
  refine ⟨?_, ?_, ?_⟩ <;> constructor <;> decide

/-- The small state meets the invariant. -/
theorem test_witness_inv : wit.Inv := by
  have hw : ∀ sl ∈ wit.slots, sl.taps < 2 ^ wit.dmax ∧ sl.deg < 2 ^ 16 ∧ sl.reg < 2 ^ (wit.dmax + 8) ∧
      sl.gmask < 2 ^ wit.dmax ∧ (∀ b < 8, sl.sdeps.getD b 0 < 2 ^ (wit.dmax + 8)) ∧
      ∀ b < 8, sl.ddeps.getD b 0 < 2 ^ (wit.dmax + 8) := by decide
  have he : ∀ sl ∈ wit.slots, sl.valid = true → 1 ≤ sl.deg ∧ sl.deg ≤ wit.dmax ∧
      sl.taps.testBit (sl.deg - 1) = true ∧ sl.taps < 2 ^ sl.deg ∧ sl.reg < 2 ^ sl.width ∧
      (sl.kind = .gal → sl.gmask = sl.taps) ∧ (sl.kind = .bulk → sl.sdeps = sdeps sl.tapList sl.deg) ∧
      (sl.kind = .bulk → sl.ddeps = ddeps sl.tapList sl.deg) := by decide
  refine ⟨by constructor <;> decide, by decide, by decide, fun sl h => ?_, fun sl h hv => ?_, ?_, by decide,
    by decide, by decide⟩
  · obtain ⟨h1, h2, h3, h4, h5, h6⟩ := hw sl h
    exact ⟨h1, h2, h3, h4, h5, h6⟩
  · obtain ⟨h1, h2, h3, h4, h5, h6, h7, h8⟩ := he sl h hv
    exact ⟨h1, h2, h3, h4, h5, h6, h7, h8⟩
  · exact ⟨by decide, fun c _ => by simp [Memory.unlisted]⟩

theorem test_witness_stepKeeps : wit.Inv ∧ step wit = .next (idle wit) := ⟨test_witness_inv, rfl⟩

theorem test_witness_oneResponse :
    (presenting 0xF).pending = .command 0xF :: [] ∧ (presenting 0xF).Inv :=
  ⟨rfl, ⟨test_witness_inv.1, test_witness_inv.2, test_witness_inv.3, test_witness_inv.4, test_witness_inv.5,
    test_witness_inv.6, test_witness_inv.7, test_witness_inv.8, test_witness_inv.9⟩⟩

theorem test_witness_errors :
    exec (.scrb 15 true) wit = .next (wit.failed .eSlot) ∧
    (wit.failed .eSlot).response = some ⟨.eSlot, 0⟩ ∧ Status.eSlot ≠ .ok := ⟨rfl, rfl, by decide⟩

theorem test_witness_codes :
    (Instr.config 0 2).wellFormed = true ∧ exec (.config 0 2) wit = .next (after (.config 0 2) wit) :=
  ⟨by decide, exec_after ..⟩

/-- Slot NSLOT and slot NSLOT - 1. -/
theorem test_witness_slotErrors :
    ((Instr.state 9).wellFormed = true ∧ namedSlot (.state 9) = some 9 ∧ wit.nslot ≤ (9 : SlotField).toNat) ∧
    ((Instr.scry 8 0).wellFormed = true ∧ namedSlot (.scry 8 0) = some 8 ∧
      (8 : SlotField).toNat < wit.nslot ∧ (wit.slot 8).valid = false ∧ isConfig (.scry 8 0) = false) := by
  decide

/-! ### Witnesses: tap configuration and masks -/

/-- DMAX + 1, DMAX and the input marker. -/
theorem test_witness_tapadd :
    wit.dmax < (17 : Field16).toNat ∧
    ((16 : Field16).toNat ≤ wit.dmax ∧ wit.tapstage.testBit 0 = false) ∧ (0 : Field16).toNat ≤ wit.dmax := by
  decide

/-- Every kind, on the last slot, with staged taps. -/
theorem test_witness_config :
    ((0#2, Kind.fib) ∈ [(0#2, Kind.fib), (1#2, Kind.gal), (2#2, Kind.bulk)] ∧
      (1#2, Kind.gal) ∈ [(0#2, Kind.fib), (1#2, Kind.gal), (2#2, Kind.bulk)] ∧
      (2#2, Kind.bulk) ∈ [(0#2, Kind.fib), (1#2, Kind.gal), (2#2, Kind.bulk)]) ∧
    (8 : SlotField).toNat < wit.nslot ∧ ∃ p, 1 ≤ p ∧ p ≤ wit.dmax ∧ wit.tapstage.testBit p = true :=
  ⟨by decide, by decide, 2, by decide, by decide, by decide⟩

/-- The same with DMAX itself as the only tap. -/
theorem test_witness_config_top :
    ∃ p, 1 ≤ p ∧ p ≤ wit.dmax ∧ ({ wit with tapstage := 2 ^ 16 } : State).tapstage.testBit p = true :=
  ⟨16, by decide, by decide, by decide⟩

theorem test_witness_configErrors :
    (3#2 = 3#2) ∧ ((2#2 : KindField) ≠ 3#2 ∧ wit.nslot ≤ (9 : SlotField).toNat) ∧
    ((2#2 : KindField) ≠ 3#2 ∧ (8 : SlotField).toNat < wit.nslot ∧
      ∀ p, 1 ≤ p → p ≤ wit.dmax → ({ wit with tapstage := 0 } : State).tapstage.testBit p = false) :=
  ⟨rfl, by decide, by decide, by decide, fun p _ _ => Nat.zero_testBit p⟩

theorem test_witness_masks :
    [1, 2].Nodup ∧ (∀ t ∈ [1, 2], 1 ≤ t ∧ t ≤ 2) ∧ (7 < 8) ∧
    (sdeps [1, 2] 2).getD 7 0 ∈ [(sdeps [1, 2] 2).getD 7 0, (ddeps [1, 2] 2).getD 7 0] := by decide

/-- {1,2} on a fresh register and input byte 0x00: the recurrence gives 0xB6. -/
theorem test_witness_recurrence :
    (∀ t ∈ [1, 2], 1 ≤ t ∧ t ≤ 2) ∧
    ∀ b < 8, (0xB6 : Nat).testBit b = ((0b11 : Nat).testBit (2 + b) ^^
      oddTaps [1, 2] fun t => if t ≤ b then (0xB6 : Nat).testBit (b - t) else (0b11 : Nat).testBit (2 + b - t)) := by
  decide

/-! ### Witnesses: commands on slots -/

theorem test_witness_holds :
    wit.Inv ∧ wit.Holds 0 .fib ∧ wit.Holds 1 .gal ∧ wit.Holds 2 .bulk := by
  refine ⟨test_witness_inv, ?_, ?_, ?_⟩ <;> first | decide | (simp only [State.Holds]; decide)

/-- Degree 65 and degree 64. -/
theorem test_witness_state :
    ((wideState .bulk 65).Configured 0 ∧ ((wideState .bulk 65).slot 0).kind = .bulk ∧
      64 < ((wideState .bulk 65).slot 0).deg) ∧
    ((wideState .bulk 64).Configured 0 ∧ ((wideState .bulk 64).slot 0).deg ≤ 64) ∧
    ((wideState .fib 65).Configured 0 ∧ ((wideState .fib 65).slot 0).kind ≠ .bulk) := by
  simp only [State.Configured]; decide

theorem test_witness_byteBits : wit.Inv ∧ wit.Configured 3 :=
  ⟨test_witness_inv, by simp only [State.Configured]; decide⟩

/-! ### Witnesses: laws -/

theorem test_witness_bulkFib :
    wit.Inv ∧ wit.Holds 0 .fib ∧ wit.Holds 2 .bulk ∧ (wit.slot 0).taps = (wit.slot 2).taps ∧
    (wit.slot 0).Fresh ∧ (wit.slot 2).Fresh := by
  refine ⟨test_witness_inv, ?_, ?_, ?_, ?_, ?_⟩ <;> first | decide | (simp only [State.Holds, Slot.Fresh]; decide)

theorem test_witness_galFib :
    wit.Inv ∧ wit.Holds 0 .fib ∧ wit.Holds 3 .gal ∧ (wit.slot 0).taps = (wit.slot 3).taps ∧
    (wit.slot 3).reg = phi (wit.slot 0).tapList (wit.slot 0).deg (wit.slot 0).reg := by
  refine ⟨test_witness_inv, ?_, ?_, ?_, ?_⟩ <;> first | decide | (simp only [State.Holds]; decide)

theorem test_witness_phi : [1, 2].Nodup ∧ 2 ∈ [1, 2] ∧ (∀ t ∈ [1, 2], 1 ≤ t ∧ t ≤ 2) ∧ 0b10 < 2 ^ 2 := by decide

/-- (a) two FIB slots, (b) a FIB and a BULK slot, (d) a FIB slot and the GAL slot at its Φ. -/
theorem test_witness_paired :
    wit.Inv ∧ wit.Configured 0 ∧ wit.Configured 4 ∧ (0 : SlotField) ≠ 4 ∧
    (wit.slot 0).Paired (wit.slot 4) ∧ (wit.slot 0).Paired (wit.slot 2) ∧ (wit.slot 0).Paired (wit.slot 3) := by
  refine ⟨test_witness_inv, by simp only [State.Configured]; decide, by simp only [State.Configured]; decide,
    by decide, ⟨rfl, rfl, .inl ⟨rfl, rfl⟩⟩, ⟨rfl, rfl, .inr ⟨3, by decide, ?_, ?_⟩⟩,
    ⟨rfl, rfl, .inr ⟨3, by decide, ?_, ?_⟩⟩⟩
  · show (3 : Nat) = 3; rfl
  · show ∀ i < 2, (0x3FF : Nat).testBit (2 + 7 - i) = (3 : Nat).testBit i; decide
  · show (3 : Nat) = 3; rfl
  · show (2 : Nat) = phi (tapSet 3) 2 3; decide

theorem test_witness_oneStage :
    (7 : SlotField).toNat < wit.nslot ∧ (8 : SlotField).toNat < wit.nslot ∧ (7 : SlotField) ≠ 8 ∧
    (∃ p, 1 ≤ p ∧ p ≤ wit.dmax ∧ wit.tapstage.testBit p = true) ∧
    (2#2, 0#2) ∈ [(0#2, 0#2), (1#2, 1#2), (2#2, 2#2), (0#2, 2#2), (2#2, 0#2)] :=
  ⟨by decide, by decide, by decide, ⟨1, by decide, by decide, by decide⟩, by decide⟩

/-- Registers that differ. -/
theorem test_witness_synchronise :
    wit.Inv ∧ wit.Configured 2 ∧ wit.Configured 7 ∧ (2 : SlotField) ≠ 7 ∧
    (wit.slot 2).taps = (wit.slot 7).taps ∧ (wit.slot 7).reg = 0 := by
  refine ⟨test_witness_inv, ?_, ?_, ?_, ?_, ?_⟩ <;> first | decide | (simp only [State.Configured]; decide)

/-- A register of 0; a fresh register with an odd number of taps. -/
theorem test_witness_zeroInput :
    wit.Inv ∧ (wit.Configured 7 ∧ (wit.slot 7).kind = .fib ∧ (wit.slot 7).reg = 0) ∧
    (wit.Configured 6 ∧ (wit.slot 6).kind ≠ .gal ∧ (wit.slot 6).Fresh ∧
      (wit.slot 6).tapList.length % 2 = 1) := by
  refine ⟨test_witness_inv, ?_, ?_⟩ <;> first | decide | (simp only [State.Configured, Slot.Fresh]; decide)

/-- As many bits as the lowest tap; a fresh GAL slot. -/
theorem test_witness_firstBits :
    wit.Inv ∧ (wit.Configured 5 ∧ (wit.slot 5).Fresh ∧ (wit.slot 5).kind ≠ .gal ∧
      ∀ t ∈ (wit.slot 5).tapList, [true].length ≤ t) ∧
    (wit.Configured 1 ∧ (wit.slot 1).Fresh ∧ (wit.slot 1).kind = .gal) := by
  refine ⟨test_witness_inv, ?_, ?_⟩ <;> first | decide | (simp only [State.Configured, Slot.Fresh]; decide)

theorem test_witness_returns :
    wit.Inv ∧ wit.Configured 1 ∧ (wit.slot 1).kind ≠ .bulk ∧ (wit.slot 1).reg ≠ 0 := by
  refine ⟨test_witness_inv, ?_⟩; simp only [State.Configured]; decide

/-! ### Witnesses: BUF -/

/-- One byte too many, at the source and at the destination; the empty range at BUF_SIZE. -/
theorem test_witness_rangeBounds :
    wit.Configured 0 ∧ wit.bufSize < (31 : Field16).toNat + (2 : Field16).toNat ∧
    (32 : Field16).toNat ≤ wit.bufSize := by
  simp only [State.Configured]; decide

/-- Ranges that end at BUF_SIZE, of several bytes and of one. -/
theorem test_witness_range :
    wit.bufSize ≤ 2 ^ 16 ∧ wit.Configured 0 ∧ (2 : Field16) ≠ 0 ∧
    (30 : Field16).toNat + (2 : Field16).toNat ≤ wit.bufSize ∧
    (31 : Field16).toNat + (1 : Field16).toNat ≤ wit.bufSize := by
  simp only [State.Configured]; decide

theorem test_witness_chunks :
    wit.bufSize ≤ 2 ^ 16 ∧ wit.Configured 0 ∧ (30 : Field16).toNat + (2 : Field16).toNat < 2 ^ 16 ∧
    (0 : Field16).toNat + (30 : Field16).toNat + (2 : Field16).toNat ≤ wit.bufSize := by
  simp only [State.Configured]; decide

/-- The four written bytes, to a range above them and onto themselves. -/
theorem test_witness_rangeOutputs :
    wit.Configured 0 ∧ (0 : Field16).toNat + (4 : Field16).toNat ≤ wit.bufSize ∧
    (28 : Field16).toNat + (4 : Field16).toNat ≤ wit.bufSize ∧
    (0 : Field16).toNat + (4 : Field16).toNat ≤ (28 : Field16).toNat ∧
    [(0 : Byte), 0, 0, 0].length = (4 : Field16).toNat ∧
    ∀ i < (4 : Field16).toNat, wit.buf.read ((0 : Field16).toNat + i) = [(0 : Byte), 0, 0, 0][i]? := by
  simp only [State.Configured]; decide

/-- A written address, one not written, and BUF_SIZE. -/
theorem test_witness_buffer :
    ((3 : Field16).toNat < wit.bufSize ∧ wit.buf.read (3 : Field16).toNat = some 0) ∧
    ((31 : Field16).toNat < wit.bufSize ∧ wit.buf.read (31 : Field16).toNat = none) ∧
    wit.bufSize ≤ (32 : Field16).toNat := by decide

theorem test_witness_readWrite :
    (31 : Field16).toNat < wit.bufSize ∧ exec (.bufwr 31 7) wit = .next (after (.bufwr 31 7) wit) ∧
    (namedSlot (.config 0 2)).isSome = true ∧
    (∀ dir n src dst len, Instr.config 0 2 ≠ rangeInstr dir n src dst len) ∧
    exec (.config 0 2) (after (.bufwr 31 7) wit) = .next (after (.config 0 2) (after (.bufwr 31 7) wit)) :=
  ⟨by decide, exec_after .., by decide, fun dir _ _ _ _ => by cases dir <;> simp [rangeInstr], exec_after ..⟩

/-! ### Witnesses: whole-machine rules -/

theorem test_witness_frames :
    exec (.scry 0 1) wit = .next (after (.scry 0 1) wit) ∧ namedSlot (.scry 0 1) ≠ some 1 ∧
    isConfig (.scry 0 1) = false ∧ Instr.scry 0 1 ≠ .tapclr ∧ (∀ tap, Instr.scry 0 1 ≠ .tapadd tap) ∧
    (∀ a v, Instr.scry 0 1 ≠ .bufwr a v) ∧
    ∀ dir n src dst len, Instr.scry 0 1 ≠ rangeInstr dir n src dst len :=
  ⟨exec_after .., by decide, by decide, by simp, by simp, by simp,
    fun dir _ _ _ _ => by cases dir <;> simp [rangeInstr]⟩

/-- A command that is no CONFIG, a CONFIG of another slot, and a CONFIG that raises an error. -/
theorem test_witness_configuration :
    (exec (.scry 0 1) wit = .next (after (.scry 0 1) wit) ∧
      (after (.scry 0 1) wit).response.isSome = true ∧ isConfig (.scry 0 1) = false) ∧
    (exec (.config 0 2) wit = .next (after (.config 0 2) wit) ∧
      (after (.config 0 2) wit).response = some ⟨.ok, 2⟩ ∧ namedSlot (.config 0 2) ≠ some 1) ∧
    (exec (.config 9 2) wit = .next (after (.config 9 2) wit) ∧
      (after (.config 9 2) wit).response = some ⟨.eSlot, 0⟩ ∧ Status.eSlot ≠ .ok) :=
  ⟨⟨exec_after .., by decide, by decide⟩, ⟨exec_after .., by decide, by decide⟩,
    ⟨exec_after .., by decide, by decide⟩⟩

theorem test_witness_valid :
    step wit = .next (idle wit) ∧ (wit.slot 0).valid = true ∧ (∀ rest, wit.pending ≠ .reset :: rest) ∧
    ∀ w rest, wit.pending ≠ .resetDuring w :: rest :=
  ⟨rfl, by decide, by simp [wit], by simp [wit]⟩

/-- The small state and one whose unspecified slot fields all differ. -/
def witOther : State :=
  { wit with
    slots := [{ fibSlot 3 with gmask := 1, sdeps := Vector.replicate 8 1 }, galSlot 3, bulkSlot 0x3FF, galSlot 2,
      fibSlot 3, bulkSlot 0x3FF, oneTap, fibSlot 0, { Slot.reset with kind := .bulk, deg := 7, reg := 9 }] }

theorem test_witness_unspecified : wit.SameSpecified witOther ∧ wit ≠ witOther := by
  have refl : ∀ sl : Slot, sl.SameSpecified sl := fun sl =>
    ⟨rfl, fun _ => rfl, fun _ => rfl, fun _ => rfl, fun _ => rfl, fun _ _ => rfl, fun _ _ => rfl, fun _ _ => rfl⟩
  refine ⟨⟨rfl, rfl, rfl, ?_, rfl, rfl, rfl, rfl⟩, by decide⟩
  refine .cons ⟨rfl, fun _ => rfl, fun _ => rfl, fun _ => rfl, fun _ => rfl, ?_, ?_, ?_⟩ (.cons (refl _)
    (.cons (refl _) (.cons (refl _) (.cons (refl _) (.cons (refl _) (.cons (refl _) (.cons (refl _)
    (.cons ⟨rfl, ?_, ?_, ?_, ?_, ?_, ?_, ?_⟩ .nil)))))))) <;> decide

end Sys2Proof.Tests
end

section
/-! The opcode map and the illegal words: a word matches the row of its own opcode and no other exactly
when it is not illegal, the decoder answers accordingly, and a step on an illegal word answers
E_ILLEGAL (30_encoding.md R80, R90 to R94, 60_exceptions.md R264). -/

namespace Sys2Proof.Machine

/-! ### Words and rows -/

theorem not_illegalWord_iff {w : CmdWord} :
    ¬IllegalWord w ↔ (opField w).toNat < 13 ∧
      (∀ p < 64, reservedZero (opField w).toNat p = true → w.getLsbD p = false) ∧
      ((opField w).toNat = 3 → kindField w ≠ 3#2) := by
  simp [IllegalWord]

/-- The only row a word can match is that of its opcode, and it does so when it is not illegal. -/
theorem matchesRow_iff {w : CmdWord} {op : Nat} :
    MatchesRow w op ↔ (opField w).toNat = op ∧ ¬IllegalWord w := by
  constructor
  · rintro ⟨m, k, hrow, hbits, hkind⟩
    obtain ⟨rfl, hzero⟩ := (and_mask_eq_match hrow w).1 hbits
    exact ⟨rfl, not_illegalWord_iff.2 ⟨(opcodeRow_bits hrow).1, hzero, hkind⟩⟩
  · rintro ⟨rfl, hw⟩
    obtain ⟨hlt, hzero, hkind⟩ := not_illegalWord_iff.1 hw
    obtain ⟨m, k, hrow⟩ := opcodeRow_some hlt
    exact ⟨m, k, hrow, (and_mask_eq_match hrow w).2 ⟨rfl, hzero⟩, hkind⟩

/-! ### The decoder -/

/-- Of a word whose opcode has a row, the decoder asks the row's bits and then KIND (R94). -/
theorem decodeWord_of_opcodeRow {w m k : CmdWord} (hrow : opcodeRow (opField w).toNat = some (m, k)) :
    decodeWord w =
      if w &&& k ≠ m then .error .reservedBits
      else if (opField w).toNat = 3 ∧ kindField w = 3#2 then .error .reservedKind
      else .ok (buildInstr (opField w).toNat w) := by
  simp only [decodeWord, hrow]

theorem decodeWord_of_not_illegalWord {w : CmdWord} (hw : ¬IllegalWord w) :
    decodeWord w = .ok (buildInstr (opField w).toNat w) := by
  obtain ⟨m, k, hrow, hbits, hkind⟩ := matchesRow_iff.2 ⟨rfl, hw⟩
  rw [decodeWord_of_opcodeRow hrow, if_neg (not_not.2 hbits), if_neg (not_and.2 hkind)]

/-- Each refusal of the decoder is one of the three reasons of R90 to R92; when it finds none, the word
matches a row. -/
theorem decodeWord_of_illegalWord {w : CmdWord} (hw : IllegalWord w) :
    ∃ err ∈ [DecodeError.reservedOpcode, .reservedBits, .reservedKind], decodeWord w = .error err := by
  cases hrow : opcodeRow (opField w).toNat with
  | none => exact ⟨.reservedOpcode, by simp, by simp [decodeWord, hrow]⟩
  | some row =>
    obtain ⟨m, k⟩ := row
    by_cases hbits : w &&& k = m
    · by_cases hkind : (opField w).toNat = 3 ∧ kindField w = 3#2
      · exact ⟨.reservedKind, by simp, by
          rw [decodeWord_of_opcodeRow hrow, if_neg (not_not.2 hbits), if_pos hkind]⟩
      · have hmatch : MatchesRow w (opField w).toNat := ⟨m, k, hrow, hbits, not_and.1 hkind⟩
        exact absurd hw (matchesRow_iff.1 hmatch).2
    · exact ⟨.reservedBits, by simp, by rw [decodeWord_of_opcodeRow hrow, if_pos hbits]⟩

/-! ### The step -/

theorem step_of_decodeWord_error {s : State} {w : CmdWord} {rest : List HostEvent} {err : DecodeError}
    (hp : s.pending = .command w :: rest) (hd : decodeWord w = .error err) :
    step s = .next ((accept rest s).failed .eIllegal) := by
  simp [step, hp, hd, takeIllegal, raiseError_eq]

/-! ### The obligations -/

/-- Settles O3: `matchesRow_iff` says when a word matches a row, and the decoder follows it. -/
theorem everyWordMatchesOneRowOrIsIllegal : Obligations.EveryWordMatchesOneRowOrIsIllegal := by
  intro w
  by_cases hw : IllegalWord w
  · have hnone : ¬∃ op, MatchesRow w op := fun ⟨_, hop⟩ => (matchesRow_iff.1 hop).2 hw
    exact .inr ⟨hnone, hw, decodeWord_of_illegalWord hw⟩
  · have hone : ∃! op, MatchesRow w op :=
      ⟨_, matchesRow_iff.2 ⟨rfl, hw⟩, fun _ hop => (matchesRow_iff.1 hop).1.symm⟩
    exact .inl ⟨⟨_, decodeWord_of_not_illegalWord hw⟩, hone, hw⟩

/-- Settles O6: the decoder refuses an illegal word, and the step then only fails with E_ILLEGAL. -/
theorem illegalWordsAnswerIllegal : Obligations.IllegalWordsAnswerIllegal := by
  intro s w rest hp hw
  obtain ⟨err, -, hd⟩ := decodeWord_of_illegalWord hw
  exact step_of_decodeWord_error hp hd

end Sys2Proof.Machine
end

section
/-! CONFIG: its errors in their order, the engine it builds, and that no other command writes the
configuration of a slot (41_tap_config.md R103 to R110). -/

namespace Sys2Proof.Machine

/-! ### The errors of CONFIG -/

theorem Kind.exists_ofField {field : KindField} (h : field ≠ 3#2) : ∃ k, Kind.ofField field = some k :=
  Option.ne_none_iff_exists'.1 fun hnone => h (Kind.ofField_none hnone)

theorem execConfig_kind3 (n : SlotField) (s : State) : execConfig n 3#2 s = .next (s.failed .eIllegal) := rfl

theorem execConfig_noSlot {s : State} {n : SlotField} {field : KindField} (hf : field ≠ 3#2)
    (hn : s.nslot ≤ n.toNat) : execConfig n field s = .next (s.failed .eSlot) := by
  obtain ⟨k, hk⟩ := Kind.exists_ofField hf
  simp [execConfig, hk, hn, raiseError_eq]

theorem execConfig_empty {s : State} {n : SlotField} {field : KindField} (hf : field ≠ 3#2)
    (hn : n.toNat < s.nslot) (hv : validate s.dmax s.tapstage = none) :
    execConfig n field s = .next (s.failed .eEmpty) := by
  obtain ⟨k, hk⟩ := Kind.exists_ofField hf
  simp [execConfig, hk, Nat.not_le.2 hn, hv, raiseError_eq]

/-- Settles O26: each error of CONFIG is one equation of `execConfig`, and a stage without a tap in
1 .. DMAX is one that `validate` refuses. -/
theorem configErrorsInOrder : Obligations.ConfigErrorsInOrder := by
  intro s n field
  refine ⟨?_, execConfig_noSlot, fun hf hn hstage => execConfig_empty hf hn (validate_none_iff.2 hstage)⟩
  rintro rfl
  exact execConfig_kind3 n s

/-! ### The engine CONFIG builds -/

theorem Kind.ofField_of_mem {field : KindField} {k : Kind}
    (h : (field, k) ∈ [(0#2, Kind.fib), (1#2, Kind.gal), (2#2, Kind.bulk)]) : Kind.ofField field = some k := by
  simp only [List.mem_cons, Prod.mk.injEq, List.not_mem_nil, or_false] at h
  rcases h with ⟨rfl, rfl⟩ | ⟨rfl, rfl⟩ | ⟨rfl, rfl⟩ <;> rfl

theorem exists_validate {dmax stage : Nat} (h : ∃ p, 1 ≤ p ∧ p ≤ dmax ∧ stage.testBit p = true) :
    ∃ T d, validate dmax stage = some (T, d) := by
  obtain ⟨p, hp, hle, hbit⟩ := h
  have hsome : validate dmax stage ≠ none := fun hnone => by
    simp [validate_none_iff.1 hnone p hp hle] at hbit
  obtain ⟨⟨T, d⟩, hv⟩ := Option.ne_none_iff_exists'.1 hsome
  exact ⟨T, d, hv⟩

/-- The degree that `validate` finds is the highest staged tap within DMAX (R103). -/
theorem validate_highest {dmax stage d : Nat} {T : List Nat} (h : validate dmax stage = some (T, d)) :
    1 ≤ d ∧ d ≤ dmax ∧ stage.testBit d = true ∧ ∀ p, d < p → p ≤ dmax → stage.testBit p = false := by
  obtain ⟨rfl, hmem, hrange⟩ := validate_some h
  obtain ⟨hpos, hle, hbit⟩ := mem_stagedTaps.1 hmem
  refine ⟨hpos, hle, hbit, fun p hdp hp => ?_⟩
  by_contra hset
  have hstaged : p ∈ stagedTaps dmax stage :=
    mem_stagedTaps.2 ⟨by omega, hp, Bool.eq_true_of_not_eq_false hset⟩
  obtain ⟨-, hpd, -⟩ := hrange p hstaged
  omega

/-- TAPS holds the stage without its bit 0 and without anything above DMAX (R103, R28). -/
theorem testBit_tapmask_of_validate {dmax stage d : Nat} {T : List Nat}
    (h : validate dmax stage = some (T, d)) (p : Nat) :
    (tapmask T).testBit p = (decide (p < dmax) && stage.testBit (p + 1)) := by
  obtain ⟨rfl, -, -⟩ := validate_some h
  rw [tapmask_testBit_staged h, Bool.eq_iff_iff]
  simp [mem_stagedTaps]

/-- The register of a new engine is all ones over the used width of its kind (R31). -/
theorem construct_fresh (k : Kind) (T : List Nat) (d dmax draw : Nat) :
    (construct k T d dmax draw).Fresh := by
  cases k <;> rfl

theorem State.install_slot_same {s : State} {n : SlotField} (k : Kind) (T : List Nat) (d : Nat)
    (h : n.toNat < s.nslot) : (s.install n k T d).slot n = construct k T d s.dmax s.draws := by
  simp [State.install_slot, h]

theorem State.install_slot_other {s : State} {n m : SlotField} (k : Kind) (T : List Nat) (d : Nat)
    (h : m ≠ n) : (s.install n k T d).slot m = s.slot m := by
  simp [State.install_slot, h]

theorem State.install_params (s : State) (n : SlotField) (k : Kind) (T : List Nat) (d : Nat) :
    (s.install n k T d).params = s.params := by
  simp [State.params]

/-- Settles O25: CONFIG installs `construct k T d`, which is an engine of the staged taps with a fresh
register, and `validate` finds the highest of them. -/
theorem configBuildsTheEngine : Obligations.ConfigBuildsTheEngine := by
  intro s n field k hfield hn hstage
  obtain ⟨T, d, hv⟩ := exists_validate hstage
  have hengine := construct_engine hv k s.draws
  have hfresh := construct_fresh k T d s.dmax s.draws
  refine ⟨d, (s.install n k T d).answered d, execConfig_ok (Kind.ofField_of_mem hfield) hn hv, rfl,
    validate_highest hv, ?_⟩
  rw [State.answered_slot, State.install_slot_same k T d hn]
  refine ⟨rfl, rfl, rfl, testBit_tapmask_of_validate hv, ?_, ?_, ?_,
    fun m hm => State.install_slot_other k T d hm, State.install_params s n k T d, rfl, rfl, rfl⟩
  · rintro rfl
    exact hfresh
  · rintro rfl
    exact ⟨hfresh, hengine.gmask_eq rfl⟩
  · rintro rfl
    exact ⟨hfresh, hengine.sdeps_eq rfl, hengine.ddeps_eq rfl⟩

/-! ### Who writes the configuration -/

theorem State.slot_of_slots_eq {s t : State} (h : t.slots = s.slots) (m : SlotField) :
    t.slot m = s.slot m := by
  rw [State.slot, State.slot, h]

theorem State.setReg_slot_configuration (s : State) (n : SlotField) (r : Nat) (m : SlotField) :
    ∃ q, (s.setReg n r).slot m = { s.slot m with reg := q } := by
  by_cases h : m = n ∧ n.toNat < s.nslot
  · exact ⟨r, by rw [State.setReg_slot, if_pos h, h.1]⟩
  · exact ⟨(s.slot m).reg, by rw [State.setReg_slot, if_neg h]⟩

/-- The effect of a command that is no CONFIG of slot `m` leaves every field of that slot but REG. -/
theorem Effect.slot_configuration {i : Instr} {s t : State} {v : Nat} {m : SlotField} (h : Effect i s t v)
    (hm : isConfig i = false ∨ namedSlot i ≠ some m) : ∃ q, t.slot m = { s.slot m with reg := q } := by
  rcases h.slots with ⟨n, f, k, T, d, rfl, -, -, hslots⟩ | ⟨-, n, r, -, hslots⟩ | ⟨-, hslots⟩
  · have hmn : m ≠ n := by
      rintro rfl
      simp [isConfig, namedSlot] at hm
    exact ⟨(s.slot m).reg, by rw [State.slot_of_slots_eq hslots, State.install_slot_other k T d hmn]⟩
  · rw [State.slot_of_slots_eq hslots]
    exact s.setReg_slot_configuration n r m
  · exact ⟨(s.slot m).reg, State.slot_of_slots_eq hslots m⟩

/-- Settles O58: an error changes no slot, and the effect of a command that answers OK writes the
configuration of slot m only if it is a CONFIG of m. -/
theorem onlyConfigWritesTheConfiguration : Obligations.OnlyConfigWritesTheConfiguration := by
  intro i s t r m hexec hr hcase
  rcases exec_cases i s with ⟨code, -, -, -, hfail⟩ | ⟨u, v, heffect, hok⟩
  · obtain rfl : s.failed code = t := Host.Outcome.next.inj (hfail.symm.trans hexec)
    exact ⟨(s.slot m).reg, rfl⟩
  · obtain rfl : u.answered v = t := Host.Outcome.next.inj (hok.symm.trans hexec)
    obtain rfl : ⟨.ok, v⟩ = r := Option.some.inj hr
    exact heffect.slot_configuration (hcase.imp_right fun h => h.resolve_right fun hne => hne rfl)

end Sys2Proof.Machine
end

section
/-! The dependency matrices of the Bulk engine, bit by bit, and the parity under a scramble mask
(44_bulk.md R161 to R164). -/

namespace Sys2Proof.Machine

/-! ### XOR over a tap set -/

theorem xorOver_eq_false {T : List Nat} {f : Nat → Bool} (h : ∀ t ∈ T, f t = false) :
    xorOver T f = false := by
  rw [xorOver_eq_odd, List.filter_eq_nil_iff.2 fun t ht => by simp [h t ht]]
  rfl

/-- Over distinct taps, a position that one tap flips is flipped once. -/
theorem xorOver_decide_eq {T : List Nat} (hT : T.Nodup) (a : Nat) :
    xorOver T (fun t => decide (t = a)) = decide (a ∈ T) := by
  induction T with
  | nil => rfl
  | cons t T ih =>
    obtain ⟨ht, hT⟩ := List.nodup_cons.1 hT
    rw [xorOver_cons, ih hT]
    by_cases h : t = a
    · subst h
      simp [ht]
    · simp [h, Ne.symm h]

/-! ### The bits of the masks -/

/-- Bit p of DD[b], by the loop of R163. -/
theorem testBit_ddeps (T : List Nat) (d : Nat) {b : Nat} (hb : b < 8) (p : Nat) :
    ((ddeps T d).getD b 0).testBit p =
      (decide (d + b = p) ^^ xorOver T fun t => decide (d + b - t = p)) := by
  rw [ddeps, vec8_getD _ hb, ddepMask, testBit_foldl]
  simp only [testBit_e]

/-- Bit p of SD[b], by recursion on the pending bits (R161). -/
theorem testBit_sdeps {T : List Nat} {d : Nat} (hr : ∀ t ∈ T, 1 ≤ t ∧ t ≤ d) {b : Nat} (hb : b < 8)
    (p : Nat) : ((sdeps T d).getD b 0).testBit p = (decide (d + b = p) ^^ xorOver T fun t =>
      if t ≤ b then ((sdeps T d).getD (b - t) 0).testBit p else decide (d + b - t = p)) := by
  obtain ⟨earlier, hmask, hearlier⟩ := sdeps_eq T d hb
  rw [hmask, sdepMask_foldl, Nat.testBit_xor, testBit_foldl, testBit_e, Nat.zero_testBit,
    Bool.false_xor, Bool.xor_comm]
  congr 1
  refine xorOver_congr fun t ht => ?_
  obtain ⟨hpos, hle⟩ := hr t ht
  by_cases h : t ≤ b
  · rw [if_pos h, if_pos (by omega), show d + b - t - d = b - t by omega, hearlier _ (by omega)]
  · rw [if_neg h, if_neg (by omega), testBit_e]

/-- Every tap flips a position below d + b, so the input position stays set in DD[b]. -/
theorem testBit_ddeps_input {T : List Nat} {d b : Nat} (hr : ∀ t ∈ T, 1 ≤ t ∧ t ≤ d) (hb : b < 8) :
    ((ddeps T d).getD b 0).testBit (d + b) = true := by
  rw [testBit_ddeps T d hb, xorOver_eq_false]
  · simp
  · intro t ht
    obtain ⟨hpos, hle⟩ := hr t ht
    exact decide_eq_false (by omega)

/-- The masks folded into SD[b] end below d + b, so the input position stays set in SD[b]. -/
theorem testBit_sdeps_input {T : List Nat} {d b : Nat} (hr : ∀ t ∈ T, 1 ≤ t ∧ t ≤ d) (hb : b < 8) :
    ((sdeps T d).getD b 0).testBit (d + b) = true := by
  rw [testBit_sdeps hr hb, xorOver_eq_false]
  · simp
  · intro t ht
    obtain ⟨hpos, hle⟩ := hr t ht
    by_cases h : t ≤ b
    · rw [if_pos h]
      exact testBit_of_lt (sdeps_lt hr (by omega)) (by omega)
    · rw [if_neg h]
      exact decide_eq_false (by omega)

/-- A mask below 2^(n+1) has no bit above n. -/
theorem le_of_testBit_of_lt {m n p : Nat} (hm : m < 2 ^ (n + 1)) (hp : m.testBit p = true) : p ≤ n := by
  by_contra h
  simp [testBit_of_lt hm (show n + 1 ≤ p by omega)] at hp

/-! ### The obligations -/

/-- Settles O28: the tap d + b - p is the only one that can flip position p, and the input position is
no tap's. -/
theorem descrambleMaskBits : Obligations.DescrambleMaskBits := by
  intro T d b p hT hr hb
  have hflip : xorOver T (fun t => decide (d + b - t = p)) = decide (d + b - p ∈ T) := by
    rw [← xorOver_decide_eq hT]
    refine xorOver_congr fun t ht => decide_eq_decide.2 ?_
    obtain ⟨hpos, hle⟩ := hr t ht
    omega
  have htap : d + b - p ∈ T ↔ ∃ t ∈ T, p + t = d + b := by
    constructor
    · intro h
      obtain ⟨hpos, hle⟩ := hr _ h
      exact ⟨_, h, by omega⟩
    · rintro ⟨t, ht, hp⟩
      rwa [show d + b - p = t by omega]
  rw [testBit_ddeps T d hb, hflip, ← htap]
  by_cases hp : p = d + b
  · have hzero : 0 ∉ T := fun h => absurd (hr 0 h).1 (by omega)
    simp [hp, hzero]
  · simp [hp, Ne.symm hp]

/-- Settles O29: both masks are below 2^(d+b+1) and have their input position set. -/
theorem masksReferOnlyToEarlierPendingBits : Obligations.MasksReferOnlyToEarlierPendingBits := by
  intro T d b hr hb m hm
  simp only [List.mem_cons, List.not_mem_nil, or_false] at hm
  rcases hm with rfl | rfl
  · exact ⟨testBit_sdeps_input hr hb, fun p hp _ => le_of_testBit_of_lt (sdeps_lt hr hb) hp⟩
  · exact ⟨testBit_ddeps_input hr hb, fun p hp _ => le_of_testBit_of_lt (ddeps_lt hb) hp⟩

/-- Settles O30, by strong induction on the pending bit: `parity_sdeps` says that the parities under the
scramble masks satisfy the recurrence of y. -/
theorem scrambleMaskParityIsTheRecurrence : Obligations.ScrambleMaskParityIsTheRecurrence := by
  intro T d buf y hr hy b
  induction b using Nat.strong_induction_on with
  | _ b ih =>
    intro hb
    rw [parity_sdeps hr buf hb, hy b hb, oddTaps, ← xorOver_eq_odd]
    congr 1
    refine xorOver_congr fun t ht => ?_
    obtain ⟨hpos, hle⟩ := hr t ht
    by_cases h : t ≤ b
    · rw [if_pos h, if_pos h, ih (b - t) (by omega) (by omega)]
    · rw [if_neg h, if_neg h]

end Sys2Proof.Machine
end

section
/-! SCRR and DSCR: the bounds check, and a range as the commands that read, transform and write its first
byte, followed by the range of the remaining bytes (46_range_ops.md R210 to R214). -/

namespace Sys2Proof.Machine

/-! ### One equation for each way a command of a range program succeeds -/

theorem exec_rangeInstr (dir : Direction) (n : SlotField) (src dst len : Field16) (s : State) :
    exec (rangeInstr dir n src dst len) s = rangeCommand (Slot.byteOp · dir) n src dst len s := by
  cases dir with
  | scramble => rfl
  | descramble => rfl

theorem exec_rangeInstr_ok {s : State} {n : SlotField} {src dst len : Field16} (h : s.Configured n)
    (dir : Direction) (hsrc : src.toNat + len.toNat ≤ s.bufSize)
    (hdst : dst.toNat + len.toNat ≤ s.bufSize) :
    exec (rangeInstr dir n src dst len) s =
      .next ((rangeLoop (Slot.byteOp · dir) n len.toNat src.toNat dst.toNat s).answered 0) := by
  rw [exec_rangeInstr, rangeCommand_ok h hsrc hdst]

theorem exec_bufrd_ok {s : State} {a : Field16} (h : a.toNat < s.bufSize) :
    exec (.bufrd a) s =
      .next ((s.memRead a.toNat).2.answered (s.memRead a.toNat).1.toNat) := by
  simp [exec, execBufrd, addressable, h, respond_eq]

theorem exec_bufwr_ok {s : State} {a : Field16} (h : a.toNat < s.bufSize) (v : Byte) :
    exec (.bufwr a v) s = .next ((s.memWrite a.toNat v).answered 0) := by
  simp [exec, execBufwr, addressable, h, respond_eq]

/-! ### What stays configured -/

theorem State.Configured.of_slots {s t : State} {n : SlotField} (h : s.Configured n)
    (hslots : t.slots = s.slots) : t.Configured n := by
  obtain ⟨hn, hv⟩ := h
  exact ⟨by rwa [State.nslot_eq, hslots], by rwa [State.slot_of_slots_eq hslots]⟩

theorem State.Configured.setReg {s : State} {n : SlotField} (h : s.Configured n) (r : Nat) :
    (s.setReg n r).Configured n := by
  obtain ⟨hn, hv⟩ := h
  exact ⟨by rwa [State.setReg_nslot], by rwa [State.setReg_slot_same r hn]⟩

theorem RangeEffect.configured {n : SlotField} {dst len : Nat} {s t : State}
    (h : RangeEffect n dst len s t) (hc : s.Configured n) : t.Configured n := by
  obtain ⟨r, hslots⟩ := h.slots
  exact (hc.setReg r).of_slots hslots

theorem State.memRead_slots (s : State) (a : Nat) : (s.memRead a).2.slots = s.slots := by
  obtain ⟨k, hk⟩ := s.memRead_state a
  rw [hk]

theorem State.memRead_bufSize (s : State) (a : Nat) : (s.memRead a).2.bufSize = s.bufSize := by
  obtain ⟨k, hk⟩ := s.memRead_state a
  rw [hk]

/-! ### The loop does not read the response -/

theorem State.memRead_answered (s : State) (v a : Nat) :
    (s.answered v).memRead a = ((s.memRead a).1, (s.memRead a).2.answered v) := by
  rcases s.memRead_cases a with ⟨x, hx, -⟩ | ⟨hx, -⟩
  · simp [State.memRead, hx]
  · simp [State.memRead, hx, State.answered]

theorem rangeByte_answered (op : Slot → Byte → Nat × Byte) (n : SlotField) (src dst : Nat) (s : State)
    (v : Nat) : rangeByte op n src dst (s.answered v) = (rangeByte op n src dst s).answered v := by
  simp only [rangeByte, State.memRead_answered]
  rfl

theorem rangeLoop_answered (op : Slot → Byte → Nat × Byte) (n : SlotField) (len src dst : Nat) (s : State)
    (v : Nat) : rangeLoop op n len src dst (s.answered v) = (rangeLoop op n len src dst s).answered v := by
  induction len generalizing src dst s with
  | zero => rfl
  | succ len ih => rw [rangeLoop, rangeByte_answered, ih, rangeLoop]

/-! ### Addresses of the remaining bytes -/

/-- The loop over the remaining bytes runs on the exact addresses: an address wraps around only at the top
of BUF, where no byte remains. -/
theorem rangeLoop_toNat_add (op : Slot → Byte → Nat × Byte) (n : SlotField) {src dst k : Field16}
    {len : Nat} (s : State) (hsrc : src.toNat + k.toNat + len ≤ 2 ^ 16)
    (hdst : dst.toNat + k.toNat + len ≤ 2 ^ 16) :
    rangeLoop op n len (src + k).toNat (dst + k).toNat s =
      rangeLoop op n len (src.toNat + k.toNat) (dst.toNat + k.toNat) s := by
  cases len with
  | zero => rfl
  | succ len => rw [BitVec.toNat_add_of_lt (by omega), BitVec.toNat_add_of_lt (by omega)]

/-! ### The first byte as three commands -/

/-- R212: BUFRD, the byte command and BUFWR, each on the state the one before it leaves, do what one byte of
the range does. -/
theorem exec_read_byte_write {s : State} {n : SlotField} {src dst : Field16} (h : s.Configured n)
    (dir : Direction) (hsrc : src.toNat < s.bufSize) (hdst : dst.toNat < s.bufSize) :
    ∃ (v y : Byte) (t u : State),
      exec (.bufrd src) s = .next t ∧ t.response = some ⟨.ok, v.toNat⟩ ∧
      exec ((StreamOp.byte v).command dir n) t = .next u ∧ u.response = some ⟨.ok, y.toNat⟩ ∧
      exec (.bufwr dst y) u =
        .next ((rangeByte (Slot.byteOp · dir) n src.toNat dst.toNat s).answered 0) := by
  have hread : ((s.memRead src.toNat).2.answered (s.memRead src.toNat).1.toNat).Configured n :=
    h.of_slots (s.memRead_slots src.toNat)
  refine ⟨_, _, _, _, exec_bufrd_ok hsrc, rfl, exec_command hread dir _, rfl, ?_⟩
  rw [exec_bufwr_ok]
  · rfl
  · simpa [State.memRead_bufSize] using hdst

/-! ### The obligations -/

/-- Settles O48: the loop of `rangeLoop` takes the first byte apart, `exec_read_byte_write` gives the
commands that do the same, and the response BUFWR leaves is overwritten at the end. -/
theorem rangeGoesByteByByte : Obligations.RangeGoesByteByByte := by
  intro s dir n src dst len hsize hc hlen hsrc hdst
  have hpos : len.toNat ≠ 0 := fun h => hlen (BitVec.eq_of_toNat_eq h)
  have hrest : (len - 1).toNat = len.toNat - 1 := by bv_omega
  have hone : (1 : Field16).toNat = 1 := rfl
  obtain ⟨v, y, t, u, hrd, hv, hop, hy, hwr⟩ :=
    exec_read_byte_write (src := src) (dst := dst) hc dir (by omega) (by omega)
  refine ⟨v, y, t, u, _, hrd, hv, hop, hy, hwr, ?_⟩
  have heffect := rangeByte_effect (Slot.byteOp · dir) n src.toNat dst.toNat s
  have hcw : ((rangeByte (Slot.byteOp · dir) n src.toNat dst.toNat s).answered 0).Configured n :=
    heffect.configured hc
  rw [exec_rangeInstr_ok hc dir hsrc hdst, exec_rangeInstr_ok hcw dir, rangeLoop_answered,
    rangeLoop_toNat_add _ _ _ (by omega) (by omega), hone, hrest]
  · obtain ⟨k, hk⟩ := Nat.exists_eq_succ_of_ne_zero hpos
    rw [hk]
    rfl
  · rw [State.answered_bufSize, heffect.bufSize]
    bv_omega
  · rw [State.answered_bufSize, heffect.bufSize]
    bv_omega

/-- Settles O47: the bounds check of `rangeCommand` fails before any access, and the loop over no bytes is
the identity. -/
theorem rangeBoundsAndEmptyRange : Obligations.RangeBoundsAndEmptyRange := by
  intro s dir n src dst len hc
  constructor
  · intro hout
    rw [exec_rangeInstr, rangeCommand_bounds hc hout]
  · intro hsrc hdst
    rw [exec_rangeInstr_ok (len := 0) hc dir hsrc hdst]
    rfl

end Sys2Proof.Machine
end

section
/-! The laws of fresh slots: a fresh FIB or BULK register stands for d stream bits that are all 1, so the
two kinds give the same outputs; a stream moves the register as its bits alone would (R244), which places
BULK.state eight bits behind the FIB register (48_laws.md R241, R243, R246, R247). -/

namespace Sys2Proof.Machine

/-! ### The engine of a configured slot -/

theorem State.Holds.kind_eq {s : State} {n : SlotField} {k : Kind} (h : s.Holds n k) :
    (s.slot n).kind = k := h.2.2

theorem State.Inv.slot_engine {s : State} {n : SlotField} (hinv : s.Inv) (h : s.Configured n) :
    (s.slot n).Engine s.dmax :=
  hinv.engine _ (State.slot_mem h.1) h.2

/-- The taps fix the degree: it is the highest of them. -/
theorem Slot.Engine.deg_eq_of_taps {dmax : Nat} {a b : Slot} (ha : a.Engine dmax) (hb : b.Engine dmax)
    (htaps : a.taps = b.taps) : a.deg = b.deg := by
  have hlist : a.tapList = b.tapList := congrArg tapSet htaps
  obtain ⟨hrangeA, htopA⟩ := ha.taps_range
  obtain ⟨hrangeB, htopB⟩ := hb.taps_range
  exact Nat.le_antisymm (hrangeB _ (hlist ▸ htopA)).2 (hrangeA _ (hlist ▸ htopB)).2

/-- A stream of commands on a configured slot gives the outputs of the slot's engine and leaves its
register. -/
theorem exists_runStream {s : State} {n : SlotField} (h : s.Configured n)
    (ops : List (Direction × StreamOp)) :
    ∃ t, runStream n ops s = some (((s.slot n).stream ops).1, t) ∧
      t.slot n = { s.slot n with reg := ((s.slot n).stream ops).2 } := by
  obtain ⟨r, hrun⟩ := runStream_ok h ops
  exact ⟨_, hrun, State.setReg_slot_same _ h.1⟩

/-! ### Fresh registers -/

/-- A fresh FIB or BULK register stands for d stream bits that are all 1. -/
theorem Slot.Fresh.remembers {sl : Slot} (h : sl.Fresh) (hk : sl.kind ≠ .gal) :
    sl.Remembers (mask sl.deg) := by
  unfold Slot.Fresh Slot.width at h
  unfold Slot.Remembers
  cases hkind : sl.kind with
  | fib => simpa [hkind] using h
  | gal => exact absurd hkind hk
  | bulk =>
    simp only [hkind] at h ⊢
    intro i hi
    rw [h, testBit_mask, testBit_mask, decide_eq_true hi]
    exact decide_eq_true (by omega)

/-- Shifting a 1 into a fresh FIB or BULK register does not change it. -/
theorem Slot.Fresh.shift_true {sl : Slot} (h : sl.Fresh) (hk : sl.kind ≠ .gal) :
    sl.shift true = sl.reg := by
  unfold Slot.Fresh Slot.width at h
  unfold Slot.shift
  refine Nat.eq_of_testBit_eq fun i => ?_
  cases hkind : sl.kind with
  | fib =>
    simp only [hkind] at h ⊢
    rw [h, Fib.testBit_shiftIn, testBit_mask, testBit_mask]
    by_cases h0 : i = 0
    · simp [h0]
    · rw [if_neg h0, ← Bool.decide_and]
      exact decide_eq_decide.2 (by omega)
  | gal => exact absurd hkind hk
  | bulk =>
    simp only [hkind] at h ⊢
    rw [h, Bulk.testBit_shiftIn, testBit_mask, testBit_mask, Bool.and_true, ← Bool.decide_or]
    exact decide_eq_decide.2 (by omega)

/-- Where every tap reads a 1, the feedback is the parity of the number of taps. -/
theorem Fib.feedback_of_ones {T : List Nat} {F : Nat} (h : ∀ t ∈ T, F.testBit (t - 1) = true) :
    Fib.feedback T F = (T.length % 2 == 1) := by
  rw [Fib.feedback, xorOver_eq_odd, List.filter_eq_self.2 h]

/-- The first output bit of a fresh FIB or BULK scrambler. -/
theorem Slot.Engine.sbit_fresh {dmax : Nat} {sl : Slot} (h : sl.Engine dmax) (hfresh : sl.Fresh)
    (hk : sl.kind ≠ .gal) (x : Bool) : (sl.sbit x).2 = (x ^^ (sl.tapList.length % 2 == 1)) := by
  rw [h.sbit_output (hfresh.remembers hk), Fib.feedback_of_ones]
  intro t ht
  obtain ⟨hpos, hle⟩ := h.taps_range.1 t ht
  exact (testBit_mask ..).trans (decide_eq_true (by omega))

/-! ### Operations that leave the register as it is -/

/-- An operation that leaves the register as it is changes nothing but the response. -/
theorem exec_command_of_streamOp {s : State} {n : SlotField} (h : s.Configured n) {dir : Direction}
    {op out : StreamOp} (hop : (s.slot n).streamOp dir op = ((s.slot n).reg, out)) :
    exec (op.command dir n) s = .next (s.answered out.value) := by
  rw [exec_command h, hop, State.setReg_self]

/-- A bit operation that leaves the register as it is does so however often it is repeated. -/
theorem serialBits_of_fixed {op : Nat → Bool → Nat × Bool} {v : Nat → Bool} {reg : Nat} {y : Bool}
    (h : ∀ k, op reg (v k) = (reg, y)) (k : Nat) : (serialBits op v reg k).1 = reg ∧
      ∀ b < k, (serialBits op v reg k).2 b = y := by
  have hreg : ∀ k, (serialBits op v reg k).1 = reg := by
    intro k
    induction k with
    | zero => rfl
    | succ k ih => rw [serialBits, ih, h]
  refine ⟨hreg k, fun b hb => ?_⟩
  rw [serialBits_output op v reg hb, hreg, h]

/-- A FIB scrambler whose register is 0 gives 0 for 0 and keeps its register. -/
theorem Fib.sbit_zero (T : List Nat) (d : Nat) : Fib.sbit T d 0 false = (0, false) := by
  have hfeedback : Fib.feedback T 0 = false := xorOver_eq_false fun t _ => Nat.zero_testBit _
  rw [Fib.sbit, hfeedback]
  exact Prod.ext (by simp [Fib.shiftIn]) rfl

/-- A fresh FIB or BULK scrambler with an odd number of taps gives 1 for 0 and keeps its register. -/
theorem Slot.Engine.sbit_fresh_odd {dmax : Nat} {sl : Slot} (h : sl.Engine dmax) (hfresh : sl.Fresh)
    (hk : sl.kind ≠ .gal) (hodd : sl.tapList.length % 2 = 1) : sl.sbit false = (sl.reg, true) := by
  have hout : (sl.sbit false).2 = true := by rw [h.sbit_fresh hfresh hk, hodd]; rfl
  exact Prod.ext (by rw [Slot.sbit_reg, hout, hfresh.shift_true hk]) hout

/-- It gives the byte of all ones for the byte 0. -/
theorem Slot.Engine.sbyte_fresh_odd {dmax : Nat} {sl : Slot} (h : sl.Engine dmax) (hfresh : sl.Fresh)
    (hk : sl.kind ≠ .gal) (hodd : sl.tapList.length % 2 = 1) :
    sl.byteOp .scramble 0#8 = (sl.reg, 255#8) := by
  obtain ⟨hreg, hbits⟩ := h.byteOp_eq .scramble 0#8
  have hbit : ∀ k, sl.bitOp .scramble sl.reg ((0#8).getLsbD k) = (sl.reg, true) := fun k => by
    rw [BitVec.getLsbD_zero]
    exact h.sbit_fresh_odd hfresh hk hodd
  obtain ⟨hfixed, hones⟩ := serialBits_of_fixed hbit 8
  refine Prod.ext (hreg.trans hfixed) (BitVec.eq_of_getLsbD_eq fun b hb => ?_)
  have h255 : ∀ b < 8, (255#8).getLsbD b = true := by decide
  rw [hbits b hb, hones b hb, h255 b hb]

/-! ### The first outputs of a scrambler -/

/-- While every tap still reads one of the stream bits `m` to d-1, all of which are 1, each output is its
input XOR the parity of the number of taps. -/
theorem Fib.stream_of_ones {T : List Nat} {d : Nat} (xs : List Bool) {F m : Nat}
    (hF : ∀ i, m ≤ i → i < d → F.testBit i = true) (hT : ∀ t ∈ T, m + xs.length ≤ t ∧ t ≤ d) :
    (Fib.stream T d F (oneWay .scramble (xs.map StreamOp.bit))).1 =
      xs.map fun x => StreamOp.bit (x ^^ (T.length % 2 == 1)) := by
  induction xs generalizing F m with
  | nil => rfl
  | cons x xs ih =>
    simp only [List.length_cons] at hT
    have hfeedback : Fib.feedback T F = (T.length % 2 == 1) := Fib.feedback_of_ones fun t ht => by
      obtain ⟨hlow, hle⟩ := hT t ht
      exact hF _ (by omega) (by omega)
    have htail := ih (F := Fib.shiftIn d F (x ^^ Fib.feedback T F)) (m := m + 1)
      (fun i hi hd => by
        rw [Fib.testBit_shiftIn, if_neg (by omega), hF _ (by omega) (by omega), decide_eq_true hd]
        rfl)
      (fun t ht => by
        obtain ⟨hlow, hle⟩ := hT t ht
        omega)
    rw [List.map_cons, ← hfeedback]
    rw [← hfeedback] at htail
    exact congrArg (StreamOp.bit (x ^^ Fib.feedback T F) :: ·) htail

/-- The first output bit of a fresh GAL scrambler. -/
theorem Slot.Engine.sbit_fresh_gal {dmax : Nat} {sl : Slot} (h : sl.Engine dmax) (hfresh : sl.Fresh)
    (hk : sl.kind = .gal) (x : Bool) : (sl.sbit x).2 = !x := by
  unfold Slot.Fresh Slot.width at hfresh
  simp only [hk] at hfresh
  have hbit : sl.reg.testBit 0 = true := by
    rw [hfresh, testBit_mask]
    exact decide_eq_true h.deg_pos
  simp [Slot.sbit, hk, Gal.sbit, hbit]

/-! ### The register a stream leaves depends on its bits alone -/

theorem oneWay_append (dir : Direction) (ops ops' : List StreamOp) :
    oneWay dir (ops ++ ops') = oneWay dir ops ++ oneWay dir ops' := List.map_append

theorem Slot.stream_append_reg (sl : Slot) (ops ops' : List (Direction × StreamOp)) :
    (sl.stream (ops ++ ops')).2 = (({ sl with reg := (sl.stream ops).2 } : Slot).stream ops').2 := by
  induction ops generalizing sl with
  | nil => rfl
  | cons op ops ih => exact ih { sl with reg := (sl.streamOp op.1 op.2).1 }

/-- The register after `k` bits as bit operations. -/
theorem Slot.stream_bits_reg (sl : Slot) (dir : Direction) (v : Nat → Bool) (k : Nat) :
    (sl.stream (oneWay dir (((List.range k).map v).map StreamOp.bit))).2 =
      (serialBits (sl.bitOp dir) v sl.reg k).1 := by
  induction k with
  | zero => rfl
  | succ k ih =>
    rw [List.range_succ, List.map_append, List.map_append, oneWay_append, Slot.stream_append_reg, ih]
    rfl

/-- The register after one operation is the one its bits leave (R244). -/
theorem Slot.Engine.streamOp_reg_bits {dmax : Nat} {sl : Slot} (h : sl.Engine dmax) (dir : Direction)
    (op : StreamOp) :
    (sl.streamOp dir op).1 = (sl.stream (oneWay dir (op.bits.map StreamOp.bit))).2 := by
  cases op with
  | bit x => rfl
  | byte v => exact (h.byteOp_eq dir v).1.trans (sl.stream_bits_reg dir v.getLsbD 8).symm

/-- The register after a stream is the one its bits leave. -/
theorem Slot.Engine.stream_reg_bits {dmax F : Nat} {sl : Slot} (h : sl.Engine dmax) (hF : sl.Remembers F)
    (dir : Direction) (ops : List StreamOp) :
    (sl.stream (oneWay dir ops)).2 =
      (sl.stream (oneWay dir ((streamBits ops).map StreamOp.bit))).2 := by
  induction ops generalizing sl F with
  | nil => rfl
  | cons op ops ih =>
    obtain ⟨-, hrem, hlt⟩ := h.streamOp_remembers hF dir op
    rw [streamBits, List.flatMap_cons, List.map_append, oneWay_append, Slot.stream_append_reg,
      ← h.streamOp_reg_bits]
    exact ih (h.withReg hlt) hrem

/-! ### The Bulk buffer moves down one position for each bit -/

/-- A bit operation shifts in its output or its input. -/
theorem Slot.exists_shiftIn_bulk {sl : Slot} (hk : sl.kind = .bulk) (dir : Direction) (reg : Nat)
    (x : Bool) : ∃ f, (sl.bitOp dir reg x).1 = Bulk.shiftIn sl.deg reg f := by
  cases dir with
  | scramble => exact ⟨(Bulk.sbit sl.tapList sl.deg reg x).2, by simp only [Slot.bitOp, Slot.sbit, hk]; rfl⟩
  | descramble => exact ⟨x, by simp only [Slot.bitOp, Slot.dbit, hk]; rfl⟩

/-- A buffer bit that the stream bits have not reached was their number of positions higher before. -/
theorem Slot.testBit_stream_bulk {sl : Slot} (hk : sl.kind = .bulk) (reg : Nat) (dir : Direction)
    (xs : List Bool) {p : Nat} (hp : p + xs.length < sl.deg + 8) :
    (({ sl with reg := reg } : Slot).stream (oneWay dir (xs.map StreamOp.bit))).2.testBit p =
      reg.testBit (p + xs.length) := by
  induction xs generalizing reg with
  | nil => rfl
  | cons x xs ih =>
    rw [List.length_cons] at hp ⊢
    obtain ⟨f, hshift⟩ := Slot.exists_shiftIn_bulk hk dir reg x
    refine (ih (sl.bitOp dir reg x).1 (by omega)).trans ?_
    rw [hshift, Bulk.testBit_shiftIn]
    simp [show ¬p + xs.length = sl.deg + 7 by omega, Nat.add_assoc]

theorem Slot.stateValue_bulk {sl : Slot} (hk : sl.kind = .bulk) (reg : Nat) :
    ({ sl with reg := reg } : Slot).stateValue = reg &&& mask sl.deg := by
  simp [Slot.stateValue, hk, Bulk.state]

/-- BULK.state lags the stream bits by eight: after `late`, which is eight bits or a stream of fewer, it
holds in reverse order those remembered before `late`. -/
theorem Slot.Engine.stateValue_stream_append {dmax : Nat} {sl : Slot} (h : sl.Engine dmax)
    (hfresh : sl.Fresh) (hk : sl.kind = .bulk) (dir : Direction) {early late : List Bool}
    (hle : late.length ≤ 8) (hlate : late.length = 8 ∨ early = []) :
    ({ sl with reg := (sl.stream (oneWay dir ((early ++ late).map StreamOp.bit))).2 } : Slot).stateValue =
      rev sl.deg (Fib.stream sl.tapList sl.deg (mask sl.deg)
        (oneWay dir (early.map StreamOp.bit))).2 := by
  obtain ⟨-, hrem, -⟩ := h.stream_remembers (hfresh.remembers (by simp [hk]))
    (oneWay dir (early.map StreamOp.bit))
  simp only [Slot.Remembers, hk] at hrem
  refine Nat.eq_of_testBit_eq fun p => ?_
  rw [Slot.stateValue_bulk hk, List.map_append, oneWay_append, Slot.stream_append_reg, Nat.testBit_and,
    testBit_mask, rev, testBit_ofBits, Bool.and_comm]
  by_cases hp : p < sl.deg
  · rw [Slot.testBit_stream_bulk hk _ dir late (by omega)]
    congr 1
    rcases hlate with h8 | rfl
    · rw [← hrem _ (by omega), h8, show sl.deg + 7 - (sl.deg - 1 - p) = p + 8 by omega]
    · have hreg : sl.reg = mask (sl.deg + 8) := by simpa [Slot.Fresh, Slot.width, hk] using hfresh
      show sl.reg.testBit (p + late.length) = (mask sl.deg).testBit (sl.deg - 1 - p)
      rw [hreg, testBit_mask, testBit_mask]
      exact decide_eq_decide.2 (by omega)
  · simp [hp]

/-- R243 on a slot: BULK.state after a stream holds, in reverse order, the stream bits that a FIB register
holds after all but the last eight of them. -/
theorem Slot.Engine.stateValue_stream_fresh {dmax : Nat} {sl : Slot} (h : sl.Engine dmax)
    (hfresh : sl.Fresh) (hk : sl.kind = .bulk) (dir : Direction) (ops : List StreamOp) :
    ({ sl with reg := (sl.stream (oneWay dir ops)).2 } : Slot).stateValue =
      rev sl.deg (Fib.stream sl.tapList sl.deg (mask sl.deg) (oneWay dir
        (((streamBits ops).take ((streamBits ops).length - 8)).map StreamOp.bit))).2 := by
  rw [h.stream_reg_bits (hfresh.remembers (by simp [hk]))]
  have hlast := h.stateValue_stream_append hfresh hk dir
    (early := (streamBits ops).take ((streamBits ops).length - 8))
    (late := (streamBits ops).drop ((streamBits ops).length - 8))
    (by rw [List.length_drop]; omega)
    (by rw [List.length_drop, List.take_eq_nil_iff]; omega)
  rwa [List.take_append_drop] at hlast

/-! ### The obligations -/

/-- Settles O37: both registers stand for d stream bits that are all 1, and the outputs are those of the
Fibonacci engine on these. -/
theorem bulkEqualsFibonacci : Obligations.BulkEqualsFibonacci := by
  intro s a b ops hinv ha hb htaps hfreshA hfreshB
  have hengA := hinv.slot_engine ha.configured
  have hengB := hinv.slot_engine hb.configured
  have hkindA := ha.kind_eq
  have hkindB := hb.kind_eq
  obtain ⟨t, hrunA, -⟩ := exists_runStream ha.configured ops
  obtain ⟨u, hrunB, -⟩ := exists_runStream hb.configured ops
  obtain ⟨houtA, -, -⟩ := hengA.stream_remembers (hfreshA.remembers (by simp [hkindA])) ops
  obtain ⟨houtB, -, -⟩ := hengB.stream_remembers (hfreshB.remembers (by simp [hkindB])) ops
  have hlist : (s.slot a).tapList = (s.slot b).tapList := congrArg tapSet htaps
  refine ⟨_, t, u, hrunA, ?_⟩
  rw [hrunB, houtA, houtB, hlist, hengA.deg_eq_of_taps hengB htaps]

/-- Settles O43: the FIB slot holds the stream bits of `Slot.Engine.stateValue_stream_fresh` itself. -/
theorem bulkStateLagsFibonacciByEightBits : Obligations.BulkStateLagsFibonacciByEightBits := by
  intro s a b dir ops hinv ha hb htaps hfreshA hfreshB early
  have hengA := hinv.slot_engine ha.configured
  have hengB := hinv.slot_engine hb.configured
  have hkindA := ha.kind_eq
  have hkindB := hb.kind_eq
  obtain ⟨t, hrunA, hslotA⟩ := exists_runStream ha.configured (oneWay dir (early.map StreamOp.bit))
  obtain ⟨u, hrunB, hslotB⟩ := exists_runStream hb.configured (oneWay dir ops)
  obtain ⟨-, hrem, -⟩ := hengA.stream_remembers (hfreshA.remembers (by simp [hkindA]))
    (oneWay dir (early.map StreamOp.bit))
  simp only [Slot.Remembers, hkindA] at hrem
  have hlist : (s.slot a).tapList = (s.slot b).tapList := congrArg tapSet htaps
  refine ⟨_, t, _, u, hrunA, hrunB, ?_⟩
  rw [hslotA, hslotB, hengB.stateValue_stream_fresh hfreshB hkindB, hrem, hlist,
    hengA.deg_eq_of_taps hengB htaps]

/-- Settles O44: in each case the engine operation gives back the register it started from. -/
theorem zeroInputFixedPoints : Obligations.ZeroInputFixedPoints := by
  intro s n hinv hc
  have heng := hinv.slot_engine hc
  refine ⟨fun hk hreg => ?_, fun hk hfresh hodd => ⟨?_, ?_⟩⟩
  · have hbit : (s.slot n).sbit false = ((s.slot n).reg, false) := by
      rw [Slot.sbit, hk, hreg]
      exact Fib.sbit_zero ..
    exact exec_command_of_streamOp hc (dir := .scramble) (op := .bit false)
      (congrArg (fun o => (o.1, StreamOp.bit o.2)) hbit)
  · exact exec_command_of_streamOp hc (dir := .scramble) (op := .bit false)
      (congrArg (fun o => (o.1, StreamOp.bit o.2)) (heng.sbit_fresh_odd hfresh hk hodd))
  · exact exec_command_of_streamOp hc (dir := .scramble) (op := .byte 0)
      (congrArg (fun o => (o.1, StreamOp.byte o.2)) (heng.sbyte_fresh_odd hfresh hk hodd))

/-- Settles O45: until the lowest tap is reached every tap reads a 1 of the fresh register; GAL reads
bit 0 of it. -/
theorem firstBitsOfAFreshScrambler : Obligations.FirstBitsOfAFreshScrambler := by
  intro s n hinv hc hfresh
  have heng := hinv.slot_engine hc
  constructor
  · intro hk xs hxs
    obtain ⟨t, hrun, -⟩ := exists_runStream hc (oneWay .scramble (xs.map StreamOp.bit))
    obtain ⟨hout, -, -⟩ := heng.stream_remembers (hfresh.remembers hk)
      (oneWay .scramble (xs.map StreamOp.bit))
    refine ⟨t, ?_⟩
    rw [hrun, hout, Fib.stream_of_ones xs (m := 0)]
    · exact fun i _ hi => (testBit_mask ..).trans (decide_eq_true hi)
    · exact fun t ht => ⟨by simpa using hxs t ht, (heng.taps_range.1 t ht).2⟩
  · intro hk x
    have hexec := exec_command hc .scramble (.bit x)
    refine ⟨_, hexec, ?_⟩
    rw [State.answered_response]
    exact congrArg (fun y : Bool => some (Response.mk .ok y.toNat)) (heng.sbit_fresh_gal hfresh hk x)

end Sys2Proof.Machine
end

section
/-! Errors: a command that raises one changes nothing but the response, and the slot check of a command
is reported before any other of its checks (60_exceptions.md R262, R263, R265, R266). -/

namespace Sys2Proof.Machine

/-! ### Commands whose slot check fails -/

section SlotCheckFails

variable {n : SlotField} {s : State} {code : Status} (h : slotCheck n s = .error code)
include h

theorem bitCommand_slotCheck_error (op : Slot → Bool → Nat × Bool) (x : Bool) :
    bitCommand op n x s = .next (s.failed code) := by
  simp [bitCommand, h, raiseError_eq]

theorem byteCommand_slotCheck_error (op : Slot → Byte → Nat × Byte) (v : Byte) :
    byteCommand op n v s = .next (s.failed code) := by
  simp [byteCommand, h, raiseError_eq]

theorem rangeCommand_slotCheck_error (op : Slot → Byte → Nat × Byte) (src dst len : Field16) :
    rangeCommand op n src dst len s = .next (s.failed code) := by
  simp [rangeCommand, h, raiseError_eq]

theorem execState_slotCheck_error : execState n s = .next (s.failed code) := by
  simp [execState, h, raiseError_eq]

/-- Every command with a SLOT field but CONFIG starts with the slot check and answers its error. -/
theorem exec_slotCheck_error {i : Instr} (hslot : namedSlot i = some n) (hconfig : isConfig i = false) :
    exec i s = .next (s.failed code) := by
  cases i with
  | nop | tapclr | tapadd _ | bufwr _ _ | bufrd _ => cases hslot
  | config _ _ => cases hconfig
  | scrb _ x => cases hslot; exact bitCommand_slotCheck_error h Slot.sbit x
  | dscb _ x => cases hslot; exact bitCommand_slotCheck_error h Slot.dbit x
  | scry _ v => cases hslot; exact byteCommand_slotCheck_error h Slot.sbyte v
  | dscy _ v => cases hslot; exact byteCommand_slotCheck_error h Slot.dbyte v
  | state _ => cases hslot; exact execState_slotCheck_error h
  | scrr _ src dst len => cases hslot; exact rangeCommand_slotCheck_error h Slot.sbyte src dst len
  | dscr _ src dst len => cases hslot; exact rangeCommand_slotCheck_error h Slot.dbyte src dst len

end SlotCheckFails

theorem eq_config_of_isConfig {i : Instr} {n : SlotField} (hconfig : isConfig i = true)
    (hslot : namedSlot i = some n) : ∃ field, i = .config n field := by
  cases i with
  | config _ field => cases hslot; exact ⟨field, rfl⟩
  | _ => cases hconfig

theorem wellFormed_config_iff {n : SlotField} {field : KindField} :
    (Instr.config n field).wellFormed = true ↔ field ≠ 3#2 := by
  simp [Instr.wellFormed]

/-! ### The obligations -/

/-- Settles O19: `exec_cases` leaves an error only the state with its response replaced. -/
theorem errorsChangeNothing : Obligations.ErrorsChangeNothing := by
  intro i s t r hexec hr herr
  rcases exec_cases i s with ⟨code, -, -, -, hfail⟩ | ⟨u, v, -, hok⟩
  · obtain rfl : t = s.failed code := Host.Outcome.next.inj (hexec.symm.trans hfail)
    obtain rfl : r = ⟨code, 0⟩ := (Option.some.inj hr).symm
    rfl
  · obtain rfl : t = u.answered v := Host.Outcome.next.inj (hexec.symm.trans hok)
    obtain rfl : r = ⟨.ok, v⟩ := (Option.some.inj hr).symm
    exact absurd rfl herr

/-- Settles O21: both errors are those of the slot check, which only CONFIG does not start with; CONFIG
reports a missing slot itself, once its KIND is not the reserved one. -/
theorem slotErrorsComeFirst : Obligations.SlotErrorsComeFirst := by
  intro i n s hwf hslot
  refine ⟨fun hn => ?_, fun hn hv hconfig =>
    exec_slotCheck_error (slotCheck_unconfigured hn hv) hslot hconfig⟩
  cases hconfig : isConfig i with
  | false => exact exec_slotCheck_error (slotCheck_noSlot hn) hslot hconfig
  | true =>
    obtain ⟨field, rfl⟩ := eq_config_of_isConfig hconfig hslot
    exact execConfig_noSlot (wellFormed_config_iff.1 hwf) hn

end Sys2Proof.Machine
end

section
/-! Platform reset: a step that takes a reset from the port, between commands or during one
(70_reset_and_hazards.md R280 to R282). -/

namespace Sys2Proof.Machine

/-! ### The step -/

section Reset

variable {s : State} {rest : List HostEvent}

theorem step_reset (hp : s.pending = .reset :: rest) :
    step s = .next (platformReset (accept rest s)) := by
  simp [step, hp]

theorem step_resetDuring {w : CmdWord} (hp : s.pending = .resetDuring w :: rest) :
    step s = .next (platformReset (accept rest s)) := by
  simp [step, hp]

theorem accept_accept (s : State) (later rest : List HostEvent) :
    accept rest (accept later s) = accept rest s := rfl

end Reset

/-! ### The obligations -/

/-- Settles O12: with either event the step takes the event and resets; the abandoned word is not read. -/
theorem resetAbandonsTheCommand : Obligations.ResetAbandonsTheCommand := by
  intro s w rest hp
  have hduring : step s = .next (platformReset (accept rest s)) := step_resetDuring hp
  have halone : step (accept (.reset :: rest) s) = .next (platformReset (accept rest s)) := by
    rw [step_reset (s.accept_pending (.reset :: rest)), accept_accept]
  exact ⟨hduring.trans halone.symm, _, hduring, State.platformReset_response _⟩

end Sys2Proof.Machine
end

section
/-! The encoder and the decoder are inverse to each other, the byte order of a transport does not change
what a word decodes to, and the assembler emits legal words only (30_encoding.md R71, R80, R91 to R99,
20_memory.md R55). -/

namespace Sys2Proof.Machine

/-! ### Decoding an encoding -/

theorem encode_matchesRow {i : Instr} (hwf : i.wellFormed = true) :
    MatchesRow (encode i) (opcode i).toNat := by
  cases i with
  | nop => exact Laws.EncodeRow.nop hwf
  | tapclr => exact Laws.EncodeRow.tapclr hwf
  | tapadd tap => exact Laws.EncodeRow.tapadd tap hwf
  | config n kind => exact Laws.EncodeRow.config n kind hwf
  | scrb n x => exact Laws.EncodeRow.scrb n x hwf
  | dscb n x => exact Laws.EncodeRow.dscb n x hwf
  | scry n v => exact Laws.EncodeRow.scry n v hwf
  | dscy n v => exact Laws.EncodeRow.dscy n v hwf
  | state n => exact Laws.EncodeRow.state n hwf
  | scrr n src dst len => exact Laws.EncodeRow.scrr n src dst len hwf
  | dscr n src dst len => exact Laws.EncodeRow.dscr n src dst len hwf
  | bufwr a v => exact Laws.EncodeRow.bufwr a v hwf
  | bufrd a => exact Laws.EncodeRow.bufrd a hwf

theorem kind_setWidth (kind : KindField) : (kind.setWidth 8).setWidth 2 = kind := by
  rw [BitVec.setWidth_setWidth_of_le _ (by decide), BitVec.setWidth_eq]

theorem ofBool_setWidth_bit (x : Bool) : ((BitVec.ofBool x).setWidth 8).getLsbD 0 = x := by
  cases x <;> rfl

/-- The fields the format of an instruction reads from its word are its operands (R71). -/
theorem buildInstr_encode (i : Instr) : buildInstr (opcode i).toNat (encode i) = i := by
  cases i with
  | nop => rfl
  | tapclr => rfl
  | tapadd tap => exact congrArg Instr.tapadd (tapField_columns ..)
  | config n kind =>
    exact congrArg₂ Instr.config (slotField_columns ..) ((kindField_columns ..).trans (kind_setWidth kind))
  | scrb n x =>
    exact congrArg₂ Instr.scrb (slotField_columns ..) ((dbitField_columns ..).trans (ofBool_setWidth_bit x))
  | dscb n x =>
    exact congrArg₂ Instr.dscb (slotField_columns ..) ((dbitField_columns ..).trans (ofBool_setWidth_bit x))
  | scry n v => exact congrArg₂ Instr.scry (slotField_columns ..) (dataField_columns ..)
  | dscy n v => exact congrArg₂ Instr.dscy (slotField_columns ..) (dataField_columns ..)
  | state n => exact congrArg Instr.state (slotField_columns ..)
  | scrr n src dst len => simp [encode, opcode, buildInstr]
  | dscr n src dst len => simp [encode, opcode, buildInstr]
  | bufwr a v => exact congrArg₂ Instr.bufwr (addrField_columns ..) (dataField_columns ..)
  | bufrd a => exact congrArg Instr.bufrd (addrField_columns ..)

theorem encode_legal {i : Instr} (hwf : i.wellFormed = true) : ¬IllegalWord (encode i) :=
  (matchesRow_iff.1 (encode_matchesRow hwf)).2

theorem decodeWord_encode {i : Instr} (hwf : i.wellFormed = true) : decodeWord (encode i) = .ok i := by
  obtain ⟨hop, hlegal⟩ := matchesRow_iff.1 (encode_matchesRow hwf)
  rw [decodeWord_of_not_illegalWord hlegal, hop, buildInstr_encode]

/-- Settles O1: the encoding matches the row of its opcode, so it decodes, and the fields that are read
are the operands. -/
theorem decodeOfEncodeIsTheInstruction : Obligations.DecodeOfEncodeIsTheInstruction :=
  fun _ hwf => decodeWord_encode hwf

/-! ### Encoding what a word decodes to -/

/-- Bits that are all 0 read as the field 0. -/
theorem extractLsb'_eq_zero {w : CmdWord} {start len : Nat}
    (h : ∀ p < 64, start ≤ p → p < start + len → w.getLsbD p = false) :
    w.extractLsb' start len = 0#len := by
  refine BitVec.eq_of_getLsbD_eq fun i hi => ?_
  rw [BitVec.getLsbD_extractLsb', decide_eq_true hi, Bool.true_and, BitVec.getLsbD_zero]
  by_cases hp : start + i < 64
  · exact h _ hp (by omega) (by omega)
  · exact BitVec.getLsbD_of_ge _ _ (by omega)

theorem columns_eq_word {w : CmdWord} {hi mid lo : Field16} {data : Byte} {slot op : BitVec 4}
    (hdst : dstField w = hi) (hsrc : srcField w = mid) (hlen : lenField w = lo) (hdata : dataField w = data)
    (hslot : slotField w = slot) (hop : opField w = op) : columns hi mid lo data slot op = w := by
  subst hdst hsrc hlen hdata hslot hop
  exact columns_fields w

theorem getLsbD_dataField {w : CmdWord} {i : Nat} (hi : i < 8) :
    (dataField w).getLsbD i = w.getLsbD (8 + i) := by
  rw [dataField, BitVec.getLsbD_extractLsb', decide_eq_true hi, Bool.true_and]

/-- The DATA column of a CONFIG word is its KIND when the bits above KIND are 0. -/
theorem dataField_eq_kind {w : CmdWord} (h : ∀ p < 64, 10 ≤ p → w.getLsbD p = false) :
    dataField w = (kindField w).setWidth 8 := by
  refine BitVec.eq_of_getLsbD_eq fun i hi => ?_
  rw [getLsbD_dataField hi, BitVec.getLsbD_setWidth, kindField, BitVec.getLsbD_extractLsb',
    decide_eq_true hi, Bool.true_and]
  by_cases h2 : i < 2
  · rw [decide_eq_true h2, Bool.true_and]
  · rw [decide_eq_false h2, Bool.false_and]
    exact h _ (by omega) (by omega)

/-- The DATA column of a bit command is its DBIT when the bits above DBIT are 0. -/
theorem dataField_eq_dbit {w : CmdWord} (h : ∀ p < 64, 9 ≤ p → w.getLsbD p = false) :
    dataField w = (BitVec.ofBool (dbitField w)).setWidth 8 := by
  refine BitVec.eq_of_getLsbD_eq fun i hi => ?_
  rw [getLsbD_dataField hi, BitVec.getLsbD_setWidth, BitVec.getLsbD_ofBool, decide_eq_true hi,
    Bool.true_and]
  by_cases h0 : i = 0
  · subst h0
    rfl
  · rw [h _ (by omega) (by omega)]
    simp [h0]

/-- Encoding what the decoder reads from a legal word gives the word: in each format the columns that are
not operands are reserved-zero bits (R71). -/
theorem encode_buildInstr {w : CmdWord} (hw : ¬IllegalWord w) :
    encode (buildInstr (opField w).toNat w) = w := by
  obtain ⟨hlt, hzero, -⟩ := not_illegalWord_iff.1 hw
  have zero : ∀ {start len : Nat}, (∀ p < 64, start ≤ p → p < start + len →
      reservedZero (opField w).toNat p = true) → w.extractLsb' start len = 0#len :=
    fun h => extractLsb'_eq_zero fun p hp h1 h2 => hzero p hp (h p hp h1 h2)
  generalize hop : (opField w).toNat = op at *
  have hfield : opField w = BitVec.ofNat 4 op := BitVec.eq_of_toNat_eq (by
    rw [hop, BitVec.toNat_ofNat, Nat.mod_eq_of_lt (by omega)])
  interval_cases op
  · -- NOP
    exact columns_eq_word (zero (by decide)) (zero (by decide)) (zero (by decide)) (zero (by decide))
      (zero (by decide)) hfield
  · -- TAPCLR
    exact columns_eq_word (zero (by decide)) (zero (by decide)) (zero (by decide)) (zero (by decide))
      (zero (by decide)) hfield
  · -- TAPADD
    exact columns_eq_word (zero (by decide)) (zero (by decide)) rfl (zero (by decide))
      (zero (by decide)) hfield
  · -- CONFIG
    exact columns_eq_word (zero (by decide)) (zero (by decide)) (zero (by decide))
      (dataField_eq_kind fun p hp h => hzero p hp (by simpa [reservedZero] using h)) rfl hfield
  · -- SCRB
    exact columns_eq_word (zero (by decide)) (zero (by decide)) (zero (by decide))
      (dataField_eq_dbit fun p hp h => hzero p hp (by simpa [reservedZero] using h)) rfl hfield
  · -- DSCB
    exact columns_eq_word (zero (by decide)) (zero (by decide)) (zero (by decide))
      (dataField_eq_dbit fun p hp h => hzero p hp (by simpa [reservedZero] using h)) rfl hfield
  · -- SCRY
    exact columns_eq_word (zero (by decide)) (zero (by decide)) (zero (by decide)) rfl rfl hfield
  · -- DSCY
    exact columns_eq_word (zero (by decide)) (zero (by decide)) (zero (by decide)) rfl rfl hfield
  · -- STATE
    exact columns_eq_word (zero (by decide)) (zero (by decide)) (zero (by decide)) (zero (by decide))
      rfl hfield
  · -- SCRR
    exact columns_eq_word rfl rfl rfl (zero (by decide)) rfl hfield
  · -- DSCR
    exact columns_eq_word rfl rfl rfl (zero (by decide)) rfl hfield
  · -- BUFWR
    exact columns_eq_word (zero (by decide)) rfl (zero (by decide)) rfl (zero (by decide)) hfield
  · -- BUFRD
    exact columns_eq_word (zero (by decide)) rfl (zero (by decide)) (zero (by decide))
      (zero (by decide)) hfield

/-- Only CONFIG can be ill-formed, and the decoder refuses the reserved KIND (R92). -/
theorem buildInstr_wellFormed {w : CmdWord} (hw : ¬IllegalWord w) :
    (buildInstr (opField w).toNat w).wellFormed = true := by
  obtain ⟨-, -, hkind⟩ := not_illegalWord_iff.1 hw
  unfold buildInstr
  split
  case h_4 h => exact wellFormed_config_iff.2 (hkind h)
  all_goals rfl

/-- Settles O2: the decoder accepts legal words only, and these are encoded again as they were. -/
theorem decodedWordIsTheEncoding : Obligations.DecodedWordIsTheEncoding := by
  intro w i hdecode
  by_cases hw : IllegalWord w
  · obtain ⟨err, -, herr⟩ := decodeWord_of_illegalWord hw
    cases herr.symm.trans hdecode
  · obtain rfl : buildInstr (opField w).toNat w = i :=
      Except.ok.inj ((decodeWord_of_not_illegalWord hw).symm.trans hdecode)
    exact ⟨buildInstr_wellFormed hw, encode_buildInstr hw⟩

/-! ### Words as bytes -/

theorem length_wordBytes (w : CmdWord) : (wordBytes w).length = 8 := by
  rw [wordBytes, List.length_map, List.length_range]

theorem littleEndian_append_singleton (bs : List Byte) (b : Byte) :
    littleEndian (bs ++ [b]) = littleEndian bs + 256 ^ bs.length * b.toNat := by
  induction bs with
  | nil => simp [littleEndian]
  | cons c bs ih =>
    rw [List.cons_append, littleEndian, ih, littleEndian, List.length_cons, pow_succ]
    ring

/-- The first `n` bytes of a word are the number that its low 8n bits are. -/
theorem littleEndian_bytes (w : CmdWord) (n : Nat) :
    littleEndian ((List.range n).map fun k => w.extractLsb' (8 * k) 8) = w.toNat % 256 ^ n := by
  induction n with
  | zero => simp [littleEndian, Nat.mod_one]
  | succ n ih =>
    have hpow : 2 ^ (8 * n) = 256 ^ n := pow_mul 2 8 n
    rw [List.range_succ, List.map_append, List.map_singleton, littleEndian_append_singleton, ih,
      List.length_map, List.length_range, BitVec.extractLsb'_toNat, Nat.shiftRight_eq_div_pow, hpow,
      Nat.pow_succ]
    exact Nat.mod_mul.symm

theorem littleEndian_wordBytes (w : CmdWord) : littleEndian (wordBytes w) = w.toNat :=
  (littleEndian_bytes w 8).trans (Nat.mod_eq_of_lt w.isLt)

/-- Settles O5: the first eight bytes are those of the word, and their value is that of the word. -/
theorem littleEndianBytesDecodeAsTheWord : Obligations.LittleEndianBytesDecodeAsTheWord := by
  intro w rest
  constructor
  · intro k hk
    rw [wordBytes, List.getElem?_map, List.getElem?_range hk]
    rfl
  · have htake : (wordBytes w ++ rest).take 8 = wordBytes w := List.take_left' (length_wordBytes w)
    have hdrop : (wordBytes w ++ rest).drop 8 = rest := List.drop_left' (length_wordBytes w)
    have hlength : ¬(wordBytes w ++ rest).length < 8 := by
      rw [List.length_append, length_wordBytes]
      omega
    rw [decodeBytes, if_neg hlength, htake, hdrop, littleEndian_wordBytes, BitVec.ofNat_toNat,
      BitVec.setWidth_eq]
    cases decodeWord w <;> rfl

/-! ### What the assembler emits -/

/-- A text form of a command gives well-formed instructions only. -/
def EmitsWellFormed (form : List (List Char) → Option (List Instr)) : Prop :=
  ∀ (ops : List (List Char)) (is : List Instr), form ops = some is → ∀ i ∈ is, i.wellFormed = true

theorem kindOperand_ne_reserved {cs : List Char} {kind : KindField} (h : kindOperand cs = some kind) :
    kind ≠ 3#2 := by
  unfold kindOperand at h
  split_ifs at h <;> cases h <;> decide

/-- A form whose last operand `o` makes the one instruction `mk`. -/
theorem wellFormed_of_map {α : Type} {o : Option α} {mk : α → Instr} {is : List Instr}
    (hmk : ∀ a, o = some a → (mk a).wellFormed = true) (h : (o.map fun a => [mk a]) = some is) :
    ∀ i ∈ is, i.wellFormed = true := by
  obtain ⟨a, ha, rfl⟩ := Option.map_eq_some_iff.1 h
  exact List.forall_mem_singleton.2 (hmk a ha)

theorem asmN_emits {i : Instr} (hi : i.wellFormed = true) : EmitsWellFormed (asmN i) := by
  intro ops is h
  cases ops with
  | nil => cases h; exact List.forall_mem_singleton.2 hi
  | cons => cases h

theorem asmB_emits {mk : SlotField → Bool → Instr} (hmk : ∀ n x, (mk n x).wellFormed = true) :
    EmitsWellFormed (asmB mk) := by
  intro ops is h
  unfold asmB at h
  split at h
  · obtain ⟨n, -, h⟩ := Option.bind_eq_some_iff.1 h
    exact wellFormed_of_map (fun _ _ => hmk n _) h
  · cases h

theorem asmY_emits {mk : SlotField → Byte → Instr} (hmk : ∀ n v, (mk n v).wellFormed = true) :
    EmitsWellFormed (asmY mk) := by
  intro ops is h
  unfold asmY at h
  split at h
  · obtain ⟨n, -, h⟩ := Option.bind_eq_some_iff.1 h
    exact wellFormed_of_map (fun v _ => hmk n v) h
  · cases h

theorem asmR_emits {mk : SlotField → Field16 → Field16 → Field16 → Instr}
    (hmk : ∀ n src dst len, (mk n src dst len).wellFormed = true) : EmitsWellFormed (asmR mk) := by
  intro ops is h
  unfold asmR at h
  split at h
  · simp only [Option.bind_eq_some_iff] at h
    obtain ⟨n, -, src, -, dst, -, h⟩ := h
    exact wellFormed_of_map (fun len _ => hmk n src dst len) h
  · cases h

theorem asmTapadd_emits : EmitsWellFormed asmTapadd := by
  intro ops is h
  unfold asmTapadd at h
  split at h
  · exact wellFormed_of_map (fun _ _ => rfl) h
  · cases h

theorem asmConfig_emits : EmitsWellFormed asmConfig := by
  intro ops is h
  unfold asmConfig at h
  split at h
  · obtain ⟨n, -, h⟩ := Option.bind_eq_some_iff.1 h
    exact wellFormed_of_map (fun _ hkind => wellFormed_config_iff.2 (kindOperand_ne_reserved hkind)) h
  · cases h

theorem asmState_emits : EmitsWellFormed asmState := by
  intro ops is h
  unfold asmState at h
  split at h
  · exact wellFormed_of_map (fun _ _ => rfl) h
  · cases h

theorem asmBufwr_emits : EmitsWellFormed asmBufwr := by
  intro ops is h
  unfold asmBufwr at h
  split at h
  · obtain ⟨a, -, h⟩ := Option.bind_eq_some_iff.1 h
    exact wellFormed_of_map (fun _ _ => rfl) h
  · cases h

theorem asmBufrd_emits : EmitsWellFormed asmBufrd := by
  intro ops is h
  unfold asmBufrd at h
  split at h
  · exact wellFormed_of_map (fun _ _ => rfl) h
  · cases h

theorem asmTaps_emits : EmitsWellFormed asmTaps := by
  intro ops
  induction ops with
  | nil => intro is h; cases h; simp
  | cons tap taps ih =>
    intro is h
    simp only [asmTaps, Option.bind_eq_some_iff, Option.map_eq_some_iff] at h
    obtain ⟨t, -, is, his, rfl⟩ := h
    exact List.forall_mem_cons.2 ⟨rfl, ih is his⟩

theorem asmTapset_emits : EmitsWellFormed asmTapset := by
  intro ops is h
  cases ops with
  | nil => cases h
  | cons tap taps =>
    obtain ⟨is, his, rfl⟩ := Option.map_eq_some_iff.1 h
    exact List.forall_mem_cons.2 ⟨rfl, asmTaps_emits _ is his⟩

theorem asmBytes_emits (addr : Nat) : EmitsWellFormed (asmBytes addr) := by
  intro ops
  induction ops generalizing addr with
  | nil => intro is h; cases h; simp
  | cons byte bytes ih =>
    intro is h
    simp only [asmBytes, Option.bind_eq_some_iff, Option.map_eq_some_iff] at h
    obtain ⟨a, -, v, -, is, his, rfl⟩ := h
    exact List.forall_mem_cons.2 ⟨rfl, ih (addr + 1) is his⟩

theorem asmBufstr_emits : EmitsWellFormed asmBufstr := by
  intro ops is h
  unfold asmBufstr at h
  split at h
  · obtain ⟨a, -, his⟩ := Option.bind_eq_some_iff.1 h
    exact asmBytes_emits a _ is his
  · cases h

/-- Every form of the mnemonic table emits well-formed instructions. -/
theorem mnemonicForms_emit {mnemonic : List Char} {form : List (List Char) → Option (List Instr)}
    (h : (mnemonic, form) ∈ mnemonicForms) : EmitsWellFormed form := by
  have all : ∀ f ∈ mnemonicForms.map Prod.snd, EmitsWellFormed f := by
    simp only [mnemonicForms, List.map_cons, List.map_nil, List.forall_mem_cons]
    exact ⟨asmN_emits rfl, asmN_emits rfl, asmTapadd_emits, asmConfig_emits,
      asmB_emits fun _ _ => rfl, asmB_emits fun _ _ => rfl, asmY_emits fun _ _ => rfl,
      asmY_emits fun _ _ => rfl, asmState_emits, asmR_emits fun _ _ _ _ => rfl,
      asmR_emits fun _ _ _ _ => rfl, asmBufwr_emits, asmBufrd_emits, asmTapset_emits,
      asmBufstr_emits, fun _ h => absurd h List.not_mem_nil⟩
  exact all form (List.mem_map.2 ⟨_, h, rfl⟩)

theorem asmCommand_emits (mnemonic : List Char) : EmitsWellFormed (asmCommand mnemonic) := by
  intro ops is h
  obtain ⟨form, hform, his⟩ := Option.bind_eq_some_iff.1 h
  obtain ⟨before, later, htable, -⟩ := List.lookup_eq_some_iff.1 hform
  exact mnemonicForms_emit (mnemonic := mnemonic) (htable ▸ List.mem_append_cons_self) ops is his

theorem asmLine_wellFormed {line : List Char} {is : List Instr} (h : asmLine line = some is) :
    ∀ i ∈ is, i.wellFormed = true := by
  simp only [asmLine] at h
  split at h
  · cases h
    simp
  · exact asmCommand_emits _ _ is h

/-- Settles O7: the assembler emits encodings of well-formed instructions. -/
theorem assembledWordsAreLegal : Obligations.AssembledWordsAreLegal := by
  intro line ws h w hw
  obtain ⟨is, his, rfl⟩ := Option.map_eq_some_iff.1 h
  obtain ⟨i, hi, rfl⟩ := List.mem_map.1 hw
  have hwf := asmLine_wellFormed his i hi
  exact ⟨encode_legal hwf, i, decodeWord_encode hwf, rfl⟩

/-! ### The examples of the spec -/

/-- Settles O4: each example is one run of the decoder. -/
theorem specExampleWordsDecode : Obligations.SpecExampleWordsDecode :=
  ⟨rfl, rfl, rfl, rfl, rfl, rfl, rfl, rfl, rfl, rfl, rfl, rfl, rfl, rfl⟩

/-- Settles O8: each example is one run of the assembler. -/
theorem assemblyExamples : Obligations.AssemblyExamples := by
  unfold Obligations.AssemblyExamples
  decide

end Sys2Proof.Machine
end

section
/-! Φ as a map on stream bits, the stream bits that the register of any configured slot stands for, and
what follows for GAL and for byte commands (48_laws.md R242, R244). -/

namespace Sys2Proof.Machine

/-! ### Φ is a bijection -/

section TapSet

variable {T : List Nat} {d : Nat} (hn : T.Nodup) (hd : d ∈ T) (hr : ∀ t ∈ T, 1 ≤ t ∧ t ≤ d)
include hn hd hr

/-- Bit d-1-i of Φ(F) reads bit i of F through the highest tap and only lower bits through the others. -/
theorem phi_inj {F G : Nat} (hF : F < 2 ^ d) (hG : G < 2 ^ d) (h : phi T d F = phi T d G) : F = G := by
  refine eq_of_testBit_below hF hG fun i => ?_
  induction i using Nat.strong_induction_on with
  | _ i ih =>
    intro hi
    have hbits := congrArg (Nat.testBit · (d - 1 - i)) h
    simp only [testBit_phi, xorOver_filter] at hbits
    rw [decide_eq_true (show d - 1 - i < d by omega), Bool.true_and, Bool.true_and] at hbits
    have hdiff : xorOver T (fun t => (decide (d - 1 - i < t) && F.testBit (t - 1 - (d - 1 - i))) ^^
        (decide (d - 1 - i < t) && G.testBit (t - 1 - (d - 1 - i)))) =
          xorOver T fun t => decide (t = d) && (F.testBit i ^^ G.testBit i) := by
      refine xorOver_congr fun t ht => ?_
      obtain ⟨hpos, hle⟩ := hr t ht
      by_cases htop : t = d
      · subst htop
        simp [show t - 1 - (t - 1 - i) = i by omega, show t - 1 - i < t by omega]
      · by_cases hlow : d - 1 - i < t
        · rw [ih (t - 1 - (d - 1 - i)) (by omega) (by omega)]
          simp [htop]
        · simp [hlow, htop]
    rw [xorOver_xor, hbits, Bool.xor_self, xorOver_eq_mem hn, decide_eq_true hd, Bool.true_and] at hdiff
    simpa using hdiff.symm

theorem exists_phi_eq {G : Nat} (hG : G < 2 ^ d) : ∃ F < 2 ^ d, phi T d F = G := by
  have hmaps : Set.MapsTo (phi T d) (Finset.range (2 ^ d)) (Finset.range (2 ^ d)) :=
    fun F _ => Finset.mem_coe.2 (Finset.mem_range.2 (ofBits_lt ..))
  have hinj : Set.InjOn (phi T d) (Finset.range (2 ^ d)) := fun F hF G hG h =>
    phi_inj hn hd hr (Finset.mem_range.1 (Finset.mem_coe.1 hF)) (Finset.mem_range.1 (Finset.mem_coe.1 hG)) h
  obtain ⟨F, hF, hphi⟩ := Finset.surjOn_of_injOn_of_card_le _ hmaps hinj le_rfl
    (Finset.mem_coe.2 (Finset.mem_range.2 hG))
  exact ⟨F, Finset.mem_range.1 (Finset.mem_coe.1 hF), hphi⟩

end TapSet

theorem phi_lt (T : List Nat) (d F : Nat) : phi T d F < 2 ^ d := ofBits_lt ..

/-- Settles O39: Φ is one-to-one on the d-bit values, and these are finitely many. -/
theorem phiIsABijection : Obligations.PhiIsABijection := by
  intro T d hn hd hr
  refine ⟨phi_lt T d, fun G hG => ?_⟩
  obtain ⟨F, hF, hphi⟩ := exists_phi_eq hn hd hr hG
  exact ⟨F, ⟨hF, hphi⟩, fun F' ⟨hF', hphi'⟩ => phi_inj hn hd hr hF' hF (hphi'.trans hphi.symm)⟩

/-! ### The stream bits of a register -/

/-- The register of a configured slot stands for some d stream bits, whatever it holds. -/
theorem Slot.Engine.exists_remembers {dmax : Nat} {sl : Slot} (h : sl.Engine dmax) :
    ∃ F < 2 ^ sl.deg, sl.Remembers F := by
  have hw := h.reg_lt
  obtain ⟨hrange, htop⟩ := h.taps_range
  unfold Slot.width at hw
  unfold Slot.Remembers
  cases hk : sl.kind with
  | fib =>
    rw [hk] at hw
    exact ⟨sl.reg, hw, rfl⟩
  | gal =>
    rw [hk] at hw
    obtain ⟨F, hF, hphi⟩ := exists_phi_eq (tapSet_nodup sl.taps) htop hrange hw
    exact ⟨F, hF, hphi.symm⟩
  | bulk =>
    refine ⟨ofBits sl.deg fun i => sl.reg.testBit (sl.deg + 7 - i), ofBits_lt .., fun i hi => ?_⟩
    rw [testBit_ofBits, decide_eq_true hi, Bool.true_and]

/-- The d stream bits that a register stands for are determined by it. -/
theorem Slot.Engine.remembers_inj {dmax F G : Nat} {sl : Slot} (h : sl.Engine dmax) (hF : F < 2 ^ sl.deg)
    (hG : G < 2 ^ sl.deg) (hsF : sl.Remembers F) (hsG : sl.Remembers G) : F = G := by
  obtain ⟨hrange, htop⟩ := h.taps_range
  unfold Slot.Remembers at hsF hsG
  cases hk : sl.kind with
  | fib =>
    simp only [hk] at hsF hsG
    exact hsF.symm.trans hsG
  | gal =>
    simp only [hk] at hsF hsG
    exact phi_inj (tapSet_nodup sl.taps) htop hrange hF hG (hsF.symm.trans hsG)
  | bulk =>
    simp only [hk] at hsF hsG
    exact eq_of_testBit_below hF hG fun i hi => (hsF i hi).symm.trans (hsG i hi)

/-- A FIB or GAL register is determined by the stream bits it stands for. -/
theorem Slot.reg_eq_of_remembers {sl : Slot} (hk : sl.kind ≠ .bulk) {F r q : Nat}
    (hr : ({ sl with reg := r } : Slot).Remembers F) (hq : ({ sl with reg := q } : Slot).Remembers F) :
    r = q := by
  unfold Slot.Remembers at hr hq
  cases hkind : sl.kind with
  | fib | gal =>
    simp only [hkind] at hr hq
    exact hr.trans hq.symm
  | bulk => exact absurd hkind hk

/-- Every operation of a configured slot leaves a register within the used width. -/
theorem Slot.Engine.streamOp_lt {dmax : Nat} {sl : Slot} (h : sl.Engine dmax) (dir : Direction)
    (op : StreamOp) : (sl.streamOp dir op).1 < 2 ^ sl.width := by
  obtain ⟨F, -, hF⟩ := h.exists_remembers
  exact (h.streamOp_remembers hF dir op).2.2

/-! ### GAL under Φ -/

/-- Settles O38: both registers stand for the same stream bits before and after the stream. -/
theorem galoisFollowsFibonacciUnderPhi : Obligations.GaloisFollowsFibonacciUnderPhi := by
  intro s a b ops hinv ha hb htaps hphi
  have hengA := hinv.slot_engine ha.configured
  have hengB := hinv.slot_engine hb.configured
  have hlist : (s.slot a).tapList = (s.slot b).tapList := congrArg tapSet htaps
  have hdeg := hengA.deg_eq_of_taps hengB htaps
  obtain ⟨t, hrunA, hslotA⟩ := exists_runStream ha.configured ops
  obtain ⟨u, hrunB, hslotB⟩ := exists_runStream hb.configured ops
  have hA : (s.slot a).Remembers (s.slot a).reg := by simp only [Slot.Remembers, ha.kind_eq]
  have hB : (s.slot b).Remembers (s.slot a).reg := by
    simp only [Slot.Remembers, hb.kind_eq]
    rw [hphi, hlist, hdeg]
  obtain ⟨houtA, hremA, -⟩ := hengA.stream_remembers hA ops
  obtain ⟨houtB, hremB, -⟩ := hengB.stream_remembers hB ops
  simp only [Slot.Remembers, ha.kind_eq] at hremA
  simp only [Slot.Remembers, hb.kind_eq] at hremB
  refine ⟨_, t, u, hrunA, ?_, ?_⟩
  · rw [hrunB, houtA, houtB, hlist, hdeg]
  · rw [hslotA, hslotB]
    show ((s.slot b).stream ops).2 = phi _ _ ((s.slot a).stream ops).2
    rw [hremA, hremB, hlist, hdeg]
    rfl

/-! ### A byte command is eight bit commands -/

theorem Slot.stream_append_out (sl : Slot) (ops ops' : List (Direction × StreamOp)) :
    (sl.stream (ops ++ ops')).1 =
      (sl.stream ops).1 ++ (({ sl with reg := (sl.stream ops).2 } : Slot).stream ops').1 := by
  induction ops generalizing sl with
  | nil => rfl
  | cons op ops ih => exact congrArg (_ :: ·) (ih { sl with reg := (sl.streamOp op.1 op.2).1 })

theorem serialBits_map_succ (op : Nat → Bool → Nat × Bool) (v : Nat → Bool) (reg k : Nat) :
    (List.range (k + 1)).map (serialBits op v reg (k + 1)).2 =
      (List.range k).map (serialBits op v reg k).2 ++ [(op (serialBits op v reg k).1 (v k)).2] := by
  rw [List.range_succ, List.map_append, List.map_singleton, serialBits_output op v reg (Nat.lt_succ_self k)]
  refine congrArg (· ++ _) (List.map_congr_left fun b hb => ?_)
  have hbk := List.mem_range.1 hb
  rw [serialBits_output op v reg hbk, serialBits_output op v reg (by omega)]

/-- The outputs of `k` bits as bit operations. -/
theorem Slot.stream_bits_out (sl : Slot) (dir : Direction) (v : Nat → Bool) (k : Nat) :
    (sl.stream (oneWay dir (((List.range k).map v).map StreamOp.bit))).1 =
      ((List.range k).map (serialBits (sl.bitOp dir) v sl.reg k).2).map StreamOp.bit := by
  induction k with
  | zero => rfl
  | succ k ih =>
    rw [serialBits_map_succ, List.range_succ, List.map_append, List.map_append, oneWay_append,
      Slot.stream_append_out, ih, Slot.stream_bits_reg, List.map_append]
    rfl

/-- A byte operation of a configured slot gives the bits, and leaves the register, of a stream of its
bits (R244). -/
theorem Slot.Engine.stream_bitOps {dmax : Nat} {sl : Slot} (h : sl.Engine dmax) (dir : Direction)
    (v : Byte) : sl.stream (oneWay dir (bitOps v)) = (bitOps (sl.byteOp dir v).2, (sl.byteOp dir v).1) := by
  obtain ⟨hreg, hbits⟩ := h.byteOp_eq dir v
  refine Prod.ext ((sl.stream_bits_out dir v.getLsbD 8).trans (congrArg (List.map StreamOp.bit) ?_))
    ((sl.stream_bits_reg dir v.getLsbD 8).trans hreg.symm)
  exact List.map_congr_left fun b hb => (hbits b (List.mem_range.1 hb)).symm

/-- Settles O34: the run of the eight bit commands is the stream of `Slot.Engine.stream_bitOps`. -/
theorem byteCommandIsEightBitCommands : Obligations.ByteCommandIsEightBitCommands := by
  intro s n dir v hinv hc
  obtain ⟨r, hrun⟩ := runStream_ok hc (oneWay dir (bitOps v))
  rw [(hinv.slot_engine hc).stream_bitOps dir v] at hrun
  exact ⟨_, _, hrun, exec_command hc dir (.byte v)⟩

end Sys2Proof.Machine
end

section
/-! A scrambler and a descrambler in lock-step, in terms of the stream bits that their registers stand for:
from equal bits every input comes back, and any bits agree after d steps (48_laws.md R240, R245). -/

namespace Sys2Proof.Machine

/-! ### Lock-step on stream bits -/

/-- Lock-step of a scrambler that stands for the stream bits `F` and a descrambler that stands for `G`: the
outputs of the descrambler and the stream bits of both at the end. -/
def Fib.lockStep (T : List Nat) (d : Nat) : Nat → Nat → List StreamOp → List StreamOp × Nat × Nat
  | F, G, [] => ([], F, G)
  | F, G, op :: ops =>
    let y := Fib.streamOp T d .scramble F op
    let x := Fib.streamOp T d .descramble G y.2
    let rest := Fib.lockStep T d y.1 x.1 ops
    (x.2 :: rest.1, rest.2)

variable {T : List Nat} {d : Nat}

/-- The output bits that `k` scrambler bits give are descrambled to the input bits, on the same stream
bits. -/
theorem Fib.serial_descramble {v y : Nat → Bool} {F k : Nat}
    (hy : ∀ b < k, y b = (Fib.sbit T d (serialBits (Fib.sbit T d) v F b).1 (v b)).2) :
    (serialBits (Fib.dbit T d) y F k).1 = (serialBits (Fib.sbit T d) v F k).1 ∧
      ∀ b < k, (serialBits (Fib.dbit T d) y F k).2 b = v b := by
  have hreg : ∀ j ≤ k, (serialBits (Fib.dbit T d) y F j).1 = (serialBits (Fib.sbit T d) v F j).1 := by
    intro j
    induction j with
    | zero => exact fun _ => rfl
    | succ j ih =>
      intro hj
      rw [serialBits, serialBits, ih (by omega), hy j (by omega)]
      rfl
  refine ⟨hreg k le_rfl, fun b hb => ?_⟩
  rw [serialBits_output _ _ _ hb, hreg b (by omega), hy b hb]
  simp [Fib.sbit, Fib.dbit]

/-- Descrambling the output of a scrambler on the same stream bits gives the input back, and the stream bits
are the same again. -/
theorem Fib.descramble_scramble (F : Nat) (op : StreamOp) :
    Fib.streamOp T d .descramble F (Fib.streamOp T d .scramble F op).2 =
      ((Fib.streamOp T d .scramble F op).1, op) := by
  cases op with
  | bit x => simp [Fib.streamOp, Fib.bitOp, Fib.sbit, Fib.dbit]
  | byte v =>
    obtain ⟨hreg, hout⟩ := Fib.serial_descramble (T := T) (d := d) (v := v.getLsbD) (F := F) (k := 8)
      (y := (packByte (serialBits (Fib.sbit T d) v.getLsbD F 8).2).getLsbD) fun b hb => by
        rw [getLsbD_packByte _ hb, serialBits_output _ _ _ hb]
    refine Prod.ext hreg (congrArg StreamOp.byte (BitVec.eq_of_getLsbD_eq fun b hb => ?_))
    exact (getLsbD_packByte _ hb).trans (hout b hb)

/-- From equal stream bits lock-step gives every input back and ends with equal stream bits. -/
theorem Fib.lockStep_same (F : Nat) (ops : List StreamOp) :
    (Fib.lockStep T d F F ops).1 = ops ∧
      (Fib.lockStep T d F F ops).2.1 = (Fib.lockStep T d F F ops).2.2 := by
  induction ops generalizing F with
  | nil => exact ⟨rfl, rfl⟩
  | cons op ops ih =>
    simp only [Fib.lockStep, Fib.descramble_scramble]
    exact ⟨congrArg (op :: ·) (ih _).1, (ih _).2⟩

theorem Fib.lockStep_lt {F G : Nat} (hF : F < 2 ^ d) (ops : List StreamOp) :
    (Fib.lockStep T d F G ops).2.1 < 2 ^ d := by
  induction ops generalizing F G with
  | nil => exact hF
  | cons op ops ih => exact ih (Fib.streamOp_lt hF .scramble op)

/-! ### Lock-step on slots -/

/-- `SLOT[n]` is configured with the taps `taps`, of degree d, and its register stands for the stream bits
`F`. -/
structure State.Stands (s : State) (n : SlotField) (dmax taps d F : Nat) : Prop where
  configured : s.Configured n
  engine : (s.slot n).Engine dmax
  taps_eq : (s.slot n).taps = taps
  deg_eq : (s.slot n).deg = d
  remembers : (s.slot n).Remembers F

theorem State.Stands.of_slot {s t : State} {n : SlotField} {dmax taps F : Nat}
    (h : s.Stands n dmax taps d F) (hn : t.nslot = s.nslot) (hs : t.slot n = s.slot n) :
    t.Stands n dmax taps d F := by
  obtain ⟨⟨hlt, hv⟩, heng, htaps, hdeg, hrem⟩ := h
  exact ⟨⟨hn ▸ hlt, hs ▸ hv⟩, hs ▸ heng, hs ▸ htaps, hs ▸ hdeg, hs ▸ hrem⟩

/-- A bit or byte command gives the output of the Fibonacci engine on the stream bits its slot stands for,
moves these as that engine does, and leaves every other slot. -/
theorem State.Stands.issue {s : State} {n : SlotField} {dmax taps F : Nat}
    (h : s.Stands n dmax taps d F) (dir : Direction) (op : StreamOp) :
    ∃ t, issue dir n op s = some ((Fib.streamOp (tapSet taps) d dir F op).2, t) ∧
      t.Stands n dmax taps d (Fib.streamOp (tapSet taps) d dir F op).1 ∧
      t.nslot = s.nslot ∧ ∀ m, m ≠ n → t.slot m = s.slot m := by
  obtain ⟨hc, heng, rfl, rfl, hrem⟩ := h
  obtain ⟨hout, hrem', hlt⟩ := heng.streamOp_remembers hrem dir op
  have hslot := State.setReg_slot_same ((s.slot n).streamOp dir op).1 hc.1
  refine ⟨_, (issue_ok hc dir op).trans (by rw [hout]; rfl), ?_, by simp, fun m hm => ?_⟩
  · refine ⟨(hc.setReg _).of_slots rfl, ?_, ?_, ?_, ?_⟩ <;> rw [State.answered_slot, hslot]
    · exact heng.withReg hlt
    · exact hrem'
  · rw [State.answered_slot, State.setReg_slot_other _ hm]

/-- Lock-step on two slots with the same taps is lock-step on the stream bits they stand for. -/
theorem runLockStep_stands {a b : SlotField} (hab : a ≠ b) {dmax taps : Nat} (ops : List StreamOp)
    {s : State} {F G : Nat} (ha : s.Stands a dmax taps d F) (hb : s.Stands b dmax taps d G) :
    ∃ t, runLockStep a b ops s = some ((Fib.lockStep (tapSet taps) d F G ops).1, t) ∧
      t.Stands a dmax taps d (Fib.lockStep (tapSet taps) d F G ops).2.1 ∧
      t.Stands b dmax taps d (Fib.lockStep (tapSet taps) d F G ops).2.2 := by
  induction ops generalizing s F G with
  | nil => exact ⟨s, rfl, ha, hb⟩
  | cons op ops ih =>
    obtain ⟨t, hissueA, htA, htn, htslot⟩ := ha.issue .scramble op
    obtain ⟨u, hissueB, huB, hun, huslot⟩ := (hb.of_slot htn (htslot b hab.symm)).issue .descramble
      (Fib.streamOp (tapSet taps) d .scramble F op).2
    obtain ⟨w, hrun, hwA, hwB⟩ := ih (htA.of_slot hun (huslot a hab)) huB
    refine ⟨w, ?_, hwA, hwB⟩
    simp only [runLockStep, hissueA, hissueB, hrun, Option.bind_some, Option.map_some]
    rfl

/-! ### Paired slots -/

/-- The registers of two paired slots stand for the same stream bits. -/
theorem Slot.Paired.exists_remembers {dmax : Nat} {a b : Slot} (h : a.Paired b) (ha : a.Engine dmax) :
    ∃ F < 2 ^ a.deg, a.Remembers F ∧ b.Remembers F := by
  obtain ⟨htaps, hdeg, ⟨hkind, hreg⟩ | hsame⟩ := h
  · obtain ⟨F, hF, hrem⟩ := ha.exists_remembers
    refine ⟨F, hF, hrem, ?_⟩
    unfold Slot.Remembers Slot.tapList at hrem ⊢
    rwa [← hkind, ← hreg, ← hdeg, ← htaps]
  · exact hsame

/-- Settles O40: paired registers stand for the same stream bits, and so they do after every lock-step. -/
theorem lockStepRecoversEveryInput : Obligations.LockStepRecoversEveryInput := by
  intro s a b ops hinv hca hcb hab hpaired
  have hengA := hinv.slot_engine hca
  obtain ⟨F, hF, hremA, hremB⟩ := hpaired.exists_remembers hengA
  obtain ⟨htaps, hdeg, -⟩ := hpaired
  obtain ⟨t, hrun, htA, htB⟩ := runLockStep_stands hab ops ⟨hca, hengA, rfl, rfl, hremA⟩
    ⟨hcb, hinv.slot_engine hcb, htaps.symm, hdeg.symm, hremB⟩
  obtain ⟨hout, hsame⟩ := Fib.lockStep_same (T := tapSet (s.slot a).taps) (d := (s.slot a).deg) F ops
  rw [hout] at hrun
  refine ⟨t, hrun, htA.taps_eq.trans htB.taps_eq.symm, htA.deg_eq.trans htB.deg_eq.symm,
    .inr ⟨_, ?_, htA.remembers, hsame ▸ htB.remembers⟩⟩
  rw [htA.deg_eq]
  exact Fib.lockStep_lt hF ops

/-! ### The bits of a lock-step -/

theorem streamBits_append (ops ops' : List StreamOp) :
    streamBits (ops ++ ops') = streamBits ops ++ streamBits ops' := List.flatMap_append

theorem streamBits_map_bit (xs : List Bool) : streamBits (xs.map StreamOp.bit) = xs := by
  induction xs with
  | nil => rfl
  | cons x xs ih => exact congrArg (x :: ·) ih

theorem Fib.lockStep_append (F G : Nat) (ops ops' : List StreamOp) :
    Fib.lockStep T d F G (ops ++ ops') =
      ((Fib.lockStep T d F G ops).1 ++
        (Fib.lockStep T d (Fib.lockStep T d F G ops).2.1 (Fib.lockStep T d F G ops).2.2 ops').1,
        (Fib.lockStep T d (Fib.lockStep T d F G ops).2.1 (Fib.lockStep T d F G ops).2.2 ops').2) := by
  induction ops generalizing F G with
  | nil => rfl
  | cons op ops ih => rw [List.cons_append, Fib.lockStep, ih]; rfl

/-- Lock-step over `k` bit operations, in terms of the bits between the two engines. -/
theorem Fib.lockStep_range {v y : Nat → Bool} (F G : Nat) {k : Nat}
    (hy : ∀ b < k, y b = (Fib.sbit T d (serialBits (Fib.sbit T d) v F b).1 (v b)).2) :
    Fib.lockStep T d F G (((List.range k).map v).map StreamOp.bit) =
      (((List.range k).map (serialBits (Fib.dbit T d) y G k).2).map StreamOp.bit,
        (serialBits (Fib.sbit T d) v F k).1, (serialBits (Fib.dbit T d) y G k).1) := by
  induction k with
  | zero => rfl
  | succ k ih =>
    rw [serialBits_map_succ, List.range_succ, List.map_append, List.map_append, Fib.lockStep_append,
      ih fun b hb => hy b (by omega), List.map_append]
    simp only [List.map_singleton, Fib.lockStep, Fib.streamOp, Fib.bitOp, serialBits, hy k (by omega)]

/-- One operation in lock-step moves both engines as its bits would, and gives the same bits. -/
theorem Fib.lockStep_bits (F G : Nat) (op : StreamOp) :
    Fib.lockStep T d F G (op.bits.map StreamOp.bit) =
      ((streamBits (Fib.lockStep T d F G [op]).1).map StreamOp.bit, (Fib.lockStep T d F G [op]).2) := by
  cases op with
  | bit x => rfl
  | byte v =>
    have hrange := Fib.lockStep_range (T := T) (d := d) (v := v.getLsbD) F G (k := 8)
      (y := (packByte (serialBits (Fib.sbit T d) v.getLsbD F 8).2).getLsbD) fun b hb => by
        rw [getLsbD_packByte _ hb, serialBits_output _ _ _ hb]
    refine hrange.trans (Prod.ext (congrArg (List.map StreamOp.bit) ?_) rfl)
    refine (List.map_congr_left fun b hb => ?_).trans (List.append_nil _).symm
    exact (getLsbD_packByte _ (List.mem_range.1 hb)).symm

/-- The output bits of a lock-step depend on its input bits alone. -/
theorem Fib.streamBits_lockStep (F G : Nat) (ops : List StreamOp) :
    streamBits (Fib.lockStep T d F G ops).1 =
      streamBits (Fib.lockStep T d F G ((streamBits ops).map StreamOp.bit)).1 := by
  induction ops generalizing F G with
  | nil => rfl
  | cons op ops ih =>
    have hcons : streamBits (op :: ops) = op.bits ++ streamBits ops := List.flatMap_cons
    rw [hcons, List.map_append, Fib.lockStep_append, Fib.lockStep_bits, streamBits_append,
      streamBits_map_bit, ← ih, ← streamBits_append]
    rfl

/-! ### Synchronisation -/

theorem Fib.streamBits_lockStep_cons (F G : Nat) (x : Bool) (xs : List Bool) :
    streamBits (Fib.lockStep T d F G ((x :: xs).map StreamOp.bit)).1 =
      (x ^^ Fib.feedback T F ^^ Fib.feedback T G) ::
        streamBits (Fib.lockStep T d (Fib.shiftIn d F (x ^^ Fib.feedback T F))
          (Fib.shiftIn d G (x ^^ Fib.feedback T F)) (xs.map StreamOp.bit)).1 := rfl

/-- Where the lowest m of the d stream bits agree, every output bit after the first d - m is its input. -/
theorem Fib.lockStep_synchronises (hr : ∀ t ∈ T, 1 ≤ t ∧ t ≤ d) (xs : List Bool) {F G m : Nat}
    (hagree : ∀ i < m, i < d → F.testBit i = G.testBit i) :
    (streamBits (Fib.lockStep T d F G (xs.map StreamOp.bit)).1).drop (d - m) = xs.drop (d - m) := by
  induction xs generalizing F G m with
  | nil => rfl
  | cons x xs ih =>
    have htail := ih (F := Fib.shiftIn d F (x ^^ Fib.feedback T F))
      (G := Fib.shiftIn d G (x ^^ Fib.feedback T F)) (m := m + 1) fun i hi hd => by
        rw [Fib.testBit_shiftIn, Fib.testBit_shiftIn]
        by_cases h0 : i = 0
        · rw [if_pos h0, if_pos h0]
        · rw [if_neg h0, if_neg h0, hagree (i - 1) (by omega) (by omega)]
    rw [Fib.streamBits_lockStep_cons]
    by_cases hm : m < d
    · rw [show d - m = d - (m + 1) + 1 by omega, List.drop_succ_cons, List.drop_succ_cons]
      exact htail
    · have hfeedback : Fib.feedback T F = Fib.feedback T G := xorOver_congr fun t ht => by
        obtain ⟨hpos, hle⟩ := hr t ht
        exact hagree _ (by omega) (by omega)
      rw [show d - (m + 1) = 0 by omega, List.drop_zero, List.drop_zero] at htail
      rw [show d - m = 0 by omega, List.drop_zero, List.drop_zero, hfeedback, Bool.xor_assoc,
        Bool.xor_self, Bool.xor_false, ← hfeedback, htail]

/-- Settles O42: with no stream bit known to agree, every bit after the first d is recovered. -/
theorem descramblersSynchroniseThemselves : Obligations.DescramblersSynchroniseThemselves := by
  intro s a b ops hinv hca hcb hab htaps
  have hengA := hinv.slot_engine hca
  have hengB := hinv.slot_engine hcb
  obtain ⟨F, -, hremA⟩ := hengA.exists_remembers
  obtain ⟨G, -, hremB⟩ := hengB.exists_remembers
  obtain ⟨t, hrun, -, -⟩ := runLockStep_stands hab ops ⟨hca, hengA, rfl, rfl, hremA⟩
    ⟨hcb, hengB, htaps.symm, (hengA.deg_eq_of_taps hengB htaps).symm, hremB⟩
  refine ⟨_, t, hrun, ?_⟩
  rw [Fib.streamBits_lockStep]
  exact Fib.lockStep_synchronises (m := 0) hengA.taps_range.1 (streamBits ops)
    fun i hi => absurd hi (Nat.not_lt_zero i)

/-! ### Slots of one stage -/

/-- Two engines built from the same taps are paired when they are of one kind, or neither is GAL. -/
theorem construct_paired {j k : Kind} (hkinds : j = k ∨ j ≠ .gal ∧ k ≠ .gal) (T : List Nat)
    (d dmax draw draw' : Nat) : (construct j T d dmax draw).Paired (construct k T d dmax draw') := by
  refine ⟨rfl, rfl, ?_⟩
  rcases hkinds with rfl | ⟨hj, hk⟩
  · exact .inl ⟨rfl, rfl⟩
  · exact .inr ⟨mask d, mask_lt d, (construct_fresh j T d dmax draw).remembers hj,
      (construct_fresh k T d dmax draw').remembers hk⟩

/-- The kinds that two slots of one stage must have to be paired. -/
theorem kinds_of_pairable {j k : KindField}
    (h : (j, k) ∈ [(0#2, 0#2), (1#2, 1#2), (2#2, 2#2), (0#2, 2#2), (2#2, 0#2)]) :
    ∃ kj kk, Kind.ofField j = some kj ∧ Kind.ofField k = some kk ∧
      (kj = kk ∨ kj ≠ .gal ∧ kk ≠ .gal) := by
  simp only [List.mem_cons, Prod.mk.injEq, List.not_mem_nil, or_false] at h
  rcases h with ⟨rfl, rfl⟩ | ⟨rfl, rfl⟩ | ⟨rfl, rfl⟩ | ⟨rfl, rfl⟩ | ⟨rfl, rfl⟩
  · exact ⟨.fib, .fib, rfl, rfl, .inl rfl⟩
  · exact ⟨.gal, .gal, rfl, rfl, .inl rfl⟩
  · exact ⟨.bulk, .bulk, rfl, rfl, .inl rfl⟩
  · exact ⟨.fib, .bulk, rfl, rfl, .inr ⟨nofun, nofun⟩⟩
  · exact ⟨.bulk, .fib, rfl, rfl, .inr ⟨nofun, nofun⟩⟩

/-- Settles O41: CONFIG leaves the stage, so both slots hold engines built from the same taps. -/
theorem slotsOfOneStageArePaired : Obligations.SlotsOfOneStageArePaired := by
  intro s a b j k ha hb hab hstage hpair
  obtain ⟨T, d, hv⟩ := exists_validate hstage
  obtain ⟨kj, kk, hj, hk, hkinds⟩ := kinds_of_pairable hpair
  have hbt : b.toNat < ((s.install a kj T d).answered d).nslot := by simpa using hb
  refine ⟨_, _, execConfig_ok hj ha hv, execConfig_ok hk hbt hv, ?_⟩
  have hslotA : ((((s.install a kj T d).answered d).install b kk T d).answered d).slot a =
      construct kj T d s.dmax s.draws := by
    rw [State.answered_slot, State.install_slot_other kk T d hab, State.answered_slot,
      State.install_slot_same kj T d ha]
  have hslotB : ((((s.install a kj T d).answered d).install b kk T d).answered d).slot b =
      construct kk T d s.dmax (s.draws + 1) := by
    rw [State.answered_slot, State.install_slot_same kk T d hbt]
    rfl
  refine ⟨⟨by simpa using ha, ?_⟩, ⟨by simpa using hb, ?_⟩, ?_⟩
  · rw [hslotA]; rfl
  · rw [hslotB]; rfl
  · rw [hslotA, hslotB]
    exact construct_paired hkinds T d s.dmax _ _

end Sys2Proof.Machine
end

section
/-! A FIB or GAL scrambler under zero input: its step on stream bits is one-to-one on the d-bit values, so
a register other than 0 never reaches 0 and returns (42_fibonacci.md R122, 43_galois.md R142). -/

namespace Sys2Proof.Machine

/-- The stream bits after one scrambler step with input 0. -/
def Fib.zeroStep (T : List Nat) (d F : Nat) : Nat := (Fib.sbit T d F false).1

theorem Fib.zeroStep_lt (T : List Nat) (d F : Nat) : Fib.zeroStep T d F < 2 ^ d := Fib.shiftIn_lt ..

theorem Fib.iterate_zeroStep_lt {T : List Nat} {d F : Nat} (hF : F < 2 ^ d) (k : Nat) :
    (Fib.zeroStep T d)^[k] F < 2 ^ d := by
  cases k with
  | zero => exact hF
  | succ k =>
    rw [Function.iterate_succ_apply']
    exact Fib.zeroStep_lt ..

theorem Fib.zeroStep_zero (T : List Nat) (d : Nat) : Fib.zeroStep T d 0 = 0 :=
  congrArg Prod.fst (Fib.sbit_zero T d)

theorem Fib.testBit_zeroStep (T : List Nat) (d F i : Nat) : (Fib.zeroStep T d F).testBit i =
    (decide (i < d) && if i = 0 then Fib.feedback T F else F.testBit (i - 1)) := by
  rw [Fib.zeroStep, Fib.sbit, Bool.false_xor]
  exact Fib.testBit_shiftIn ..

/-- The numbers of d bits. -/
def bitValues (d : Nat) : Set Nat := {F | F < 2 ^ d}

section TapSet

variable {T : List Nat} {d : Nat} (hn : T.Nodup) (hd : d ∈ T) (hr : ∀ t ∈ T, 1 ≤ t ∧ t ≤ d)
include hn hd hr

/-- The step keeps every bit but the highest, which the feedback gives back through the highest tap. -/
theorem Fib.zeroStep_injOn : Set.InjOn (Fib.zeroStep T d) (bitValues d) := by
  intro F hF G hG h
  have hbit : ∀ i, (Fib.zeroStep T d F).testBit i = (Fib.zeroStep T d G).testBit i := fun i => by rw [h]
  simp only [Fib.testBit_zeroStep] at hbit
  obtain ⟨hpos, -⟩ := hr d hd
  have hlow : ∀ i, i + 1 < d → F.testBit i = G.testBit i := fun i hi => by simpa [hi] using hbit (i + 1)
  have hfeedback : Fib.feedback T F = Fib.feedback T G := by
    simpa [show 0 < d from hpos] using hbit 0
  have hdiff : xorOver T (fun t => F.testBit (t - 1) ^^ G.testBit (t - 1)) =
      xorOver T fun t => decide (t = d) && (F.testBit (d - 1) ^^ G.testBit (d - 1)) := by
    refine xorOver_congr fun t ht => ?_
    obtain ⟨htpos, hle⟩ := hr t ht
    by_cases htop : t = d
    · simp [htop]
    · rw [hlow (t - 1) (by omega)]
      simp [htop]
  rw [xorOver_xor, ← Fib.feedback, ← Fib.feedback, hfeedback, Bool.xor_self, xorOver_eq_mem hn,
    decide_eq_true hd, Bool.true_and] at hdiff
  refine eq_of_testBit_below hF hG fun i hi => ?_
  by_cases htop : i + 1 < d
  · exact hlow i htop
  · obtain rfl : i = d - 1 := by omega
    simpa using hdiff.symm

theorem Fib.iterate_zeroStep_injOn (k : Nat) : Set.InjOn (Fib.zeroStep T d)^[k] (bitValues d) :=
  (Fib.zeroStep_injOn hn hd hr).iterate (fun _ _ => Fib.zeroStep_lt ..) k

theorem Fib.iterate_zeroStep_ne_zero {F : Nat} (hF : F < 2 ^ d) (h0 : F ≠ 0) (k : Nat) :
    (Fib.zeroStep T d)^[k] F ≠ 0 := by
  intro h
  refine h0 (Fib.iterate_zeroStep_injOn hn hd hr k hF (Nat.two_pow_pos d) ?_)
  rw [h, Function.iterate_fixed (Fib.zeroStep_zero T d)]

/-- Among the 2^d values reached in 0 to 2^d - 1 steps, none of them 0, two are equal; stepping back from
both shows that the start comes again. -/
theorem Fib.exists_iterate_zeroStep_eq {F : Nat} (hF : F < 2 ^ d) (h0 : F ≠ 0) :
    ∃ k, 1 ≤ k ∧ k ≤ 2 ^ d - 1 ∧ (Fib.zeroStep T d)^[k] F = F := by
  have hmaps : ∀ k ∈ Finset.range (2 ^ d), (Fib.zeroStep T d)^[k] F ∈ Finset.Ioo 0 (2 ^ d) := by
    intro k _
    exact Finset.mem_Ioo.2 ⟨Nat.pos_of_ne_zero (Fib.iterate_zeroStep_ne_zero hn hd hr hF h0 k),
      Fib.iterate_zeroStep_lt hF k⟩
  have hcard : (Finset.Ioo 0 (2 ^ d)).card < (Finset.range (2 ^ d)).card := by
    have := Nat.two_pow_pos d
    rw [Nat.card_Ioo, Finset.card_range]
    omega
  have back : ∀ i j, i < j → j < 2 ^ d → (Fib.zeroStep T d)^[i] F = (Fib.zeroStep T d)^[j] F →
      ∃ k, 1 ≤ k ∧ k ≤ 2 ^ d - 1 ∧ (Fib.zeroStep T d)^[k] F = F := by
    intro i j hij hj heq
    refine ⟨j - i, by omega, by omega, ?_⟩
    refine Fib.iterate_zeroStep_injOn hn hd hr i (Fib.iterate_zeroStep_lt hF (j - i)) hF ?_
    rw [← Function.iterate_add_apply, show i + (j - i) = j by omega, heq]
  obtain ⟨i, hi, j, hj, hne, heq⟩ := Finset.exists_ne_map_eq_of_card_lt_of_maps_to hcard hmaps
  rw [Finset.mem_range] at hi hj
  rcases Nat.lt_or_gt_of_ne hne with hij | hji
  · exact back i j hij hj heq
  · exact back j i hji hi heq.symm

end TapSet

/-- A stream of zero bits is that many zero steps. -/
theorem Fib.stream_zeros (T : List Nat) (d F k : Nat) :
    (Fib.stream T d F (oneWay .scramble (List.replicate k (.bit false)))).2 =
      (Fib.zeroStep T d)^[k] F := by
  induction k generalizing F with
  | zero => rfl
  | succ k ih => exact ih (Fib.zeroStep T d F)

/-- A FIB or GAL register of 0 stands for stream bits that are all 0. -/
theorem Slot.remembers_zero {sl : Slot} (hk : sl.kind ≠ .bulk) :
    ({ sl with reg := 0 } : Slot).Remembers 0 := by
  unfold Slot.Remembers
  cases hkind : sl.kind with
  | fib => rfl
  | gal =>
    refine Nat.eq_of_testBit_eq fun i => ?_
    rw [testBit_phi, xorOver_eq_false fun t _ => Nat.zero_testBit _]
    simp
  | bulk => exact absurd hkind hk

/-- Settles O46: on the stream bits that the register stands for, the stream is an iteration of the zero
step. -/
theorem zeroInputReturnsWithinMaximalLength : Obligations.ZeroInputReturnsWithinMaximalLength := by
  intro s n hinv hc hk hreg
  have heng := hinv.slot_engine hc
  obtain ⟨hrange, htop⟩ := heng.taps_range
  have hnodup : (s.slot n).tapList.Nodup := tapSet_nodup _
  obtain ⟨F, hF, hrem⟩ := heng.exists_remembers
  have hF0 : F ≠ 0 := by
    rintro rfl
    exact hreg (Slot.reg_eq_of_remembers hk hrem (Slot.remembers_zero hk))
  have hstream : ∀ k, ({ s.slot n with reg := ((s.slot n).stream
      (oneWay .scramble (List.replicate k (.bit false)))).2 } : Slot).Remembers
        ((Fib.zeroStep (s.slot n).tapList (s.slot n).deg)^[k] F) := fun k => by
    rw [← Fib.stream_zeros]
    exact (heng.stream_remembers hrem _).2.1
  constructor
  · intro k
    obtain ⟨t, hrun, hslot⟩ := exists_runStream hc (oneWay .scramble (List.replicate k (.bit false)))
    refine ⟨_, t, hrun, fun hzero => ?_⟩
    have hstream0 := hstream k
    rw [hslot] at hzero
    rw [show ((s.slot n).stream _).2 = 0 from hzero] at hstream0
    exact Fib.iterate_zeroStep_ne_zero hnodup htop hrange hF hF0 k
      ((heng.withReg (Nat.two_pow_pos _)).remembers_inj (Fib.iterate_zeroStep_lt hF k)
        (Nat.two_pow_pos _) hstream0 (Slot.remembers_zero hk))
  · obtain ⟨k, hk1, hk2, hback⟩ := Fib.exists_iterate_zeroStep_eq hnodup htop hrange hF hF0
    obtain ⟨t, hrun, hslot⟩ := exists_runStream hc (oneWay .scramble (List.replicate k (.bit false)))
    refine ⟨k, hk1, hk2, _, t, hrun, ?_⟩
    rw [hslot]
    exact Slot.reg_eq_of_remembers hk (hback ▸ hstream k) hrem

end Sys2Proof.Machine
end

section
/-! What commands and steps leave unchanged: the build parameters, the slots that are not named, TAPSTAGE,
BUF and VALID; and that every command answers, with an error of its row or with {OK, RESULT}
(10_state.md R21 to R26, R36, 20_memory.md R51, 60_exceptions.md R260, R272). -/

namespace Sys2Proof.Machine

/-! ### What a command that answered did -/

/-- The state after a command is that of an error of its row or that of its effect. -/
theorem exec_next_cases {i : Instr} {s t : State} (h : exec i s = .next t) :
    (∃ code, code ∈ mayRaise i ∧ (i.wellFormed = true → code ≠ .eIllegal) ∧ t = s.failed code) ∨
    (∃ u v, Effect i s u v ∧ t = u.answered v) := by
  rcases exec_cases i s with ⟨code, hrow, hlegal, -, hfail⟩ | ⟨u, v, heffect, hok⟩
  · exact .inl ⟨code, hrow, hlegal, Host.Outcome.next.inj (h.symm.trans hfail)⟩
  · exact .inr ⟨u, v, heffect, Host.Outcome.next.inj (h.symm.trans hok)⟩

/-- Settles O20: `exec_cases` names the row of the error, and only CONFIG with KIND = 3 raises E_ILLEGAL. -/
theorem commandsRaiseOnlyTheirCodes : Obligations.CommandsRaiseOnlyTheirCodes := by
  intro i s t hwf hexec
  rcases exec_next_cases hexec with ⟨code, hrow, hlegal, rfl⟩ | ⟨u, v, -, rfl⟩
  · exact ⟨_, rfl, .inr hrow, hlegal hwf⟩
  · exact ⟨_, rfl, .inl rfl, nofun⟩

/-! ### The slots -/

/-- An effect changes no slot but the named one. -/
theorem Effect.slot_other {i : Instr} {s t : State} {v : Nat} (h : Effect i s t v) {m : SlotField}
    (hm : namedSlot i ≠ some m) : t.slot m = s.slot m := by
  have other : ∀ {n : SlotField}, namedSlot i = some n → m ≠ n := fun hn hmn => hm (hmn ▸ hn)
  rcases h.slots with ⟨n, f, k, T, d, rfl, -, -, hslots⟩ | ⟨-, n, r, hnamed, hslots⟩ | ⟨-, hslots⟩
  · rw [State.slot_of_slots_eq hslots, State.install_slot_other k T d (other rfl)]
  · rw [State.slot_of_slots_eq hslots, State.setReg_slot_other r (other hnamed)]
  · exact State.slot_of_slots_eq hslots m

theorem Effect.nslot {i : Instr} {s t : State} {v : Nat} (h : Effect i s t v) : t.nslot = s.nslot := by
  rcases h.slots with ⟨n, f, k, T, d, -, -, -, hslots⟩ | ⟨-, n, r, -, hslots⟩ | ⟨-, hslots⟩
  · rw [State.nslot_eq, hslots, ← State.nslot_eq, State.install_nslot]
  · rw [State.nslot_eq, hslots, ← State.nslot_eq, State.setReg_nslot]
  · rw [State.nslot_eq, hslots, ← State.nslot_eq]

theorem Effect.params {i : Instr} {s t : State} {v : Nat} (h : Effect i s t v) : t.params = s.params := by
  obtain ⟨hdmax, hsize, -⟩ := h.interface
  rw [State.params, hdmax, hsize, h.nslot, ← State.params]

/-- An effect keeps a configured slot configured. -/
theorem Effect.valid {i : Instr} {s t : State} {v : Nat} (h : Effect i s t v) {m : SlotField}
    (hm : (s.slot m).valid = true) : (t.slot m).valid = true := by
  rcases h.slots with ⟨n, f, k, T, d, -, -, -, hslots⟩ | ⟨-, n, r, -, hslots⟩ | ⟨-, hslots⟩ <;>
    rw [State.slot_of_slots_eq hslots]
  · rw [State.install_slot]
    split
    · rfl
    · exact hm
  · obtain ⟨q, hq⟩ := s.setReg_slot_configuration n r m
    rw [hq]
    exact hm
  · exact hm

/-- Settles O55: an error changes no slot, an effect only the named one. -/
theorem onlyTheNamedSlotChanges : Obligations.OnlyTheNamedSlotChanges := by
  intro i s t hexec
  rcases exec_next_cases hexec with ⟨code, -, -, rfl⟩ | ⟨u, v, heffect, rfl⟩
  · exact ⟨rfl, fun m _ => rfl⟩
  · exact ⟨heffect.nslot, fun m hm => heffect.slot_other hm⟩

/-! ### TAPSTAGE -/

theorem State.memRead_tapstage (s : State) (a : Nat) : (s.memRead a).2.tapstage = s.tapstage := by
  obtain ⟨k, hk⟩ := s.memRead_state a
  rw [hk]

/-- The effect of every command but TAPCLR and TAPADD leaves TAPSTAGE. -/
theorem Effect.tapstage {i : Instr} {s t : State} {v : Nat} (h : Effect i s t v) (hclr : i ≠ .tapclr)
    (hadd : ∀ tap, i ≠ .tapadd tap) : t.tapstage = s.tapstage := by
  cases i with
  | nop => obtain ⟨rfl, -⟩ := h; rfl
  | tapclr => exact absurd rfl hclr
  | tapadd tap => exact absurd rfl (hadd tap)
  | config n f => obtain ⟨k, T, d, -, -, -, rfl, -⟩ := h; rfl
  | scrb _ _ | dscb _ _ | scry _ _ | dscy _ _ => obtain ⟨-, rfl, -⟩ := h; rfl
  | state n => obtain ⟨-, -, rfl, -⟩ := h; rfl
  | scrr _ _ _ _ | dscr _ _ _ _ =>
    obtain ⟨-, -, -, rfl, -⟩ := h
    exact (rangeLoop_effect ..).tapstage
  | bufwr a b => obtain ⟨-, rfl, -⟩ := h; rfl
  | bufrd a => obtain ⟨-, rfl, -⟩ := h; exact s.memRead_tapstage _

/-- Settles O56: an error leaves TAPSTAGE, and so does the effect of any other command. -/
theorem onlyTapCommandsWriteTheStage : Obligations.OnlyTapCommandsWriteTheStage := by
  intro i s t hclr hadd hexec
  rcases exec_next_cases hexec with ⟨code, -, -, rfl⟩ | ⟨u, v, heffect, rfl⟩
  · rfl
  · exact heffect.tapstage hclr hadd

/-! ### BUF -/

theorem State.stageTap_buf (s : State) (t : Nat) : (s.stageTap t).buf = s.buf := by
  unfold State.stageTap
  split <;> rfl

theorem State.memRead_buf (s : State) (a : Nat) : (s.memRead a).2.buf = s.buf := by
  obtain ⟨k, hk⟩ := s.memRead_state a
  rw [hk]

/-- The effect of every command but BUFWR, SCRR and DSCR leaves BUF. -/
theorem Effect.buf {i : Instr} {s t : State} {v : Nat} (h : Effect i s t v)
    (hwr : ∀ a b, i ≠ .bufwr a b) (hrange : ∀ dir n src dst len, i ≠ rangeInstr dir n src dst len) :
    t.buf = s.buf := by
  cases i with
  | nop => obtain ⟨rfl, -⟩ := h; rfl
  | tapclr => obtain ⟨rfl, -⟩ := h; rfl
  | tapadd tap => obtain ⟨-, rfl, -⟩ := h; exact s.stageTap_buf _
  | config n f => obtain ⟨k, T, d, -, -, -, rfl, -⟩ := h; rfl
  | scrb _ _ | dscb _ _ | scry _ _ | dscy _ _ => obtain ⟨-, rfl, -⟩ := h; rfl
  | state n => obtain ⟨-, -, rfl, -⟩ := h; rfl
  | scrr n src dst len => exact absurd rfl (hrange .scramble n src dst len)
  | dscr n src dst len => exact absurd rfl (hrange .descramble n src dst len)
  | bufwr a b => exact absurd rfl (hwr a b)
  | bufrd a => obtain ⟨-, rfl, -⟩ := h; exact s.memRead_buf _

theorem exec_buf {i : Instr} {s t : State} (hwr : ∀ a b, i ≠ .bufwr a b)
    (hrange : ∀ dir n src dst len, i ≠ rangeInstr dir n src dst len) (h : exec i s = .next t) :
    t.buf = s.buf := by
  rcases exec_next_cases h with ⟨code, -, -, rfl⟩ | ⟨u, v, heffect, rfl⟩
  · rfl
  · exact heffect.buf hwr hrange

/-- Settles O57: an error leaves BUF, and so does the effect of any other command. -/
theorem onlyThreeCommandsWriteTheBuffer : Obligations.OnlyThreeCommandsWriteTheBuffer := by
  intro i s t hwr hrange hexec a
  rw [exec_buf hwr hrange hexec]

theorem exec_params {i : Instr} {s t : State} (h : exec i s = .next t) : t.params = s.params := by
  rcases exec_next_cases h with ⟨code, -, -, rfl⟩ | ⟨u, v, heffect, rfl⟩
  · rfl
  · exact heffect.params

/-! ### BUFWR and BUFRD -/

theorem State.memRead_written {s : State} {a : Nat} {v : Byte} (h : s.buf.read a = some v) :
    s.memRead a = (v, s) := by
  simp [State.memRead, h]

theorem State.memRead_unwritten {s : State} {a : Nat} (h : s.buf.read a = none) :
    s.memRead a = (Config.freeByte s.draws, { s with draws := s.draws + 1 }) := by
  simp [State.memRead, h]

theorem exec_bufwr_bounds {s : State} {a : Field16} (h : s.bufSize ≤ a.toNat) (v : Byte) :
    exec (.bufwr a v) s = .next (s.failed .eBounds) := by
  simp [exec, execBufwr, addressable, Nat.not_lt.2 h, raiseError_eq]

theorem exec_bufrd_bounds {s : State} {a : Field16} (h : s.bufSize ≤ a.toNat) :
    exec (.bufrd a) s = .next (s.failed .eBounds) := by
  simp [exec, execBufrd, addressable, Nat.not_lt.2 h, raiseError_eq]

/-- A read of a written byte answers it and changes nothing. -/
theorem exec_bufrd_written {s : State} {a : Field16} {v : Byte} (h : a.toNat < s.bufSize)
    (hv : s.buf.read a.toNat = some v) : exec (.bufrd a) s = .next (s.answered v.toNat) := by
  rw [exec_bufrd_ok h, State.memRead_written hv]

/-- Settles O52: `Memory.write` stores the byte and leaves every other address. -/
theorem bufwrStoresTheByte : Obligations.BufwrStoresTheByte := by
  intro s a v
  refine ⟨fun h => ⟨_, exec_bufwr_ok h v, Memory.read_write_same .., fun p hp => ?_⟩,
    fun h => exec_bufwr_bounds h v⟩
  exact Memory.read_write_other s.buf v hp

/-- Settles O53: a read of an unwritten byte draws a free value. -/
theorem bufrdReturnsTheByte : Obligations.BufrdReturnsTheByte := by
  intro s a
  refine ⟨fun h v hv => exec_bufrd_written h hv, fun h hnone => ⟨Config.freeByte s.draws, ?_⟩,
    exec_bufrd_bounds⟩
  rw [exec_bufrd_ok h, State.memRead_unwritten hnone]

/-- Settles O54: the command between the two names a slot and is no range, so it leaves BUF. -/
theorem readReturnsTheLatestWrite : Obligations.ReadReturnsTheLatestWrite := by
  intro s t u a v i ha hwrite hslot hrange hexec
  obtain rfl := Host.Outcome.next.inj ((exec_bufwr_ok ha v).symm.trans hwrite)
  have hwr : ∀ a b, i ≠ .bufwr a b := by
    rintro a b rfl
    cases hslot
  have hsize : u.bufSize = s.bufSize := congrArg Config.Params.bufSize (exec_params hexec)
  refine exec_bufrd_written (hsize ▸ ha) ?_
  rw [exec_buf hwr hrange hexec]
  exact Memory.read_write_same ..

/-! ### Steps -/

theorem step_command {s : State} {w : CmdWord} {rest : List HostEvent} {i : Instr}
    (hp : s.pending = .command w :: rest) (hd : decodeWord w = .ok i) :
    step s = exec i (accept rest s) := by
  simp [step, hp, hd]

/-- Settles O9: the step takes the word from the port and decodes it. -/
theorem stepRunsTheDecodedInstruction : Obligations.StepRunsTheDecodedInstruction :=
  fun _ _ _ _ hp hd => step_command hp hd

theorem step_wait {s : State} (hp : s.pending = []) : step s = .next (idle s) := by
  simp [step, hp]

/-- Settles O10: the step is `idle`. -/
theorem stepWithoutEventWaits : Obligations.StepWithoutEventWaits := fun _ hp => step_wait hp

theorem accept_params (rest : List HostEvent) (s : State) : (accept rest s).params = s.params := rfl

theorem platformReset_params (s : State) : (platformReset s).params = s.params := by
  simp [State.params]

theorem valid_of_mem_replicate_reset {n : Nat} {sl : Slot} (h : sl ∈ List.replicate n Slot.reset) :
    sl.valid = false := by
  rw [List.eq_of_mem_replicate h]
  rfl

/-- Settles O11: the step is `platformReset`, whose slots are all `Slot.reset`. -/
theorem platformResetClearsStageAndValid : Obligations.PlatformResetClearsStageAndValid := by
  intro s rest hp
  exact ⟨_, step_reset hp, rfl, fun sl hsl => valid_of_mem_replicate_reset hsl, fun _ => rfl, rfl,
    platformReset_params _, rfl⟩

/-- Settles O13: the state after reset is `State.resetWith` of the defaults. -/
theorem resetStateIsAsTheSpecGives : Obligations.ResetStateIsAsTheSpecGives :=
  ⟨rfl, rfl, rfl, rfl, fun _ hsl => valid_of_mem_replicate_reset hsl, fun _ => rfl, rfl, rfl⟩

theorem step_next (s : State) : ∃ t, step s = .next t := by
  rcases step_cases s with ⟨-, h⟩ | ⟨w, rest, -, ⟨err, -, h⟩ | ⟨i, -, h⟩⟩ | ⟨rest, -, h⟩
  · exact ⟨_, h⟩
  · exact ⟨_, h⟩
  · rw [h]
    exact exec_next i _
  · exact ⟨_, h⟩

/-- Settles O16, by induction on the length of the run: every step answers a next state. -/
theorem everyRunIsSafe : Obligations.EveryRunIsSafe := by
  intro k
  induction k with
  | zero => exact fun s => ⟨s, rfl⟩
  | succ k ih =>
    intro s
    obtain ⟨t, ht⟩ := step_next s
    obtain ⟨u, hu⟩ := ih t
    have hrun : core.run (k + 1) s = core.run k t := by
      simp only [Host.Core.run, show core.step s = .next t from ht]
    exact ⟨u, hrun.trans hu⟩

/-- Settles O17: no form of a step writes a build parameter. -/
theorem stepKeepsTheBuildParameters : Obligations.StepKeepsTheBuildParameters := by
  intro s t hstep
  rcases step_cases s with ⟨-, h⟩ | ⟨w, rest, -, ⟨err, -, h⟩ | ⟨i, -, h⟩⟩ | ⟨rest, -, h⟩
  · obtain rfl := Host.Outcome.next.inj (h.symm.trans hstep)
    rfl
  · obtain rfl := Host.Outcome.next.inj (h.symm.trans hstep)
    rfl
  · exact (exec_params (h.symm.trans hstep)).trans (accept_params rest s)
  · obtain rfl := Host.Outcome.next.inj (h.symm.trans hstep)
    exact platformReset_params _

/-- Settles O59: a step that is no reset is a wait, an illegal word or a command, and each keeps VALID. -/
theorem onlyResetClearsValid : Obligations.OnlyResetClearsValid := by
  intro s t n hstep hvalid hreset hduring
  rcases step_cases s with ⟨-, h⟩ | ⟨w, rest, -, ⟨err, -, h⟩ | ⟨i, -, h⟩⟩ | ⟨rest, hp | ⟨w, hp⟩, -⟩
  · obtain rfl := Host.Outcome.next.inj (h.symm.trans hstep)
    exact hvalid
  · obtain rfl := Host.Outcome.next.inj (h.symm.trans hstep)
    exact hvalid
  · rcases exec_next_cases (h.symm.trans hstep) with ⟨code, -, -, rfl⟩ | ⟨u, v, heffect, rfl⟩
    · exact hvalid
    · exact heffect.valid (s := accept rest s) hvalid
  · exact absurd hp (hreset rest)
  · exact absurd hp (hduring w rest)

end Sys2Proof.Machine
end

section
/-! The invariant: what reset gives and every step keeps, piece by piece (10_state.md sections 2 to 4,
20_memory.md section 1, 60_exceptions.md R260). -/

namespace Sys2Proof.Machine

/-! ### The pieces of the invariant -/

/-- Every slot fits its widths, and every configured slot holds an engine. -/
def State.SlotsOk (s : State) : Prop :=
  ∀ sl ∈ s.slots, sl.Widths s.dmax ∧ (sl.valid = true → sl.Engine s.dmax)

/-- TAPSTAGE fits its width, and its bit 0 is 0. -/
def State.StageOk (s : State) : Prop := s.tapstage < 2 ^ (s.dmax + 1) ∧ s.tapstage.testBit 0 = false

/-- RESULT fits RW bits, and is 0 unless STATUS is OK. -/
def Response.Ok (dmax : Nat) (r : Response) : Prop :=
  r.result < 2 ^ Config.resultWidth dmax ∧ (r.status ≠ .ok → r.result = 0)

theorem State.inv_iff {s : State} : s.Inv ↔
    s.params.Legal ∧ s.StageOk ∧ s.SlotsOk ∧ s.BufOk ∧ ∀ r ∈ s.response, r.Ok s.dmax := by
  constructor
  · intro h
    exact ⟨h.params, ⟨h.tapstage_lt, h.tapstage_zero⟩, fun sl hsl => ⟨h.widths sl hsl, h.engine sl hsl⟩,
      ⟨h.buf_wf, h.buf_lt⟩, fun r hr => ⟨h.result_lt r hr, h.error_zero r hr⟩⟩
  · rintro ⟨hparams, ⟨hlt, hzero⟩, hslots, ⟨hwf, hbuf⟩, hresponse⟩
    exact ⟨hparams, hlt, hzero, fun sl hsl => (hslots sl hsl).1, fun sl hsl => (hslots sl hsl).2, hwf, hbuf,
      fun r hr => (hresponse r hr).1, fun r hr => (hresponse r hr).2⟩

theorem Response.ok_failed (dmax : Nat) (code : Status) : (Response.mk code 0).Ok dmax :=
  ⟨Nat.two_pow_pos _, fun _ => rfl⟩

theorem Response.ok_answered {dmax v : Nat} (h : v < 2 ^ Config.resultWidth dmax) :
    (Response.mk .ok v).Ok dmax := ⟨h, fun hne => absurd rfl hne⟩

/-! ### RESULT -/

theorem lt_resultWidth_of_lt_byte {v : Nat} (dmax : Nat) (h : v < 2 ^ 8) :
    v < 2 ^ Config.resultWidth dmax :=
  lt_of_lt_of_le h (Nat.pow_le_pow_right (by norm_num) (le_max_right dmax 8))

theorem lt_resultWidth_of_lt_dmax {v dmax : Nat} (h : v < 2 ^ dmax) : v < 2 ^ Config.resultWidth dmax :=
  lt_of_lt_of_le h (Nat.pow_le_pow_right (by norm_num) (le_max_left dmax 8))

theorem boolToNat_lt_byte (x : Bool) : x.toNat < 2 ^ 8 := by cases x <;> decide

theorem Slot.stateValue_eq (sl : Slot) : sl.stateValue = sl.reg % 2 ^ sl.deg := by
  unfold Slot.stateValue
  cases sl.kind <;> exact and_mask ..

/-! ### Slots -/

theorem State.SlotsOk.engine {s : State} {n : SlotField} (h : s.SlotsOk) (hc : s.Configured n) :
    (s.slot n).Engine s.dmax := (h _ (State.slot_mem hc.1)).2 hc.2

theorem State.SlotsOk.of_slots {s t : State} (h : s.SlotsOk) (hslots : t.slots = s.slots)
    (hdmax : t.dmax = s.dmax) : t.SlotsOk := by
  unfold State.SlotsOk
  rwa [hslots, hdmax]

theorem State.SlotsOk.setSlot {s : State} (h : s.SlotsOk) (n : SlotField) {new : Slot}
    (hnew : new.Widths s.dmax ∧ (new.valid = true → new.Engine s.dmax)) : (s.setSlot n new).SlotsOk := by
  intro sl hsl
  rcases List.mem_or_eq_of_mem_set hsl with hold | rfl
  · exact h sl hold
  · exact hnew

theorem State.setReg_eq_setSlot {s : State} {n : SlotField} (hn : n.toNat < s.nslot) (r : Nat) :
    s.setReg n r = s.setSlot n { s.slot n with reg := r } := by
  rw [State.nslot_eq] at hn
  have hslot : s.slot n = s.slots.get ⟨n.toNat, hn⟩ := by
    rw [State.slot, List.getElem?_eq_getElem hn]
    rfl
  rw [State.setReg, List.modify_eq_set_get _ hn, ← hslot]
  rfl

/-- A register within its used width fits the register of the hardware. -/
theorem Slot.Engine.reg_lt_dmax {dmax r : Nat} {sl : Slot} (h : sl.Engine dmax) (hr : r < 2 ^ sl.width) :
    r < 2 ^ (dmax + 8) := by
  have hle := h.deg_le
  refine lt_of_lt_of_le hr (Nat.pow_le_pow_right (by norm_num) ?_)
  unfold Slot.width
  cases sl.kind <;> simp only <;> omega

theorem Slot.Widths.withReg {dmax r : Nat} {sl : Slot} (h : sl.Widths dmax) (hr : r < 2 ^ (dmax + 8)) :
    ({ sl with reg := r } : Slot).Widths dmax :=
  ⟨h.taps_lt, h.deg_lt, hr, h.gmask_lt, h.sdeps_lt, h.ddeps_lt⟩

theorem State.SlotsOk.setReg {s : State} {n : SlotField} {r : Nat} (h : s.SlotsOk) (hc : s.Configured n)
    (hr : r < 2 ^ (s.slot n).width) : (s.setReg n r).SlotsOk := by
  have heng := h.engine hc
  rw [State.setReg_eq_setSlot hc.1]
  exact h.setSlot n ⟨(h _ (State.slot_mem hc.1)).1.withReg (heng.reg_lt_dmax hr), fun _ => heng.withReg hr⟩

/-- A bit or byte operation on a configured slot. -/
theorem State.SlotsOk.streamOp {s : State} {n : SlotField} (h : s.SlotsOk) (hc : s.Configured n)
    (dir : Direction) (op : StreamOp) : (s.setReg n ((s.slot n).streamOp dir op).1).SlotsOk :=
  h.setReg hc ((h.engine hc).streamOp_lt dir op)

theorem State.SlotsOk.rangeByte {s : State} {n : SlotField} (h : s.SlotsOk) (hc : s.Configured n)
    (dir : Direction) (src dst : Nat) : (rangeByte (Slot.byteOp · dir) n src dst s).SlotsOk := by
  obtain ⟨v, k, -, heq⟩ := rangeByte_eq (Slot.byteOp · dir) n src dst s
  rw [heq]
  exact h.streamOp hc dir (.byte v)

theorem State.SlotsOk.rangeLoop {s : State} {n : SlotField} (h : s.SlotsOk) (hc : s.Configured n)
    (dir : Direction) (src dst len : Nat) : (rangeLoop (Slot.byteOp · dir) n len src dst s).SlotsOk :=
  (rangeLoop_keeps (P := fun t => t.SlotsOk ∧ t.Configured n) (Slot.byteOp · dir) n
    (fun t src dst ⟨ht, htc⟩ _ _ => ⟨ht.rangeByte htc dir src dst,
      (rangeByte_effect (Slot.byteOp · dir) n src dst t).configured htc⟩)
    (Nat.zero_le dst) le_rfl ⟨h, hc⟩).1

theorem State.stageTap_slots (s : State) (t : Nat) : (s.stageTap t).slots = s.slots := by
  unfold State.stageTap
  split <;> rfl

theorem State.SlotsOk.install {s : State} {n : SlotField} {k : Kind} {T : List Nat} {d : Nat}
    (h : s.SlotsOk) (hp : s.params.Legal) (hv : validate s.dmax s.tapstage = some (T, d)) :
    (s.install n k T d).SlotsOk := by
  have hdmax : s.dmax < 2 ^ 16 := Nat.lt_succ_of_le hp.dmax_le
  exact h.setSlot n ⟨construct_widths hv hdmax k s.draws, fun _ => construct_engine hv k s.draws⟩

theorem Effect.slotsOk {i : Instr} {s t : State} {v : Nat} (h : Effect i s t v) (hs : s.SlotsOk)
    (hp : s.params.Legal) : t.SlotsOk := by
  have hdmax := h.interface.1
  cases i with
  | nop => obtain ⟨rfl, -⟩ := h; exact hs
  | tapclr => obtain ⟨rfl, -⟩ := h; exact hs
  | tapadd tap => obtain ⟨-, rfl, -⟩ := h; exact hs.of_slots (s.stageTap_slots _) hdmax
  | config n f => obtain ⟨k, T, d, -, -, hv, rfl, -⟩ := h; exact hs.install hp hv
  | scrb n x => obtain ⟨hc, rfl, -⟩ := h; exact hs.streamOp hc .scramble (.bit x)
  | dscb n x => obtain ⟨hc, rfl, -⟩ := h; exact hs.streamOp hc .descramble (.bit x)
  | scry n b => obtain ⟨hc, rfl, -⟩ := h; exact hs.streamOp hc .scramble (.byte b)
  | dscy n b => obtain ⟨hc, rfl, -⟩ := h; exact hs.streamOp hc .descramble (.byte b)
  | state n => obtain ⟨-, -, rfl, -⟩ := h; exact hs
  | scrr n src dst len => obtain ⟨hc, -, -, rfl, -⟩ := h; exact hs.rangeLoop hc .scramble _ _ _
  | dscr n src dst len => obtain ⟨hc, -, -, rfl, -⟩ := h; exact hs.rangeLoop hc .descramble _ _ _
  | bufwr a b => obtain ⟨-, rfl, -⟩ := h; exact hs
  | bufrd a => obtain ⟨-, rfl, -⟩ := h; exact hs.of_slots (s.memRead_slots _) hdmax

/-! ### TAPSTAGE -/

theorem testBit_shift_pair (v p : Nat) : ((v >>> 1) <<< 1).testBit p = (p != 0 && v.testBit p) := by
  rw [Nat.testBit_shiftLeft, Nat.testBit_shiftRight]
  cases p with
  | zero => rfl
  | succ p => simp [Nat.add_comm]

/-- The bits of TAPSTAGE after a write: bit 0 stays 0 (R23). -/
theorem State.testBit_writeTapstage (s : State) (v p : Nat) :
    (s.writeTapstage v).tapstage.testBit p = (p != 0 && v.testBit p) := testBit_shift_pair v p

/-- The bits of TAPSTAGE after a tap has been staged (R101, R102). -/
theorem State.testBit_stageTap {s : State} (h0 : s.tapstage.testBit 0 = false) (t p : Nat) :
    (s.stageTap t).tapstage.testBit p = (s.tapstage.testBit p || (p != 0 && p == t)) := by
  unfold State.stageTap
  split
  next ht =>
    rw [State.testBit_writeTapstage, Nat.testBit_or, testBit_e]
    by_cases hp : p = 0
    · subst hp
      simp [h0]
    · rw [bne_iff_ne.2 hp, beq_eq_decide, Bool.true_and, Bool.true_and, decide_eq_decide.2 eq_comm]
  next ht =>
    obtain rfl : t = 0 := not_not.1 ht
    cases p with
    | zero => simp
    | succ p => simp

theorem State.StageOk.stageTap {s : State} (h : s.StageOk) {t : Nat} (ht : t ≤ s.dmax) :
    (s.stageTap t).StageOk := by
  obtain ⟨hlt, hzero⟩ := h
  have hdmax : (s.stageTap t).dmax = s.dmax := by unfold State.stageTap; split <;> rfl
  refine ⟨lt_two_pow_of_testBit fun p hp => ?_, ?_⟩
  · rw [hdmax] at hp
    rw [State.testBit_stageTap hzero, testBit_of_lt hlt hp]
    simp [show p ≠ t by omega]
  · rw [State.testBit_stageTap hzero, hzero]
    rfl

theorem Effect.stageOk {i : Instr} {s t : State} {v : Nat} (h : Effect i s t v) (hs : s.StageOk) :
    t.StageOk := by
  by_cases hclr : i = .tapclr
  · subst hclr
    obtain ⟨rfl, -⟩ := h
    exact ⟨Nat.two_pow_pos _, Nat.zero_testBit 0⟩
  by_cases hadd : ∃ tap, i = .tapadd tap
  · obtain ⟨tap, rfl⟩ := hadd
    obtain ⟨hle, rfl, -⟩ := h
    exact hs.stageTap hle
  · unfold State.StageOk
    rwa [h.tapstage hclr fun tap htap => hadd ⟨tap, htap⟩, h.interface.1]

/-! ### BUF -/

theorem State.BufOk.of_buf {s t : State} (h : s.BufOk) (hbuf : t.buf = s.buf)
    (hsize : t.bufSize = s.bufSize) : t.BufOk := by
  unfold State.BufOk
  rwa [hbuf, hsize]

theorem Effect.bufOk {i : Instr} {s t : State} {v : Nat} (h : Effect i s t v) (hs : s.BufOk) :
    t.BufOk := by
  by_cases hwr : ∃ a b, i = .bufwr a b
  · obtain ⟨a, b, rfl⟩ := hwr
    obtain ⟨ha, rfl, -⟩ := h
    exact hs.memWrite ha b
  by_cases hrange : ∃ dir n src dst len, i = rangeInstr dir n src dst len
  · obtain ⟨dir, n, src, dst, len, rfl⟩ := hrange
    cases dir with
    | scramble => obtain ⟨-, -, hdst, rfl, -⟩ := h; exact hs.rangeLoop _ n hdst
    | descramble => obtain ⟨-, -, hdst, rfl, -⟩ := h; exact hs.rangeLoop _ n hdst
  · exact hs.of_buf (h.buf (fun a b hi => hwr ⟨a, b, hi⟩)
      fun dir n src dst len hi => hrange ⟨dir, n, src, dst, len, hi⟩) h.interface.2.1

/-! ### Commands -/

/-- RESULT of a command that answers OK fits RW bits. -/
theorem Effect.result_lt {i : Instr} {s t : State} {v : Nat} (h : Effect i s t v) (hs : s.SlotsOk) :
    v < 2 ^ Config.resultWidth s.dmax := by
  cases i with
  | nop | tapclr => obtain ⟨-, rfl⟩ := h; exact Nat.two_pow_pos _
  | tapadd _ | bufwr _ _ => obtain ⟨-, -, rfl⟩ := h; exact Nat.two_pow_pos _
  | scrr _ _ _ _ | dscr _ _ _ _ => obtain ⟨-, -, -, -, rfl⟩ := h; exact Nat.two_pow_pos _
  | config n f =>
    obtain ⟨k, T, d, -, -, hv, -, rfl⟩ := h
    obtain ⟨-, hle, -, -⟩ := validate_highest hv
    exact lt_resultWidth_of_lt_dmax (lt_of_le_of_lt hle Nat.lt_two_pow_self)
  | scrb _ _ | dscb _ _ =>
    obtain ⟨-, -, rfl⟩ := h
    exact lt_resultWidth_of_lt_byte s.dmax (boolToNat_lt_byte _)
  | scry _ _ | dscy _ _ | bufrd _ =>
    obtain ⟨-, -, rfl⟩ := h
    exact lt_resultWidth_of_lt_byte s.dmax (BitVec.isLt _)
  | state n =>
    obtain ⟨hc, -, -, rfl⟩ := h
    rw [Slot.stateValue_eq]
    exact lt_resultWidth_of_lt_dmax (lt_of_lt_of_le (Nat.mod_lt _ (Nat.two_pow_pos _))
      (Nat.pow_le_pow_right (by norm_num) (hs.engine hc).deg_le))

theorem State.Inv.failed {s : State} (h : s.Inv) (code : Status) : (s.failed code).Inv := by
  obtain ⟨hparams, hstage, hslots, hbuf, -⟩ := State.inv_iff.1 h
  refine State.inv_iff.2 ⟨hparams, hstage, hslots, hbuf, ?_⟩
  rintro _ ⟨⟩
  exact Response.ok_failed s.dmax code

theorem Effect.inv {i : Instr} {s t : State} {v : Nat} (h : Effect i s t v) (hs : s.Inv) :
    (t.answered v).Inv := by
  obtain ⟨hparams, hstage, hslots, hbuf, -⟩ := State.inv_iff.1 hs
  refine State.inv_iff.2 ⟨h.params ▸ hparams, h.stageOk hstage, h.slotsOk hslots hparams, h.bufOk hbuf, ?_⟩
  rintro _ ⟨⟩
  rw [State.answered_dmax, h.interface.1]
  exact Response.ok_answered (h.result_lt hslots)

theorem exec_keeps_inv {i : Instr} {s t : State} (hs : s.Inv) (h : exec i s = .next t) : t.Inv := by
  rcases exec_next_cases h with ⟨code, -, -, rfl⟩ | ⟨u, v, heffect, rfl⟩
  · exact hs.failed code
  · exact heffect.inv hs

/-! ### Reset and steps -/

theorem Slot.reset_ok (dmax : Nat) :
    Slot.reset.Widths dmax ∧ (Slot.reset.valid = true → Slot.reset.Engine dmax) := by
  have hzero : ∀ b < 8, (Vector.replicate 8 0 : Vector Nat 8).getD b 0 < 2 ^ (dmax + 8) := fun b hb => by
    simp [Vector.getD, Array.getD, hb]
  exact ⟨⟨Nat.two_pow_pos _, by decide, Nat.two_pow_pos _, Nat.two_pow_pos _, hzero, hzero⟩, nofun⟩

theorem State.resetWith_inv {p : Config.Params} (hp : p.Legal) : (State.resetWith p).Inv := by
  have hparams : (State.resetWith p).params = p := by simp [State.params, State.nslot, State.resetWith]
  refine State.inv_iff.2 ⟨hparams.symm ▸ hp,
    ⟨Nat.two_pow_pos _, Nat.zero_testBit 0⟩, fun sl hsl => ?_,
    State.reset_bufOk p, nofun⟩
  rw [List.eq_of_mem_replicate hsl]
  exact Slot.reset_ok _

/-- Settles O14: no register of `State.resetWith` holds a 1. -/
theorem resetMeetsTheInvariant : Obligations.ResetMeetsTheInvariant := fun _ hp => State.resetWith_inv hp

/-- The invariant speaks of neither the draw counter nor the port. -/
theorem State.Inv.withPort {s : State} (h : s.Inv) (draws : Nat) (pending : List HostEvent) :
    { s with draws := draws, pending := pending }.Inv :=
  ⟨h.params, h.tapstage_lt, h.tapstage_zero, h.widths, h.engine, h.buf_wf, h.buf_lt, h.result_lt,
    h.error_zero⟩

theorem State.Inv.accept {s : State} (h : s.Inv) (rest : List HostEvent) : (accept rest s).Inv :=
  h.withPort s.draws rest

theorem State.Inv.idle {s : State} (h : s.Inv) : (idle s).Inv := by
  obtain ⟨hparams, hstage, hslots, hbuf, -⟩ := State.inv_iff.1 h
  exact State.inv_iff.2 ⟨hparams, hstage, hslots, hbuf, nofun⟩

theorem State.Inv.platformReset {s : State} (h : s.Inv) : (platformReset s).Inv :=
  (State.resetWith_inv h.params).withPort s.draws s.pending

/-- Settles O15: each form of a step keeps the invariant. -/
theorem stepKeepsTheInvariant : Obligations.StepKeepsTheInvariant := by
  intro s t hinv hstep
  rcases step_cases s with ⟨-, h⟩ | ⟨w, rest, -, ⟨err, -, h⟩ | ⟨i, -, h⟩⟩ | ⟨rest, -, h⟩
  · obtain rfl := Host.Outcome.next.inj (h.symm.trans hstep)
    exact hinv.idle
  · obtain rfl := Host.Outcome.next.inj (h.symm.trans hstep)
    exact (hinv.accept rest).failed .eIllegal
  · exact exec_keeps_inv (hinv.accept rest) (h.symm.trans hstep)
  · obtain rfl := Host.Outcome.next.inj (h.symm.trans hstep)
    exact (hinv.accept rest).platformReset

/-! ### Responses -/

/-- A command returns a response and leaves the later events; on an error RESULT is 0. -/
theorem exec_response (i : Instr) (s : State) : ∃ t r, exec i s = .next t ∧ t.response = some r ∧
    t.pending = s.pending ∧ (r.status ≠ .ok → r.result = 0) := by
  rcases exec_cases i s with ⟨code, -, -, -, h⟩ | ⟨u, v, heffect, h⟩
  · exact ⟨_, _, h, rfl, rfl, fun _ => rfl⟩
  · exact ⟨_, _, h, rfl, heffect.interface.2.2, fun hne => absurd rfl hne⟩

/-- Settles O18: a word that does not decode answers E_ILLEGAL, a command as `exec_response` says, and the
invariant after the step bounds RESULT. -/
theorem everyCommandReturnsOneResponse : Obligations.EveryCommandReturnsOneResponse := by
  intro s w rest hp
  have hstep : ∃ t r, step s = .next t ∧ t.response = some r ∧ t.pending = rest ∧
      (r.status ≠ .ok → r.result = 0) := by
    cases hd : decodeWord w with
    | error err => exact ⟨_, _, step_of_decodeWord_error hp hd, rfl, rfl, fun _ => rfl⟩
    | ok i =>
      rw [step_command hp hd]
      exact exec_response i (accept rest s)
  obtain ⟨t, r, hnext, hresponse, hrest, hzero⟩ := hstep
  refine ⟨t, r, hnext, hresponse, hrest, hzero, fun hinv => ?_⟩
  have hdmax : t.dmax = s.dmax := congrArg Config.Params.dmax (stepKeepsTheBuildParameters s t hnext)
  rw [← hdmax]
  exact (stepKeepsTheInvariant s t hinv hnext).result_lt r hresponse

end Sys2Proof.Machine
end

section
/-! Single commands, result and frame: NOP, TAPCLR, TAPADD, STATE, and the bit and byte commands on a slot of
each kind in the arithmetic of the spec (41_tap_config.md section 1, 42_fibonacci.md R122 to R127,
43_galois.md R142 to R147, 44_bulk.md R166 to R172, 45_stream_ops.md). -/

namespace Sys2Proof.Machine

/-! ### NOP and the tap stage -/

/-- Settles O22: NOP only responds. -/
theorem nopChangesNothing : Obligations.NopChangesNothing := fun _ => rfl

/-- Settles O23: TAPCLR writes 0 to TAPSTAGE. -/
theorem tapclrClearsTheStage : Obligations.TapclrClearsTheStage := fun _ => rfl

theorem exec_tapadd_range {s : State} {tap : Field16} (h : s.dmax < tap.toNat) :
    exec (.tapadd tap) s = .next (s.failed .eRange) := by
  simp [exec, execTapadd, h, raiseError_eq]

theorem exec_tapadd_ok {s : State} {tap : Field16} (h : tap.toNat ≤ s.dmax) :
    exec (.tapadd tap) s = .next ((s.stageTap tap.toNat).answered 0) := by
  simp [exec, execTapadd, Nat.not_lt.2 h, respond_eq]

theorem State.stageTap_eq (s : State) (t : Nat) :
    s.stageTap t = { s with tapstage := (s.stageTap t).tapstage } := by
  unfold State.stageTap
  split <;> rfl

/-- Settles O24: staging a tap writes TAPSTAGE only, and `State.testBit_stageTap` gives its bits. -/
theorem tapaddStagesTheTap : Obligations.TapaddStagesTheTap := by
  intro s tap
  refine ⟨exec_tapadd_range, fun hle h0 => ⟨(s.stageTap tap.toNat).tapstage, ?_,
    State.testBit_stageTap h0 tap.toNat⟩⟩
  rw [exec_tapadd_ok hle, ← State.stageTap_eq]

/-- Settles O27: the taps are the positions of the set bits, which are listed in ascending order. -/
theorem tapSetReadsTheTapsRegister : Obligations.TapSetReadsTheTapsRegister :=
  fun taps => ⟨tapSet_pairwise taps, fun _ => mem_tapSet⟩

/-! ### STATE -/

theorem execState_wide {s : State} {n : SlotField} (hc : s.Configured n) (hk : (s.slot n).kind = .bulk)
    (hd : 64 < (s.slot n).deg) : execState n s = .next (s.failed .eWide) := by
  simp [execState, slotCheck_ok hc, hk, Config.bulkStateMax, hd, raiseError_eq]

theorem execState_ok {s : State} {n : SlotField} (hc : s.Configured n)
    (h : (s.slot n).kind ≠ .bulk ∨ (s.slot n).deg ≤ 64) :
    execState n s = .next (s.answered (s.slot n).stateValue) := by
  have hfits : ¬((s.slot n).kind = .bulk ∧ (s.slot n).deg > Config.bulkStateMax) :=
    fun ⟨hk, hd⟩ => h.elim (absurd hk) (Nat.not_le.2 hd)
  simp only [execState, slotCheck_ok hc, if_neg hfits, respond_eq]

/-- Settles O36: STATE responds with `Slot.stateValue`, which for every kind is the register modulo 2^d. -/
theorem stateReturnsTheRegister : Obligations.StateReturnsTheRegister := by
  intro s n hc
  refine ⟨execState_wide hc, fun h => ?_⟩
  rw [← Slot.stateValue_eq]
  exact execState_ok hc h

/-! ### Shifts and parities as arithmetic -/

theorem xorOver_eq_oddTaps (T : List Nat) (f : Nat → Bool) : xorOver T f = oddTaps T f :=
  xorOver_eq_odd T f

/-- Over a number below 2^k, bits from position k on are added. -/
theorem or_shiftLeft_eq_add {a k : Nat} (ha : a < 2 ^ k) (x : Nat) : a ||| x <<< k = a + x * 2 ^ k := by
  rw [Nat.or_comm, ← Nat.shiftLeft_add_eq_or_of_lt ha, Nat.shiftLeft_eq, Nat.add_comm]

theorem shiftRight_lt {a n k : Nat} (h : a < 2 ^ (n + k)) : a >>> k < 2 ^ n := by
  rw [Nat.shiftRight_eq_div_pow]
  exact Nat.div_lt_of_lt_mul (by rwa [← pow_add, Nat.add_comm k n])

/-! ### Bit commands -/

section BitCommands

variable {s : State} {n : SlotField} (hc : s.Configured n)
include hc

theorem exec_scrb_ok (x : Bool) : exec (.scrb n x) s =
    .next ((s.setReg n ((s.slot n).sbit x).1).answered ((s.slot n).sbit x).2.toNat) := bitCommand_ok hc

theorem exec_dscb_ok (x : Bool) : exec (.dscb n x) s =
    .next ((s.setReg n ((s.slot n).dbit x).1).answered ((s.slot n).dbit x).2.toNat) := bitCommand_ok hc

theorem exec_scry_ok (v : Byte) : exec (.scry n v) s =
    .next ((s.setReg n ((s.slot n).sbyte v).1).answered ((s.slot n).sbyte v).2.toNat) := byteCommand_ok hc

theorem exec_dscy_ok (v : Byte) : exec (.dscy n v) s =
    .next ((s.setReg n ((s.slot n).dbyte v).1).answered ((s.slot n).dbyte v).2.toNat) := byteCommand_ok hc

end BitCommands

/-- SCRB and DSCB in terms of the shift of the slot's kind: the one shifts in its output `y`, the other its
input. -/
theorem exec_bit_shift {s : State} {n : SlotField} (hc : s.Configured n) {x y : Bool}
    (hy : ((s.slot n).sbit x).2 = y) :
    exec (.scrb n x) s = .next ((s.setReg n ((s.slot n).shift y)).answered y.toNat) ∧
      exec (.dscb n x) s = .next ((s.setReg n ((s.slot n).shift x)).answered y.toNat) := by
  rw [exec_scrb_ok hc, exec_dscb_ok hc, Slot.sbit_reg, Slot.dbit_eq, hy]
  exact ⟨rfl, rfl⟩

theorem Fib.shiftIn_eq (d reg : Nat) (x : Bool) :
    Fib.shiftIn d reg x = (2 * reg + x.toNat) % 2 ^ d := by
  have hx : x.toNat < 2 ^ 1 := by cases x <;> decide
  rw [Fib.shiftIn, and_mask, ← Nat.shiftLeft_add_eq_or_of_lt hx, Nat.shiftLeft_eq, pow_one, Nat.mul_comm]

/-- Settles O31: the shift toward bit d-1 is a doubling modulo 2^d. -/
theorem bitCommandsOnFibonacci : Obligations.BitCommandsOnFibonacci := by
  intro s n x hholds sl fb
  have hshift : ∀ y, sl.shift y = (2 * sl.reg + y.toNat) % 2 ^ sl.deg := fun y => by
    rw [← Fib.shiftIn_eq, Slot.shift, hholds.kind_eq]
  have hout : (sl.sbit x).2 = fb := by
    rw [Slot.sbit, hholds.kind_eq]
    exact congrArg (x ^^ ·) (xorOver_eq_oddTaps ..)
  rw [← hshift, ← hshift]
  exact exec_bit_shift hholds.configured hout

/-- The top tap of an engine makes the last line of R142 and R144 redundant (R143). -/
theorem Slot.Engine.gal_advance_eq {dmax : Nat} {sl : Slot} (h : sl.Engine dmax) (hk : sl.kind = .gal)
    (f : Bool) :
    Gal.advance sl.gmask sl.deg sl.reg f = sl.reg / 2 ^^^ if f then sl.taps else 0 := by
  have hreg : sl.reg < 2 ^ sl.deg := by simpa [Slot.width, hk] using h.reg_lt
  have hpos := h.deg_pos
  refine Nat.eq_of_testBit_eq fun i => ?_
  have hmix : (if f then sl.taps else 0).testBit i = (f && sl.taps.testBit i) := by cases f <;> simp
  rw [Gal.testBit_advance hpos, h.gmask_eq hk, Nat.testBit_xor, Nat.testBit_div_two, hmix]
  by_cases hlow : i + 1 < sl.deg
  · rw [if_pos hlow]
  rw [if_neg hlow, testBit_of_lt hreg (by omega), Bool.false_xor]
  by_cases htop : i + 1 = sl.deg
  · rw [show i = sl.deg - 1 by omega, h.top_tap, Bool.and_true, decide_eq_true (by omega), Bool.true_and]
  · rw [testBit_of_lt h.taps_lt (by omega), decide_eq_false htop, Bool.and_false, Bool.false_and]

/-- Settles O32: `Slot.Engine.gal_advance_eq` with the output, which is read from bit 0. -/
theorem bitCommandsOnGalois : Obligations.BitCommandsOnGalois := by
  intro s n x hinv hholds sl out
  have heng : sl.Engine s.dmax := hinv.slot_engine hholds.configured
  have hshift : ∀ y, sl.shift y = sl.reg / 2 ^^^ if y then sl.taps else 0 := fun y => by
    rw [← heng.gal_advance_eq hholds.kind_eq, Slot.shift, hholds.kind_eq]
  have hout : (sl.sbit x).2 = out := by
    rw [Slot.sbit, hholds.kind_eq]
    exact congrArg (· ^^ x) (by rw [Nat.testBit_zero]; rfl)
  rw [← hshift, ← hshift]
  exact exec_bit_shift hholds.configured hout

theorem Bulk.shiftIn_eq {d buf : Nat} (hbuf : buf < 2 ^ (d + 8)) (x : Bool) :
    Bulk.shiftIn d buf x = buf / 2 + x.toNat * 2 ^ (d + 7) := by
  rw [Bulk.shiftIn, or_shiftLeft_eq_add (shiftRight_lt (n := d + 7) (k := 1) hbuf),
    Nat.shiftRight_eq_div_pow, pow_one]

theorem Slot.Engine.bulk_reg_lt {dmax : Nat} {sl : Slot} (h : sl.Engine dmax) (hk : sl.kind = .bulk) :
    sl.reg < 2 ^ (sl.deg + 8) := by simpa [Slot.width, hk] using h.reg_lt

/-- Settles O33: the shift toward position 0 is a halving, and position d+7 is free. -/
theorem bitCommandsOnBulk : Obligations.BitCommandsOnBulk := by
  intro s n x hinv hholds sl y
  have hreg : sl.reg < 2 ^ (sl.deg + 8) :=
    (hinv.slot_engine hholds.configured).bulk_reg_lt hholds.kind_eq
  have hshift : ∀ z, sl.shift z = sl.reg / 2 + z.toNat * 2 ^ (sl.deg + 7) := fun z => by
    rw [← Bulk.shiftIn_eq hreg, Slot.shift, hholds.kind_eq]
  have hout : (sl.sbit x).2 = y := by
    rw [Slot.sbit, hholds.kind_eq]
    exact congrArg (x ^^ ·) (xorOver_eq_oddTaps ..)
  rw [← hshift, ← hshift]
  exact exec_bit_shift hholds.configured hout

/-! ### Byte commands on BULK -/

theorem Bulk.load_eq {d buf : Nat} (hbuf : buf < 2 ^ (d + 8)) (v : Byte) :
    Bulk.load d buf v = buf / 256 + v.toNat * 2 ^ d := by
  rw [Bulk.load, or_shiftLeft_eq_add (shiftRight_lt hbuf), Nat.shiftRight_eq_div_pow]

/-- The result byte of a scramble is committed over the input byte. -/
theorem Bulk.sbyte_reg_eq {d buf : Nat} (hbuf : buf < 2 ^ (d + 8)) (SD : Vector Nat 8) (v : Byte) :
    (Bulk.sbyte SD d buf v).1 = buf / 256 + (Bulk.sbyte SD d buf v).2.toNat * 2 ^ d := by
  have hlow : buf / 256 < 2 ^ d := by
    rw [show 256 = 2 ^ 8 from rfl, ← Nat.shiftRight_eq_div_pow]
    exact shiftRight_lt hbuf
  have hloaded : Bulk.load d buf v &&& mask d = buf / 256 := by
    rw [and_mask, Bulk.load_eq hbuf, Nat.add_mul_mod_self_right, Nat.mod_eq_of_lt hlow]
  show (Bulk.load d buf v &&& mask d) ||| _ <<< d = _
  rw [hloaded, or_shiftLeft_eq_add hlow]
  rfl

/-- Lane b is the parity of the loaded buffer under the mask of bit b (R172). -/
theorem Bulk.getLsbD_lanes_load {d buf : Nat} (hbuf : buf < 2 ^ (d + 8)) (M : Vector Nat 8) (v : Byte)
    {b : Nat} (hb : b < 8) :
    (Bulk.lanes M (Bulk.load d buf v)).getLsbD b = oddTaps (List.range (d + 8)) fun p =>
      (buf / 256 + v.toNat * 2 ^ d).testBit p && (M.getD b 0).testBit p := by
  have hlt : Bulk.load d buf v &&& M.getD b 0 < 2 ^ (d + 8) :=
    lt_of_le_of_lt Nat.and_le_left (Bulk.load_lt hbuf)
  rw [getLsbD_lanes M _ hb, parity_eq_xorOver hlt, xorOver_eq_oddTaps, ← Bulk.load_eq hbuf]
  exact congrArg (oddTaps _) (funext fun p => Nat.testBit_and ..)

/-- Settles O35: the two results are the lanes over the loaded buffer. -/
theorem byteCommandsOnBulk : Obligations.ByteCommandsOnBulk := by
  intro s n v hinv hholds sl loaded
  have hk : sl.kind = .bulk := hholds.kind_eq
  have hreg : sl.reg < 2 ^ (sl.deg + 8) := (hinv.slot_engine hholds.configured).bulk_reg_lt hk
  have hscramble : sl.sbyte v = Bulk.sbyte sl.sdeps sl.deg sl.reg v := by rw [Slot.sbyte, hk]
  have hdescramble : sl.dbyte v = (Bulk.load sl.deg sl.reg v,
      Bulk.lanes sl.ddeps (Bulk.load sl.deg sl.reg v)) := by
    rw [Slot.dbyte, hk]
    rfl
  refine ⟨Bulk.lanes sl.sdeps (Bulk.load sl.deg sl.reg v), Bulk.lanes sl.ddeps (Bulk.load sl.deg sl.reg v),
    fun b hb => Bulk.getLsbD_lanes_load hreg _ v hb, fun b hb => Bulk.getLsbD_lanes_load hreg _ v hb, ?_, ?_⟩
  · rw [exec_scry_ok hholds.configured, hscramble, Bulk.sbyte_reg_eq hreg]
    rfl
  · rw [exec_dscy_ok hholds.configured, hdescramble, Bulk.load_eq hreg]

end Sys2Proof.Machine
end

section
/-! SCRR and DSCR over the whole range: completion and frame, cutting a range in two, and the destination
bytes as the outputs of byte commands (46_range_ops.md R210 to R215). -/

namespace Sys2Proof.Machine

/-! ### The frame -/

theorem RangeEffect.params {n : SlotField} {dst len : Nat} {s t : State} (h : RangeEffect n dst len s t) :
    t.params = s.params := by
  obtain ⟨r, hslots⟩ := h.slots
  have hnslot : t.nslot = s.nslot := by
    rw [State.nslot_eq, hslots, ← State.nslot_eq, State.setReg_nslot]
  rw [State.params, h.dmax, h.bufSize, hnslot, ← State.params]

/-- Settles O51: the loop has the effect `rangeLoop_effect` states. -/
theorem rangeFrame : Obligations.RangeFrame := by
  intro s dir n src dst len hc hsrc hdst
  have heffect := rangeLoop_effect (Slot.byteOp · dir) n len.toNat src.toNat dst.toNat s
  obtain ⟨r, hslots⟩ := heffect.slots
  exact ⟨_, r, exec_rangeInstr_ok hc dir hsrc hdst, rfl, hslots, heffect.tapstage, heffect.params,
    heffect.pending, heffect.outside, heffect.inside⟩

/-! ### Chunks -/

/-- Settles O49: the loop over a + b bytes is two loops, and it does not read the response that the first
command leaves. -/
theorem rangesAreChunkable : Obligations.RangesAreChunkable := by
  intro s dir n src dst a b hsize hc hab hsrc hdst
  have hsum : (a + b).toNat = a.toNat + b.toNat := BitVec.toNat_add_of_lt hab
  have heffect := rangeLoop_effect (Slot.byteOp · dir) n a.toNat src.toNat dst.toNat s
  have hct : ((rangeLoop (Slot.byteOp · dir) n a.toNat src.toNat dst.toNat s).answered 0).Configured n :=
    heffect.configured hc
  refine ⟨_, exec_rangeInstr_ok hc dir (by omega) (by omega), ?_⟩
  rw [exec_rangeInstr_ok hc dir (by omega) (by omega), exec_rangeInstr_ok hct dir, rangeLoop_answered,
    rangeLoop_toNat_add _ _ _ (by omega) (by omega), hsum, rangeLoop_add]
  · rfl
  · rw [State.answered_bufSize, heffect.bufSize]
    bv_omega
  · rw [State.answered_bufSize, heffect.bufSize]
    bv_omega

/-! ### The destination bytes -/

/-- One byte of a range whose source byte has been written. -/
theorem rangeByte_written (op : Slot → Byte → Nat × Byte) (n : SlotField) {src : Nat} (dst : Nat)
    {s : State} {v : Byte} (hv : s.buf.read src = some v) : rangeByte op n src dst s =
      (s.setReg n (op (s.slot n) v).1).memWrite dst (op (s.slot n) v).2 := by
  simp only [rangeByte, State.memRead_written hv]

/-- Over written source bytes that no write of the range reaches before they are read, the loop leaves the
register and writes the outputs of the stream of these bytes. -/
theorem rangeLoop_outputs {n : SlotField} (dir : Direction) (vs : List Byte) {s : State} {src dst : Nat}
    (hc : s.Configured n)
    (hapart : src + vs.length ≤ dst ∨ dst + vs.length ≤ src ∨ src = dst)
    (hread : ∀ i < vs.length, s.buf.read (src + i) = vs[i]?) :
    ∃ ys : List Byte, ys.length = vs.length ∧
      ((s.slot n).stream (oneWay dir (vs.map StreamOp.byte))).1 = ys.map StreamOp.byte ∧
      (rangeLoop (Slot.byteOp · dir) n vs.length src dst s).slots =
        (s.setReg n ((s.slot n).stream (oneWay dir (vs.map StreamOp.byte))).2).slots ∧
      ∀ i < vs.length,
        (rangeLoop (Slot.byteOp · dir) n vs.length src dst s).buf.read (dst + i) = ys[i]? := by
  induction vs generalizing s src dst with
  | nil => exact ⟨[], rfl, rfl, congrArg State.slots (s.setReg_self n).symm, nofun⟩
  | cons v vs ih =>
    rw [List.length_cons] at hapart hread
    have hbyte := rangeByte_written (Slot.byteOp · dir) n (src := src) dst (hread 0 (by omega))
    have heffect := rangeByte_effect (Slot.byteOp · dir) n src dst s
    have hslot : (rangeByte (Slot.byteOp · dir) n src dst s).slot n =
        { s.slot n with reg := ((s.slot n).byteOp dir v).1 } := by
      rw [hbyte, State.memWrite_slot, State.setReg_slot_same _ hc.1]
    obtain ⟨ys, hlength, hout, hslots, hys⟩ := ih (src := src + 1) (dst := dst + 1)
      (heffect.configured hc) (by omega) fun i hi => by
        rw [heffect.outside _ (by omega), show src + 1 + i = src + (i + 1) by omega,
          hread (i + 1) (by omega), List.getElem?_cons_succ]
    rw [hslot] at hout hslots
    refine ⟨((s.slot n).byteOp dir v).2 :: ys, congrArg (· + 1) hlength,
      congrArg (StreamOp.byte ((s.slot n).byteOp dir v).2 :: ·) hout, ?_, fun i hi => ?_⟩
    · rw [List.length_cons, rangeLoop, hslots, hbyte, State.setReg_slots, State.memWrite_slots,
        ← State.setReg_slots, State.setReg_setReg]
      rfl
    · cases i with
      | zero =>
        rw [List.length_cons, rangeLoop, (rangeLoop_effect ..).outside _ (by omega), hbyte]
        exact Memory.read_write_same ..
      | succ i =>
        rw [List.length_cons, rangeLoop, show dst + (i + 1) = dst + 1 + i by omega,
          hys i (Nat.lt_of_succ_lt_succ hi), List.getElem?_cons_succ]

/-- Settles O50: the stream of byte commands leaves the slots and gives the outputs of
`rangeLoop_outputs`. -/
theorem rangeWritesTheByteOutputs : Obligations.RangeWritesTheByteOutputs := by
  intro s dir n src dst len vs hc hsrc hdst hapart hlength hread
  have hapart' : src.toNat + vs.length ≤ dst.toNat ∨ dst.toNat + vs.length ≤ src.toNat ∨
      src.toNat = dst.toNat := by
    rw [hlength]
    exact hapart.imp_right (Or.imp_right (congrArg BitVec.toNat))
  obtain ⟨ys, hys, hout, hslots, hbytes⟩ :=
    rangeLoop_outputs dir vs hc hapart' fun i hi => hread i (hlength ▸ hi)
  obtain ⟨r, hrun⟩ := runStream_ok hc (oneWay dir (vs.map StreamOp.byte))
  rw [hlength] at hys hslots hbytes
  rw [hout] at hrun
  exact ⟨ys, _, _, hys, hrun, exec_rangeInstr_ok hc dir hsrc hdst, rfl, hslots, hbytes,
    (rangeLoop_effect ..).outside⟩

end Sys2Proof.Machine
end

section
/-! Two states that differ at most in unspecified slot fields: every operation gives the same result on both
and states that differ at most there (10_state.md R35, 93_implementation_defined.md U2, U3). -/

namespace Sys2Proof.Machine

/-! ### Slots -/

theorem Slot.SameSpecified.refl (sl : Slot) : sl.SameSpecified sl :=
  ⟨rfl, fun _ => rfl, fun _ => rfl, fun _ => rfl, fun _ => rfl, fun _ _ => rfl, fun _ _ => rfl,
    fun _ _ => rfl⟩

/-- The same register in both slots. -/
theorem Slot.SameSpecified.withReg {a b : Slot} (h : a.SameSpecified b) (r : Nat) :
    ({ a with reg := r } : Slot).SameSpecified { b with reg := r } :=
  ⟨h.valid, h.kind, h.taps, h.deg, fun _ => rfl, h.gmask, h.sdeps, h.ddeps⟩

section Configured

variable {a b : Slot} (h : a.SameSpecified b) (hv : a.valid = true)
include h hv

/-- Of a configured slot an operation reads the fields that its kind specifies. -/
theorem Slot.SameSpecified.bitOp_eq (dir : Direction) (x : Bool) :
    a.bitOp dir a.reg x = b.bitOp dir b.reg x := by
  have hkind := h.kind hv
  unfold Slot.bitOp Slot.sbit Slot.dbit Slot.tapList
  cases dir <;> cases hk : a.kind <;>
    simp only [hk, ← hkind, h.taps hv, h.deg hv, h.reg hv]
  all_goals rw [h.gmask hv hk]

theorem Slot.SameSpecified.byteOp_eq (dir : Direction) (v : Byte) : a.byteOp dir v = b.byteOp dir v := by
  have hkind := h.kind hv
  unfold Slot.byteOp Slot.sbyte Slot.dbyte Slot.tapList
  cases dir <;> cases hk : a.kind <;>
    simp only [hk, ← hkind, h.taps hv, h.deg hv, h.reg hv]
  · rw [h.gmask hv hk]
  · rw [h.sdeps hv hk]
  · rw [h.gmask hv hk]
  · rw [h.ddeps hv hk]

theorem Slot.SameSpecified.stateValue_eq : a.stateValue = b.stateValue := by
  rw [Slot.stateValue_eq, Slot.stateValue_eq, h.deg hv, h.reg hv]

end Configured

/-! ### States -/

/-- Both answer a next state, with the same response, and differ at most in unspecified slot fields. -/
def SameAnswer (x y : Answer) : Prop := ∃ s t, x = .next s ∧ y = .next t ∧ s.SameSpecified t

section States

variable {s t : State} (h : s.SameSpecified t)
include h

theorem State.SameSpecified.nslot_eq : s.nslot = t.nslot := h.slots.length_eq

theorem State.SameSpecified.slot (n : SlotField) : (s.slot n).SameSpecified (t.slot n) := by
  have hlength := h.slots.length_eq
  by_cases hn : n.toNat < s.slots.length
  · have hnt : n.toNat < t.slots.length := hlength ▸ hn
    rw [State.slot, State.slot, List.getElem?_eq_getElem hn, List.getElem?_eq_getElem hnt]
    exact h.slots.get hn hnt
  · rw [State.slot, State.slot, List.getElem?_eq_none (by omega), List.getElem?_eq_none (by omega)]
    exact Slot.SameSpecified.refl _

theorem State.SameSpecified.setSlot (n : SlotField) {a b : Slot} (hab : a.SameSpecified b) :
    (s.setSlot n a).SameSpecified (t.setSlot n b) := by
  refine ⟨h.dmax, h.bufSize, h.tapstage, ?_, h.buf, h.draws, h.pending, h.response⟩
  rw [State.setSlot_slots, State.setSlot_slots]
  refine List.forall₂_iff_get.2 ⟨by simpa using h.slots.length_eq, fun i hi ht => ?_⟩
  simp only [List.get_eq_getElem, List.getElem_set]
  split
  · exact hab
  · exact h.slots.get (by simpa using hi) (by simpa using ht)

theorem State.SameSpecified.setReg (n : SlotField) (r : Nat) :
    (s.setReg n r).SameSpecified (t.setReg n r) := by
  by_cases hn : n.toNat < s.nslot
  · rw [State.setReg_eq_setSlot hn, State.setReg_eq_setSlot (h.nslot_eq ▸ hn)]
    exact h.setSlot n ((h.slot n).withReg r)
  · have beyond : ∀ u : State, u.nslot = s.nslot → u.setReg n r = u := fun u hu => by
      rw [State.setReg, List.modify_eq_self (by rw [← State.nslot_eq, hu]; omega)]
    rwa [beyond s rfl, beyond t h.nslot_eq.symm]

theorem State.SameSpecified.respond (v : Nat) : SameAnswer (respond v s) (respond v t) :=
  ⟨_, _, rfl, rfl, h.dmax, h.bufSize, h.tapstage, h.slots, h.buf, h.draws, h.pending, rfl⟩

theorem State.SameSpecified.raiseError (code : Status) :
    SameAnswer (raiseError code s) (raiseError code t) :=
  ⟨_, _, rfl, rfl, h.dmax, h.bufSize, h.tapstage, h.slots, h.buf, h.draws, h.pending, rfl⟩

theorem State.SameSpecified.writeTapstage (v : Nat) :
    (s.writeTapstage v).SameSpecified (t.writeTapstage v) :=
  ⟨h.dmax, h.bufSize, rfl, h.slots, h.buf, h.draws, h.pending, h.response⟩

theorem State.SameSpecified.stageTap (tap : Nat) : (s.stageTap tap).SameSpecified (t.stageTap tap) := by
  unfold State.stageTap
  split
  · rw [h.tapstage]
    exact h.writeTapstage _
  · exact h

theorem State.SameSpecified.memWrite (a : Nat) (v : Byte) :
    (s.memWrite a v).SameSpecified (t.memWrite a v) :=
  ⟨h.dmax, h.bufSize, h.tapstage, h.slots, congrArg (Memory.write · a v) h.buf, h.draws, h.pending,
    h.response⟩

/-- Both read the same byte, also where it is a free value: the draw counters are equal. -/
theorem State.SameSpecified.memRead (a : Nat) :
    (s.memRead a).1 = (t.memRead a).1 ∧ (s.memRead a).2.SameSpecified (t.memRead a).2 := by
  cases hs : s.buf.read a with
  | some v =>
    rw [State.memRead_written hs, State.memRead_written (h.buf ▸ hs)]
    exact ⟨rfl, h⟩
  | none =>
    rw [State.memRead_unwritten hs, State.memRead_unwritten (h.buf ▸ hs)]
    exact ⟨congrArg Config.freeByte h.draws, h.dmax, h.bufSize, h.tapstage, h.slots, h.buf,
      congrArg (· + 1) h.draws, h.pending, h.response⟩

theorem State.SameSpecified.install (n : SlotField) (k : Kind) (T : List Nat) (d : Nat) :
    (s.install n k T d).SameSpecified (t.install n k T d) := by
  have hset := h.setSlot n (Slot.SameSpecified.refl (construct k T d s.dmax s.draws))
  unfold State.install
  rw [← h.dmax, ← h.draws]
  exact ⟨hset.dmax, hset.bufSize, hset.tapstage, hset.slots, hset.buf, rfl, hset.pending, hset.response⟩

theorem State.SameSpecified.configured {n : SlotField} (hc : s.Configured n) : t.Configured n :=
  ⟨h.nslot_eq ▸ hc.1, (h.slot n).valid ▸ hc.2⟩

/-- The slot check fails on both with the same error or passes on both. -/
theorem State.SameSpecified.slotCheck_cases (n : SlotField) :
    (∃ code, slotCheck n s = .error code ∧ slotCheck n t = .error code) ∨ s.Configured n := by
  rcases Machine.slotCheck_cases n s with ⟨hn, hs⟩ | ⟨hn, hv, hs⟩ | ⟨hc, -⟩
  · exact .inl ⟨_, hs, slotCheck_noSlot (h.nslot_eq ▸ hn)⟩
  · exact .inl ⟨_, hs, slotCheck_unconfigured (h.nslot_eq ▸ hn) ((h.slot n).valid ▸ hv)⟩
  · exact .inr hc

/-! ### Commands -/

theorem State.SameSpecified.streamCommand (dir : Direction) (n : SlotField) (op : StreamOp) :
    SameAnswer (exec (op.command dir n) s) (exec (op.command dir n) t) := by
  have hnamed : namedSlot (op.command dir n) = some n := by cases dir <;> cases op <;> rfl
  have hconfig : isConfig (op.command dir n) = false := by cases dir <;> cases op <;> rfl
  rcases h.slotCheck_cases n with ⟨code, hs, ht⟩ | hc
  · rw [exec_slotCheck_error hs hnamed hconfig, exec_slotCheck_error ht hnamed hconfig]
    exact h.raiseError code
  · have hop : (s.slot n).streamOp dir op = (t.slot n).streamOp dir op := by
      cases op with
      | bit x => simp only [Slot.streamOp, (h.slot n).bitOp_eq hc.2]
      | byte v => simp only [Slot.streamOp, (h.slot n).byteOp_eq hc.2]
    rw [exec_command hc, exec_command (h.configured hc), hop]
    exact (h.setReg n _).respond _

theorem State.SameSpecified.stateCommand (n : SlotField) :
    SameAnswer (execState n s) (execState n t) := by
  rcases h.slotCheck_cases n with ⟨code, hs, ht⟩ | hc
  · rw [execState_slotCheck_error hs, execState_slotCheck_error ht]
    exact h.raiseError code
  · have hslot := h.slot n
    unfold execState
    rw [slotCheck_ok hc, slotCheck_ok (h.configured hc)]
    simp only [hslot.kind hc.2, hslot.deg hc.2, hslot.stateValue_eq hc.2]
    split
    · exact h.raiseError .eWide
    · exact h.respond _

theorem State.SameSpecified.rangeByte {n : SlotField} (hc : s.Configured n) (dir : Direction)
    (src dst : Nat) : (rangeByte (Slot.byteOp · dir) n src dst s).SameSpecified
      (rangeByte (Slot.byteOp · dir) n src dst t) := by
  obtain ⟨hbyte, hread⟩ := h.memRead src
  have hv : ((s.memRead src).2.slot n).valid = true := (hc.of_slots (s.memRead_slots src)).2
  simp only [Machine.rangeByte]
  rw [← hbyte, (hread.slot n).byteOp_eq hv]
  exact (hread.setReg n _).memWrite dst _

theorem State.SameSpecified.rangeLoop {n : SlotField} (hc : s.Configured n) (dir : Direction)
    (len src dst : Nat) :
    (rangeLoop (Slot.byteOp · dir) n len src dst s).SameSpecified
      (rangeLoop (Slot.byteOp · dir) n len src dst t) := by
  induction len generalizing src dst s t with
  | zero => exact h
  | succ len ih =>
    exact ih (h.rangeByte hc dir src dst) ((rangeByte_effect ..).configured hc) (src + 1) (dst + 1)

theorem State.SameSpecified.rangeCommand (dir : Direction) (n : SlotField) (src dst len : Field16) :
    SameAnswer (rangeCommand (Slot.byteOp · dir) n src dst len s)
      (rangeCommand (Slot.byteOp · dir) n src dst len t) := by
  rcases h.slotCheck_cases n with ⟨code, hs, ht⟩ | hc
  · rw [rangeCommand_slotCheck_error hs, rangeCommand_slotCheck_error ht]
    exact h.raiseError code
  · by_cases hb : s.bufSize < src.toNat + len.toNat ∨ s.bufSize < dst.toNat + len.toNat
    · rw [rangeCommand_bounds hc hb, rangeCommand_bounds (h.configured hc) (h.bufSize ▸ hb)]
      exact h.raiseError .eBounds
    · obtain ⟨hsrc, hdst⟩ := not_or.1 hb
      rw [rangeCommand_ok hc (Nat.not_lt.1 hsrc) (Nat.not_lt.1 hdst),
        rangeCommand_ok (h.configured hc) (h.bufSize ▸ Nat.not_lt.1 hsrc) (h.bufSize ▸ Nat.not_lt.1 hdst)]
      exact (h.rangeLoop hc dir _ _ _).respond 0

theorem State.SameSpecified.configCommand (n : SlotField) (field : KindField) :
    SameAnswer (execConfig n field s) (execConfig n field t) := by
  unfold execConfig
  rw [← h.nslot_eq, ← h.dmax, ← h.tapstage]
  cases Kind.ofField field with
  | none => exact h.raiseError .eIllegal
  | some k =>
    by_cases hn : n.toNat ≥ s.nslot
    · simp only [if_pos hn]
      exact h.raiseError .eSlot
    · simp only [if_neg hn]
      cases validate s.dmax s.tapstage with
      | none => exact h.raiseError .eEmpty
      | some Td => exact (h.install n k Td.1 Td.2).respond Td.2

theorem State.SameSpecified.tapaddCommand (tap : Field16) :
    SameAnswer (execTapadd tap s) (execTapadd tap t) := by
  unfold execTapadd
  rw [← h.dmax]
  split
  · exact h.raiseError .eRange
  · exact (h.stageTap tap.toNat).respond 0

theorem State.SameSpecified.bufwrCommand (a : Field16) (v : Byte) :
    SameAnswer (execBufwr a v s) (execBufwr a v t) := by
  unfold execBufwr addressable
  rw [← h.bufSize]
  split
  · exact (h.memWrite a.toNat v).respond 0
  · exact h.raiseError .eBounds

theorem State.SameSpecified.bufrdCommand (a : Field16) :
    SameAnswer (execBufrd a s) (execBufrd a t) := by
  obtain ⟨hbyte, hread⟩ := h.memRead a.toNat
  unfold execBufrd addressable
  rw [← h.bufSize]
  split
  · simp only [← hbyte]
    exact hread.respond _
  · exact h.raiseError .eBounds

theorem State.SameSpecified.exec (i : Instr) : SameAnswer (exec i s) (exec i t) := by
  cases i with
  | nop => exact h.respond 0
  | tapclr => exact (h.writeTapstage 0).respond 0
  | tapadd tap => exact h.tapaddCommand tap
  | config n field => exact h.configCommand n field
  | scrb n x => exact h.streamCommand .scramble n (.bit x)
  | dscb n x => exact h.streamCommand .descramble n (.bit x)
  | scry n v => exact h.streamCommand .scramble n (.byte v)
  | dscy n v => exact h.streamCommand .descramble n (.byte v)
  | state n => exact h.stateCommand n
  | scrr n src dst len => exact h.rangeCommand .scramble n src dst len
  | dscr n src dst len => exact h.rangeCommand .descramble n src dst len
  | bufwr a v => exact h.bufwrCommand a v
  | bufrd a => exact h.bufrdCommand a

/-! ### Steps -/

theorem State.SameSpecified.accept (rest : List HostEvent) :
    (accept rest s).SameSpecified (accept rest t) :=
  ⟨h.dmax, h.bufSize, h.tapstage, h.slots, h.buf, h.draws, rfl, h.response⟩

theorem State.SameSpecified.idle : (idle s).SameSpecified (idle t) :=
  ⟨h.dmax, h.bufSize, h.tapstage, h.slots, h.buf, h.draws, h.pending, rfl⟩

theorem State.SameSpecified.platformReset : (platformReset s).SameSpecified (platformReset t) := by
  refine ⟨h.dmax, h.bufSize, rfl, ?_, rfl, h.draws, h.pending, rfl⟩
  rw [State.platformReset_slots, State.platformReset_slots, h.nslot_eq]
  exact List.forall₂_same.2 fun sl _ => Slot.SameSpecified.refl sl

theorem State.SameSpecified.step : SameAnswer (step s) (step t) := by
  cases hs : s.pending with
  | nil =>
    rw [step_wait hs, step_wait (h.pending ▸ hs)]
    exact ⟨_, _, rfl, rfl, h.idle⟩
  | cons event rest =>
    have ht : t.pending = event :: rest := h.pending ▸ hs
    have hrest := h.accept rest
    cases event with
    | command w =>
      cases hd : decodeWord w with
      | error err =>
        rw [step_of_decodeWord_error hs hd, step_of_decodeWord_error ht hd]
        exact hrest.raiseError .eIllegal
      | ok i =>
        rw [step_command hs hd, step_command ht hd]
        exact hrest.exec i
    | reset =>
      rw [step_reset hs, step_reset ht]
      exact ⟨_, _, rfl, rfl, hrest.platformReset⟩
    | resetDuring w =>
      rw [step_resetDuring hs, step_resetDuring ht]
      exact ⟨_, _, rfl, rfl, hrest.platformReset⟩

end States

/-- Settles O60: both steps answer, and the relation includes the response. -/
theorem unspecifiedFieldsCannotBeObserved : Obligations.UnspecifiedFieldsCannotBeObserved := by
  intro s t h
  obtain ⟨s', t', hs, ht, hsame⟩ := h.step
  exact ⟨s', t', hs, ht, hsame.response, hsame⟩

end Sys2Proof.Machine
end
